-- ==== Sys2Proof/Word.lean ====
section
/-! DEFINITION. The word types of the core: a byte of the link and of storage, a 32-bit register word, a 24-bit flash address. -/

namespace Sys2Proof

/-- A byte: 8 bits (00_scope R11). -/
abbrev Byte := BitVec 8

/-- The value of a host controller register: 32 bits (20_memory R56). -/
abbrev Word := BitVec 32

/-- The address accumulator of the flash device: 24 bits (10_state R34). -/
abbrev Addr24 := BitVec 24

end Sys2Proof
end

