-- ==== Sys2Proof/Syntax.lean ====
section
/-! DEFINITION. The instruction set: one constructor of Instr per row of spec/opcode_table.json, and the two encoding spaces of
30_encoding R80 in which an instruction reaches the core. -/

namespace Sys2Proof

/-- The ten registers of the window (20_memory R51). -/
inductive Reg
  | cr | sr | fcr | dlr | ccr | ar | dr | psmkr | psmar | pir
  deriving DecidableEq, Repr

/-- All ten registers, in the order of 20_memory R51. -/
def Reg.all : List Reg := [.cr, .sr, .fcr, .dlr, .ccr, .ar, .dr, .psmkr, .psmar, .pir]

/-- The 18 flash opcodes (30_encoding R90). -/
inductive FlashCmd
  | rsten | rst | wren | wrdi | wrreg | rdsr | rdfsr | rdcfg | fread | rdid | pp | sse | be
  | esus | eres | dslp | wake | qen
  deriving DecidableEq, Repr

/-- All 18 flash opcodes, in the order of 30_encoding R90. -/
def FlashCmd.all : List FlashCmd :=
  [.rsten, .rst, .wren, .wrdi, .wrreg, .rdsr, .rdfsr, .rdcfg, .fread, .rdid, .pp, .sse, .be,
   .esus, .eres, .dslp, .wake, .qen]

/-- The direction of a register operation, with the value a write carries (30_encoding R80). A write's value is given by its low
32 bits: no rule uses more (log 19). -/
inductive Access
  | read
  | write (v : Word)
  deriving DecidableEq, Repr

/-- The instructions: host register operations (`w` is the access width in bytes, `v` the value written), reserved offsets,
and flash commands with the bytes of the frame that follow the opcode and belong to the command (00_scope R15). -/
inductive Instr
  /-- Control write (41 R121). -/
  | w32Cr (w : Nat) (v : Word)
  /-- Control read (41 R123). -/
  | r32Cr (w : Nat)
  /-- Status write (41 R125). -/
  | w32Sr (w : Nat) (v : Word)
  /-- Status read (41 R124). -/
  | r32Sr (w : Nat)
  /-- Flag-Clear write (41 R126). -/
  | w32Fcr (w : Nat) (v : Word)
  /-- Flag-Clear read (41 R127). -/
  | r32Fcr (w : Nat)
  /-- Data-Length write (41 R128). -/
  | w32Dlr (w : Nat) (v : Word)
  /-- Data-Length read (41 R129). -/
  | r32Dlr (w : Nat)
  /-- Command-Configuration write (41 R130). -/
  | w32Ccr (w : Nat) (v : Word)
  /-- Command-Configuration read (41 R131). -/
  | r32Ccr (w : Nat)
  /-- Address write (41 R132). -/
  | w32Ar (w : Nat) (v : Word)
  /-- Address read (41 R133). -/
  | r32Ar (w : Nat)
  /-- Data write (41 R134). -/
  | w8Dr (w : Nat) (v : Word)
  /-- Data read (41 R135). -/
  | r8Dr (w : Nat)
  /-- Polling mask write (41 R136). -/
  | w32Psmkr (w : Nat) (v : Word)
  /-- Polling mask read (41 R139). -/
  | r32Psmkr (w : Nat)
  /-- Polling match write (41 R137). -/
  | w32Psmar (w : Nat) (v : Word)
  /-- Polling match read (41 R139). -/
  | r32Psmar (w : Nat)
  /-- Polling interval write (41 R138). -/
  | w32Pir (w : Nat) (v : Word)
  /-- Polling interval read (41 R139). -/
  | r32Pir (w : Nat)
  /-- Access at a reserved offset below 0x1C (20_memory R52; log 11). -/
  | reserved04 (a : Access) (off w : Nat)
  /-- Access at a reserved offset from 0x1C to below 0x30 (20_memory R52; log 11). -/
  | reserved1C (a : Access) (off w : Nat)
  /-- Access at a reserved offset from 0x30 (20_memory R52; log 11). -/
  | reserved30 (a : Access) (off w : Nat)
  /-- Reset-Enable (43 R181). -/
  | rsten
  /-- Reset (43 R182). -/
  | rst
  /-- Write-Enable (43 R183). -/
  | wren
  /-- Write-Disable (43 R184). -/
  | wrdi
  /-- Write-Register and its data byte (43 R185). -/
  | wrreg (ops : List Byte)
  /-- Read-Register, status, and the byte exchanged for it (43 R186). -/
  | rdsr (ops : List Byte)
  /-- Read-Register, flag-status, and the byte exchanged for it (43 R187). -/
  | rdfsr (ops : List Byte)
  /-- Read-Register, configuration, and the byte exchanged for it (43 R188). -/
  | rdcfg (ops : List Byte)
  /-- Fast-Read: address, dummy bytes, bytes exchanged for data (43 R189). -/
  | fread (ops : List Byte)
  /-- Read-Identification and the bytes exchanged for it (43 R190). -/
  | rdid (ops : List Byte)
  /-- Page-Program: address and data bytes (43 R191). -/
  | pp (ops : List Byte)
  /-- Erase-Subsector and its address bytes (43 R192). -/
  | sse (ops : List Byte)
  /-- Erase-Block and its address bytes (43 R193). -/
  | be (ops : List Byte)
  /-- Erase-Suspend (43 R194). -/
  | esus
  /-- Erase-Resume (43 R195). -/
  | eres
  /-- Deep-Sleep (43 R196). -/
  | dslp
  /-- Wake (43 R197). -/
  | wake
  /-- Quad-Enable (43 R198). -/
  | qen
  /-- Any other byte decoded as an opcode (43 R199). -/
  | unknown (b : Byte)
  deriving DecidableEq, Repr

/-- A register operation as it reaches the window: direction and value, byte offset, width in bytes (30_encoding R80). -/
structure RegAccess where
  acc : Access
  off : Nat
  width : Nat
  deriving DecidableEq, Repr

/-- An encoded instruction, in one of the two encoding spaces of 30_encoding R80: a register operation, or bytes of a frame. -/
inductive Code
  | access (a : RegAccess)
  | frame (bs : List Byte)
  deriving DecidableEq, Repr

end Sys2Proof
end

