-- ==== Sys2Proof/Config.lean ====
section
/-! DEFINITION. The configuration record of 00_scope R8 and R9, its defaults, and the free values (00_scope R12 UNSPECIFIED). -/

namespace Sys2Proof

/-- Byte offsets of the ten registers (00_scope R8). -/
structure RegOffsets where
  cr : Nat
  sr : Nat
  fcr : Nat
  dlr : Nat
  ccr : Nat
  ar : Nat
  dr : Nat
  psmkr : Nat
  psmar : Nat
  pir : Nat
  deriving DecidableEq, Repr

/-- The 18 opcode bytes (00_scope R9). -/
structure Opcodes where
  rsten : Byte
  rst : Byte
  wren : Byte
  wrdi : Byte
  wrreg : Byte
  rdsr : Byte
  rdfsr : Byte
  rdcfg : Byte
  fread : Byte
  rdid : Byte
  pp : Byte
  sse : Byte
  be : Byte
  esus : Byte
  eres : Byte
  dslp : Byte
  wake : Byte
  qen : Byte
  deriving DecidableEq, Repr

/-- Bit positions of the register fields (00_scope R8): the lowest bit of each field of CR, SR, DLR, CCR and PIR (30_encoding R82,
R83, R85, R86, R88). FCR has the bit numbers of SR (30 R84). -/
structure FieldBits where
  crEn : Nat
  crAbort : Nat
  crApms : Nat
  crPmm : Nat
  srTef : Nat
  srTcf : Nat
  srSmf : Nat
  srTof : Nat
  srBusy : Nat
  dlr : Nat
  instruction : Nat
  imode : Nat
  admode : Nat
  adsize : Nat
  abmode : Nat
  absize : Nat
  dcyc : Nat
  dmode : Nat
  fmode : Nat
  pir : Nat
  deriving DecidableEq, Repr

/-- The configuration `Cfg` of 00_scope R8 and R9. `initialImage` lists the bytes of INITIAL_IMAGE that are not 0xFF (log 13);
`pollBudgets` lists the Interval values, each with its POLL_BUDGET, whose budget is not the default (log 2). -/
structure Cfg where
  regBase : Nat
  regWindowLen : Nat
  mmapBase : Nat
  mmapLen : Nat
  offs : RegOffsets
  ops : Opcodes
  fillerByte : Byte
  defaultMiso : Byte
  quirkInstruction : Byte
  quirkDcyc : Nat
  quirkBytes : Nat
  bits : FieldBits
  pollResponseBytes : Nat
  pollBudgets : List (Nat × Nat)
  dlrBits : Nat
  pirBits : Nat
  capacity : Nat
  pageSize : Nat
  subsectorSize : Nat
  blockSize : Nat
  addrBytes : Nat
  fastReadDummy : Nat
  id0 : Byte
  id1 : Byte
  id2 : Byte
  srBusyBit : Nat
  srWelBit : Nat
  fsrEsBit : Nat
  fsrReset : Byte
  cfgReset : Byte
  hasBacking : Bool
  initialImage : List Host.Cell
  deriving DecidableEq, Repr

/-- The defaults of 00_scope R8 and R9. REG_BASE, MMAP_BASE, MMAP_LEN, HAS_BACKING and INITIAL_IMAGE are OPEN in the spec: the
values here are DESIGN CHOICE (log 3); HAS_BACKING true with an image of all 0xFF is the convention of 95_test_vectors. -/
def Cfg.default : Cfg where
  regBase := 0
  regWindowLen := 0x34
  mmapBase := 0x1000000
  mmapLen := 0x1000000
  offs := { cr := 0x00, sr := 0x08, fcr := 0x0C, dlr := 0x10, ccr := 0x14, ar := 0x18, dr := 0x20,
            psmkr := 0x24, psmar := 0x28, pir := 0x2C }
  ops := { rsten := 0x66, rst := 0x99, wren := 0x06, wrdi := 0x04, wrreg := 0x61, rdsr := 0x05,
           rdfsr := 0x70, rdcfg := 0x65, fread := 0x0B, rdid := 0x9F, pp := 0x02, sse := 0x20,
           be := 0xD8, esus := 0x75, eres := 0x7A, dslp := 0xB9, wake := 0xAB, qen := 0x35 }
  fillerByte := 0x00
  defaultMiso := 0x00
  quirkInstruction := 0xEB
  quirkDcyc := 6
  quirkBytes := 1
  bits := { crEn := 0, crAbort := 1, crApms := 22, crPmm := 23, srTef := 0, srTcf := 1, srSmf := 3, srTof := 4, srBusy := 5,
            dlr := 0, instruction := 0, imode := 8, admode := 10, adsize := 12, abmode := 14, absize := 16, dcyc := 18,
            dmode := 24, fmode := 26, pir := 0 }
  pollResponseBytes := 4
  pollBudgets := []
  dlrBits := 32
  pirBits := 16
  capacity := 0x1000000
  pageSize := 256
  subsectorSize := 4096
  blockSize := 65536
  addrBytes := 3
  fastReadDummy := 8
  id0 := 0x20
  id1 := 0xBA
  id2 := 0x18
  srBusyBit := 0
  srWelBit := 1
  fsrEsBit := 6
  fsrReset := 0x00
  cfgReset := 0x00
  hasBacking := true
  initialImage := []

/-- The byte offset of a register (20_memory R51). -/
def Cfg.offset (c : Cfg) : Reg → Nat
  | .cr => c.offs.cr
  | .sr => c.offs.sr
  | .fcr => c.offs.fcr
  | .dlr => c.offs.dlr
  | .ccr => c.offs.ccr
  | .ar => c.offs.ar
  | .dr => c.offs.dr
  | .psmkr => c.offs.psmkr
  | .psmar => c.offs.psmar
  | .pir => c.offs.pir

/-- The opcode byte of a flash command (30_encoding R90). -/
def Cfg.opByte (c : Cfg) : FlashCmd → Byte
  | .rsten => c.ops.rsten
  | .rst => c.ops.rst
  | .wren => c.ops.wren
  | .wrdi => c.ops.wrdi
  | .wrreg => c.ops.wrreg
  | .rdsr => c.ops.rdsr
  | .rdfsr => c.ops.rdfsr
  | .rdcfg => c.ops.rdcfg
  | .fread => c.ops.fread
  | .rdid => c.ops.rdid
  | .pp => c.ops.pp
  | .sse => c.ops.sse
  | .be => c.ops.be
  | .esus => c.ops.esus
  | .eres => c.ops.eres
  | .dslp => c.ops.dslp
  | .wake => c.ops.wake
  | .qen => c.ops.qen

/-- The bits of the configuration that 00_scope R10 constrains, INITIAL_IMAGE apart: sizes that divide one another, a capacity
three address bytes reach, distinct opcodes, a filler that is no opcode, distinct aligned offsets inside the window, polling budgets
of at least 1. -/
def Cfg.shapeOk (c : Cfg) : Bool :=
  decide (0 < c.capacity) && decide (c.capacity ≤ 2 ^ 24) &&
  decide (c.capacity % c.blockSize = 0) && decide (c.blockSize % c.subsectorSize = 0) &&
  decide (c.subsectorSize % c.pageSize = 0) &&
  decide ((FlashCmd.all.map c.opByte).Nodup) &&
  FlashCmd.all.all (fun k => c.opByte k != c.fillerByte) &&
  decide ((Reg.all.map c.offset).Nodup) &&
  Reg.all.all (fun r => decide (c.offset r % 4 = 0) && decide (c.offset r < c.regWindowLen)) &&
  c.pollBudgets.all (fun p => decide (1 ≤ p.2))

/-- What two of the invariants presume of a configuration beyond R10 (log 23): busy and write-enabled are two bits of the status
register, and an addressed command has an address byte. The defaults meet it; construction does not ask for it. -/
def Cfg.layoutOk (c : Cfg) : Bool := decide (c.srBusyBit ≠ c.srWelBit) && decide (1 ≤ c.addrBytes)

/-- `UNSPECIFIED(n)` of 00_scope R12: the value of the `k`-th draw at `n` bits. It has no body, so nothing can be proved of its
value (93 U1 to U4; log 5). -/
opaque Config.unspecified : (k n : Nat) → BitVec n

end Sys2Proof
end

