-- ==== Sys2Proof/WellFormed.lean ====
section
/-! DEFINITION. Which instructions are well formed under a configuration: the operands an encoding admits (30_encoding R81, R89). -/

namespace Sys2Proof

/-- How many bytes after the opcode belong to a command at most (30_encoding R89, the address with ADDR_BYTES bytes); `none`: every
byte up to the deselect. -/
def FlashCmd.operandLimit (c : Cfg) : FlashCmd → Option Nat
  | .rsten | .rst | .wren | .wrdi | .esus | .eres | .dslp | .wake | .qen => some 0
  | .wrreg | .rdsr | .rdfsr | .rdcfg => some 1
  | .sse | .be => some c.addrBytes
  | .rdid => some 3
  | .fread | .pp => none

/-- An offset inside the window that is not the first byte of a register (20_memory R52). -/
def reservedOffset (c : Cfg) (off : Nat) : Bool :=
  decide (off < c.regWindowLen) && Reg.all.all (fun r => c.offset r != off)

/-- At most as many operand bytes as the command's format has (30_encoding R89). -/
def operandsOk (c : Cfg) (k : FlashCmd) (ops : List Byte) : Bool :=
  match k.operandLimit c with
  | some n => decide (ops.length ≤ n)
  | none => true

/-- A byte that is none of the 18 opcodes (30_encoding R97). -/
def unknownOpcode (c : Cfg) (b : Byte) : Bool := FlashCmd.all.all (fun k => c.opByte k != b)

/-- The well-formed instructions. A register operation is one at any width: a width that is not the register's is the operation's
own business (41 R120 check 2). -/
def WellFormed (c : Cfg) : Instr → Bool
  | .w32Cr _ _ | .w32Sr _ _ | .w32Fcr _ _ | .w32Dlr _ _ | .w32Ccr _ _ | .w32Ar _ _ | .w8Dr _ _
  | .w32Psmkr _ _ | .w32Psmar _ _ | .w32Pir _ _ => true
  | .r32Cr _ | .r32Sr _ | .r32Fcr _ | .r32Dlr _ | .r32Ccr _ | .r32Ar _ | .r8Dr _
  | .r32Psmkr _ | .r32Psmar _ | .r32Pir _ => true
  | .reserved04 _ off _ => reservedOffset c off && decide (off < 0x1C)
  | .reserved1C _ off _ => reservedOffset c off && decide (0x1C ≤ off) && decide (off < 0x30)
  | .reserved30 _ off _ => reservedOffset c off && decide (0x30 ≤ off)
  | .rsten | .rst | .wren | .wrdi | .esus | .eres | .dslp | .wake | .qen => true
  | .wrreg ops => operandsOk c .wrreg ops
  | .rdsr ops => operandsOk c .rdsr ops
  | .rdfsr ops => operandsOk c .rdfsr ops
  | .rdcfg ops => operandsOk c .rdcfg ops
  | .fread ops => operandsOk c .fread ops
  | .rdid ops => operandsOk c .rdid ops
  | .pp ops => operandsOk c .pp ops
  | .sse ops => operandsOk c .sse ops
  | .be ops => operandsOk c .be ops
  | .unknown b => unknownOpcode c b

end Sys2Proof
end

