-- ==== Sys2Proof/Decode.lean ====
section
/-! DEFINITION. The decoder, total on both encoding spaces of 30_encoding R80, and the encoder. -/

namespace Sys2Proof

/-- Why the decoder rejects. -/
inductive DecodeError
  /-- The offset lies outside the register window (20_memory R51). -/
  | offsetOutsideWindow (off : Nat)
  /-- A frame with no byte left. -/
  | emptyFrame
  deriving DecidableEq, Repr

/-- The register whose first byte stands at an offset (20_memory R51). -/
def registerAt (c : Cfg) (off : Nat) : Option Reg := Reg.all.find? (fun r => c.offset r == off)

/-- The flash command an opcode byte names (30_encoding R90). -/
def flashCmdOf (c : Cfg) (b : Byte) : Option FlashCmd := FlashCmd.all.find? (fun k => c.opByte k == b)

/-- The write of a register. -/
def regWriteInstr (w : Nat) (v : Word) : Reg → Instr
  | .cr => .w32Cr w v
  | .sr => .w32Sr w v
  | .fcr => .w32Fcr w v
  | .dlr => .w32Dlr w v
  | .ccr => .w32Ccr w v
  | .ar => .w32Ar w v
  | .dr => .w8Dr w v
  | .psmkr => .w32Psmkr w v
  | .psmar => .w32Psmar w v
  | .pir => .w32Pir w v

/-- The read of a register. -/
def regReadInstr (w : Nat) : Reg → Instr
  | .cr => .r32Cr w
  | .sr => .r32Sr w
  | .fcr => .r32Fcr w
  | .dlr => .r32Dlr w
  | .ccr => .r32Ccr w
  | .ar => .r32Ar w
  | .dr => .r8Dr w
  | .psmkr => .r32Psmkr w
  | .psmar => .r32Psmar w
  | .pir => .r32Pir w

/-- An access at an offset that holds no register: the three reserved rows share these offsets out by range (log 11). -/
def reservedInstr (a : Access) (off w : Nat) : Instr :=
  if off < 0x1C then .reserved04 a off w
  else if off < 0x30 then .reserved1C a off w
  else .reserved30 a off w

/-- Decoding in the host space: the offset and the direction select the row, whatever the width (30_encoding R80, R81, 20_memory R52). -/
def decodeAccess (c : Cfg) (a : RegAccess) : Except DecodeError Instr :=
  if c.regWindowLen ≤ a.off then .error (.offsetOutsideWindow a.off)
  else match registerAt c a.off with
    | some r =>
      match a.acc with
      | .read => .ok (regReadInstr a.width r)
      | .write v => .ok (regWriteInstr a.width v r)
    | none => .ok (reservedInstr a.acc a.off a.width)

/-- A flash command with its operand bytes; a one-byte command drops the (empty) list. -/
def flashInstr (ops : List Byte) : FlashCmd → Instr
  | .rsten => .rsten
  | .rst => .rst
  | .wren => .wren
  | .wrdi => .wrdi
  | .wrreg => .wrreg ops
  | .rdsr => .rdsr ops
  | .rdfsr => .rdfsr ops
  | .rdcfg => .rdcfg ops
  | .fread => .fread ops
  | .rdid => .rdid ops
  | .pp => .pp ops
  | .sse => .sse ops
  | .be => .be ops
  | .esus => .esus
  | .eres => .eres
  | .dslp => .dslp
  | .wake => .wake
  | .qen => .qen

/-- The operand bytes of a command, and the bytes of the frame after it (30_encoding R89, R98). -/
def splitOperands (c : Cfg) (k : FlashCmd) (bs : List Byte) : List Byte × List Byte :=
  match k.operandLimit c with
  | some n => (bs.take n, bs.drop n)
  | none => (bs, [])

/-- Decoding in the flash space: the first byte, taken in Idle, is the opcode; the rest of the frame follows (30_encoding R80,
R97, R98). -/
def decodeFrame (c : Cfg) : List Byte → Except DecodeError (Instr × List Byte)
  | [] => .error .emptyFrame
  | b :: bs =>
    match flashCmdOf c b with
    | some k => .ok (flashInstr (splitOperands c k bs).1 k, (splitOperands c k bs).2)
    | none => .ok (.unknown b, bs)

/-- The decoder: an instruction, and what is left of the frame it was read from. -/
def decode (c : Cfg) : Code → Except DecodeError (Instr × List Byte)
  | .access a =>
    match decodeAccess c a with
    | .ok i => .ok (i, [])
    | .error e => .error e
  | .frame bs => decodeFrame c bs

/-- The write of register `r` as a register operation. -/
def writeCode (c : Cfg) (r : Reg) (w : Nat) (v : Word) : Code :=
  .access { acc := .write v, off := c.offset r, width := w }

/-- The read of register `r` as a register operation. -/
def readCode (c : Cfg) (r : Reg) (w : Nat) : Code :=
  .access { acc := .read, off := c.offset r, width := w }

/-- A flash command as bytes of a frame. -/
def flashCode (c : Cfg) (k : FlashCmd) (ops : List Byte) : Code := .frame (c.opByte k :: ops)

/-- The encoder. -/
def encode (c : Cfg) : Instr → Code
  | .w32Cr w v => writeCode c .cr w v
  | .r32Cr w => readCode c .cr w
  | .w32Sr w v => writeCode c .sr w v
  | .r32Sr w => readCode c .sr w
  | .w32Fcr w v => writeCode c .fcr w v
  | .r32Fcr w => readCode c .fcr w
  | .w32Dlr w v => writeCode c .dlr w v
  | .r32Dlr w => readCode c .dlr w
  | .w32Ccr w v => writeCode c .ccr w v
  | .r32Ccr w => readCode c .ccr w
  | .w32Ar w v => writeCode c .ar w v
  | .r32Ar w => readCode c .ar w
  | .w8Dr w v => writeCode c .dr w v
  | .r8Dr w => readCode c .dr w
  | .w32Psmkr w v => writeCode c .psmkr w v
  | .r32Psmkr w => readCode c .psmkr w
  | .w32Psmar w v => writeCode c .psmar w v
  | .r32Psmar w => readCode c .psmar w
  | .w32Pir w v => writeCode c .pir w v
  | .r32Pir w => readCode c .pir w
  | .reserved04 a off w => .access { acc := a, off := off, width := w }
  | .reserved1C a off w => .access { acc := a, off := off, width := w }
  | .reserved30 a off w => .access { acc := a, off := off, width := w }
  | .rsten => flashCode c .rsten []
  | .rst => flashCode c .rst []
  | .wren => flashCode c .wren []
  | .wrdi => flashCode c .wrdi []
  | .wrreg ops => flashCode c .wrreg ops
  | .rdsr ops => flashCode c .rdsr ops
  | .rdfsr ops => flashCode c .rdfsr ops
  | .rdcfg ops => flashCode c .rdcfg ops
  | .fread ops => flashCode c .fread ops
  | .rdid ops => flashCode c .rdid ops
  | .pp ops => flashCode c .pp ops
  | .sse ops => flashCode c .sse ops
  | .be ops => flashCode c .be ops
  | .esus => flashCode c .esus []
  | .eres => flashCode c .eres []
  | .dslp => flashCode c .dslp []
  | .wake => flashCode c .wake []
  | .qen => flashCode c .qen []
  | .unknown b => .frame [b]

/-- The bytes of a table word, bit 0 the least significant bit of the first byte; 13 bytes are an opcode, an address, the
default dummy bytes and one data byte. -/
def tableBytes (nbits w : Nat) : List Byte :=
  (List.range 13).map (fun i => BitVec.ofNat 8 ((w % 2 ^ nbits) >>> (8 * i)))

/-- A word of spec/opcode_table.json as code. A row gives one byte only, a register offset or an opcode, and neither its space nor
its direction: a byte that is an opcode is read as a frame, else an offset of the window is read as a write of the register's
own width, else the byte is an unknown opcode (DESIGN CHOICE, log 8). -/
def tableCode (c : Cfg) (nbits w : Nat) : Code :=
  let bs := tableBytes nbits w
  let b := bs.headD 0
  if (flashCmdOf c b).isSome then .frame bs
  else if b.toNat < c.regWindowLen then
    .access { acc := .write (BitVec.ofNat 32 ((w % 2 ^ nbits) >>> 8)), off := b.toNat,
              width := if registerAt c b.toNat = some .dr then 1 else 4 }
  else .frame [b]

/-- The instruction the decoder reads from a word of the opcode table, under the default configuration. -/
def decodeTableWord (nbits w : Nat) : Option Instr :=
  match decode Cfg.default (tableCode Cfg.default nbits w) with
  | .ok (i, _) => some i
  | .error _ => none

end Sys2Proof
end

