-- ==== Sys2Proof/Machine/State.lean ====
section
/-! DEFINITION. The state of the core as plain data (10_state), the diagnostics (60_exceptions R252), the reasons a step can stop,
and the state after construction. -/

namespace Sys2Proof.Machine

/-- Sparse bytes: (address, byte) pairs with rising addresses; an unlisted address reads as 0xFF, the erased-flash value of
20_memory R72, and no listed byte is 0xFF (log 13). -/
abbrev Memory := List Host.Cell

/-- The host controller `H` (10_state R22 to R30). -/
structure HostCtl where
  /-- "enable" (R22). -/
  en : Bool
  /-- "polling-stop-on-match" (R22). -/
  apms : Bool
  /-- "auto-polling-match-mode" (R22). -/
  pmm : Bool
  /-- "transfer-error" (R23, R274). -/
  tef : Bool
  /-- "transfer-complete" (R23). -/
  tcf : Bool
  /-- "status-match" (R23). -/
  smf : Bool
  /-- "timeout" (R23). -/
  tof : Bool
  /-- A transaction is in flight (R24). -/
  busy : Bool
  /-- Data-Length, DLR_BITS bits of it in use (R25). -/
  dlr : Word
  /-- The latched Command-Configuration value (R26). -/
  ccr : Word
  /-- The latched address (R27). -/
  ar : Word
  /-- Polling mask (R28). -/
  psmkr : Word
  /-- Polling match (R28). -/
  psmar : Word
  /-- Polling interval, PIR_BITS bits of it in use (R28). -/
  pir : Word
  /-- Receive FIFO, oldest first (R29). -/
  fifo : List Byte
  /-- Data-register writes the open indirect-write transaction still needs (R30). -/
  txLeft : Nat
  deriving DecidableEq, Repr

/-- One event on the link (40 R116). -/
inductive LinkEvent
  /-- `CS+` or `CS-`. -/
  | cs (level : Bool)
  /-- One exchange: the host's byte and the device's. -/
  | xfer (out inp : Byte)
  deriving DecidableEq, Repr

/-- The link `L` (10_state R31). -/
structure Link where
  /-- The level of chip-select, true: the device is selected. -/
  cs : Bool
  /-- Every link event since construction, oldest first; nothing reads it (40 R116). -/
  trace : List LinkEvent
  deriving DecidableEq, Repr

/-- The parser states (10_state R32). -/
inductive PState
  | idle
  | collectingCommandData
  | writing
  | reading
  | readingIdentification
  | readingRegister
  deriving DecidableEq, Repr

/-- The flash device `F` (10_state R32 to R42). -/
structure Flash where
  /-- Parser state (R32). -/
  pstate : PState
  /-- Command-in-progress opcode (R33). -/
  cmd : Byte
  /-- Byte position inside the command (R34). -/
  pos : Nat
  /-- Pending address accumulator (R34). -/
  acc : Addr24
  /-- Current streaming address, without bound (R35). -/
  cur : Nat
  /-- Status register: bit 0 busy, bit 1 write-enabled (R36). -/
  sr : Byte
  /-- One-shot post-read clear mask (R37). -/
  srClear : Byte
  /-- Flag-status register: bit 6 erase-suspended (R38). -/
  fsr : Byte
  /-- Configuration register, the spec's `F.cfg` (R39). -/
  cfgReg : Byte
  /-- One-shot reset-armed latch (R40). -/
  resetArmed : Bool
  /-- The storage array (R41). -/
  storage : Memory
  /-- Dirty page index (R42). -/
  dirty : Option Nat
  deriving DecidableEq, Repr

/-- A pending write of the backing queue (10_state R43): `len` bytes for offset `off`, a copy taken when it was queued. `data`
lists those of them that are not 0xFF, by storage address (log 13). -/
structure PendingWrite where
  off : Nat
  len : Nat
  data : Memory
  deriving DecidableEq, Repr

/-- The backing `B` (10_state R43). -/
structure Backing where
  /-- The durable copy; without a backing it is never read or written (log 15). -/
  image : Memory
  /-- Writes issued and not yet applied, oldest first. -/
  queue : List PendingWrite
  deriving DecidableEq, Repr

/-- A diagnostic record `(name, info)` (60_exceptions R252). -/
inductive Diagnostic
  | accessWidth (off width : Nat)
  | triggerConsistency (ccr : Word)
  | alternateBytesUnsupported (ccr : Word)
  | unarmedReset
  | hostBusyWrite (off : Nat)
  | dataWriteNoTransaction (b : Byte)
  | fifoUnderflow
  | reservedOffset (off : Nat)
  | mmapWindowAccess (addr : Nat)
  | writeReadOnly (off : Nat)
  | unknownOpcode (b : Byte)
  | writeOutOfBounds (addr : Nat) (b : Byte)
  | eraseOutOfBounds (addr : Nat)
  | bitSetAttempt (addr : Nat) (c b : Byte)
  deriving DecidableEq, Repr

/-- A bus access at an absolute address (20_memory R51, R53). -/
structure BusAccess where
  acc : Access
  addr : Nat
  width : Nat
  deriving DecidableEq, Repr

/-- What can reach the core from outside, one a step (00_scope R3 to R5, 30_encoding R99; log 4). -/
inductive Input
  /-- A register operation at a window offset, or bytes of a frame driven at device level. -/
  | code (c : Code)
  /-- A bus access at an absolute address. -/
  | bus (a : BusAccess)
  /-- `CS+` or `CS-` driven at device level. -/
  | select (level : Bool)
  /-- Platform system reset (70 R283). -/
  | systemReset
  /-- Platform call of `before_snapshot()` (44 R232). -/
  | snapshot
  /-- One step of the write-back agent (44 R233). -/
  | writeBack
  deriving DecidableEq, Repr

/-- The state of the core: `h`, `l`, `f`, `b` and `diag` are the spec's; `cfg`, `inbox`, `rdata` and `draws` are the model's own
(logs 1, 4, 6, 5). -/
structure State where
  cfg : Cfg
  h : HostCtl
  l : Link
  f : Flash
  b : Backing
  /-- The diagnostic log, oldest first (10_state R44). -/
  diag : List Diagnostic
  /-- Inputs not yet taken, the next one first. -/
  inbox : List Input
  /-- The value the last register read returned, as a number of its access width (00_scope R16). -/
  rdata : Nat
  /-- How many UNSPECIFIED values have been drawn. -/
  draws : Nat
  deriving DecidableEq, Repr

/-- Why a step faults. -/
inductive Fault
  /-- Raised by the fetch for a bus access or register operation at an address in neither window of the core: the spec gives the
  core no such address (20_memory R50, R51, R53). Safe: the model stops where the core is not addressed at all (log 12). -/
  | addressNotDecoded (addr : Nat)
  deriving DecidableEq, Repr

/-- Why the model refuses. -/
inductive Refusal
  /-- Raised by exec's arm of an instruction that has no meaning yet. Safe. -/
  | notModelled (mnemonic : String)
  /-- Raised where an `Xfer` would run with chip-select deasserted: a flash command or a byte driven at device level, and a byte write
  to DR after a device-level `CS-` into the open indirect write. "An `Xfer` with chip-select deasserted is outside the contract: a
  model refuses it" (92 D44; 40 R114, 93 U6; log 10). Safe. -/
  | chipSelectDeasserted
  /-- Raised by construction with a configuration that breaks 00_scope R10 or 20_memory R72 (93 U7, U8). Safe. -/
  | badConfiguration
  deriving DecidableEq, Repr

/-- `H` after construction and after system reset (10_state R47). -/
def HostCtl.reset : HostCtl where
  en := false
  apms := false
  pmm := false
  tef := false
  tcf := false
  smf := false
  tof := false
  busy := false
  dlr := 0
  ccr := 0
  ar := 0
  psmkr := 0
  psmar := 0
  pir := 0
  fifo := []
  txLeft := 0

/-- The state `Construct(Cfg)` leaves (70 R280, 10_state R47): without a backing every storage byte is 0xFF, with one storage and
image are INITIAL_IMAGE. -/
def State.construct (c : Cfg) : State where
  cfg := c
  h := HostCtl.reset
  l := { cs := false, trace := [] }
  f := { pstate := .idle, cmd := 0, pos := 0, acc := 0, cur := 0, sr := 0, srClear := 0,
         fsr := c.fsrReset, cfgReg := c.cfgReset, resetArmed := false,
         storage := if c.hasBacking then c.initialImage else [], dirty := none }
  b := { image := if c.hasBacking then c.initialImage else [], queue := [] }
  diag := []
  inbox := []
  rdata := 0
  draws := 0

/-- The machine after power-on under the default configuration. -/
def State.reset : State := State.construct Cfg.default

end Sys2Proof.Machine
end

