-- ==== Sys2Proof/Machine/Ops.lean ====
section
/-! DEFINITION. The named operations over the state: field updates, memory, raising a diagnostic (the analogue of taking an
exception), UNSPECIFIED reads, the dirty page and the write-back queue, the register-access checks. -/

namespace Sys2Proof.Machine

/-! ### Updates of one block of the state -/

/-- Update the host controller. -/
def State.mapH (s : State) (g : HostCtl → HostCtl) : State := { s with h := g s.h }

/-- Update the link. -/
def State.mapL (s : State) (g : Link → Link) : State := { s with l := g s.l }

/-- Update the flash device. -/
def State.mapF (s : State) (g : Flash → Flash) : State := { s with f := g s.f }

/-- Update the backing. -/
def State.mapB (s : State) (g : Backing → Backing) : State := { s with b := g s.b }

/-- Replace the pending inputs. -/
def State.withInbox (s : State) (is : List Input) : State := { s with inbox := is }

/-- Set the value the current register read returns. -/
def State.returning (s : State) (v : Nat) : State := { s with rdata := v }

/-! ### Diagnostics -/

/-- `raise`: append the record and go on (00_scope R13, 60 R250). It saves no state, changes no mode and transfers no control
(60 R272), so there is no return from it (60 R273). -/
def raise (d : Diagnostic) (s : State) : State := { s with diag := s.diag ++ [d] }

/-- The classes of 60 R251: fatal in the reference, logged, warning. -/
inductive DiagClass
  | classF
  | classL
  | classW
  deriving DecidableEq, Repr

/-- The class of a diagnostic (60 R252). -/
def Diagnostic.cls : Diagnostic → DiagClass
  | .accessWidth _ _ => .classF
  | .triggerConsistency _ => .classF
  | .alternateBytesUnsupported _ => .classF
  | .unarmedReset => .classF
  | .hostBusyWrite _ => .classL
  | .dataWriteNoTransaction _ => .classL
  | .fifoUnderflow => .classL
  | .reservedOffset _ => .classL
  | .mmapWindowAccess _ => .classL
  | .writeReadOnly _ => .classL
  | .unknownOpcode _ => .classL
  | .writeOutOfBounds _ _ => .classL
  | .eraseOutOfBounds _ => .classL
  | .bitSetAttempt _ _ _ => .classW

/-- The code of a diagnostic (60 R252). -/
def Diagnostic.code : Diagnostic → Nat
  | .accessWidth _ _ => 1
  | .triggerConsistency _ => 2
  | .alternateBytesUnsupported _ => 3
  | .unarmedReset => 4
  | .hostBusyWrite _ => 5
  | .dataWriteNoTransaction _ => 6
  | .fifoUnderflow => 7
  | .reservedOffset _ => 8
  | .mmapWindowAccess _ => 9
  | .writeReadOnly _ => 10
  | .unknownOpcode _ => 11
  | .writeOutOfBounds _ _ => 12
  | .eraseOutOfBounds _ => 13
  | .bitSetAttempt _ _ _ => 14

/-! ### Free values -/

/-- A read of `w` bytes that returns `UNSPECIFIED(8 * w)`: the next free value (00_scope R12; log 5). -/
def readUnspecified (w : Nat) (s : State) : State :=
  { s with rdata := (Config.unspecified s.draws (8 * w)).toNat, draws := s.draws + 1 }

/-- The value part of an access that is refused: a read returns UNSPECIFIED, a write returns nothing (41 R120). -/
def refusedAccess (a : Access) (w : Nat) (s : State) : State :=
  match a with
  | .read => readUnspecified w s
  | .write _ => s

/-! ### Memory -/

/-- The byte at an address; an unlisted address reads as 0xFF (20_memory R72). -/
def Memory.read : Memory → Nat → Byte
  | [], _ => 0xFF#8
  | (k, v) :: m, a => if k = a then v else Memory.read m a

/-- Store one byte, keeping the canonical form. -/
def Memory.write : Memory → Nat → Byte → Memory
  | [], a, b => if b = 0xFF#8 then [] else [(a, b)]
  | (k, v) :: m, a, b =>
    if a < k then (if b = 0xFF#8 then (k, v) :: m else (a, b) :: (k, v) :: m)
    else if a = k then (if b = 0xFF#8 then m else (a, b) :: m)
    else (k, v) :: Memory.write m a b

/-- The listed bytes of a region. -/
def Memory.slice (m : Memory) (off len : Nat) : Memory :=
  m.filter (fun c => decide (off ≤ c.1) && decide (c.1 < off + len))

/-- Replace a whole region by `data`, which lists bytes of that region only: `MemWrite` of 20_memory R63. -/
def Memory.splice (m : Memory) (off len : Nat) (data : Memory) : Memory :=
  m.filter (fun c => decide (c.1 < off)) ++ data ++ m.filter (fun c => decide (off + len ≤ c.1))

/-- Fill a region with 0xFF (43 R202). -/
def Memory.fillErased (m : Memory) (off len : Nat) : Memory := m.splice off len []

/-- The bytes of a region, in order. -/
def Memory.bytes (m : Memory) (off len : Nat) : List Byte := (List.range len).map (fun i => m.read (off + i))

/-- The canonical form: addresses strictly rising, no byte equal to what an unlisted address reads as. -/
def Memory.wf (m : Memory) : Bool :=
  decide (m.Pairwise (fun x y => x.1 < y.1)) && m.all (fun c => c.2 != 0xFF#8)

/-- Every listed address is below `n`. -/
def Memory.below (m : Memory) (n : Nat) : Bool := m.all (fun c => decide (c.1 < n))

/-- Every listed address lies in a region. -/
def Memory.inside (m : Memory) (off len : Nat) : Bool :=
  m.all (fun c => decide (off ≤ c.1) && decide (c.1 < off + len))

/-- `MemRead(a, n)`: `n` bytes of storage from `a`, each index modulo CAPACITY (20_memory R63). -/
def storageRead (s : State) (a n : Nat) : List Byte :=
  (List.range n).map (fun i => s.f.storage.read ((a + i) % s.cfg.capacity))

/-- The bytes of a pending write, in order (10_state R43). -/
def PendingWrite.bytes (p : PendingWrite) : List Byte := p.data.bytes p.off p.len

/-! ### The dirty page and the write-back queue -/

/-- `write_async`: queue a copy of a storage region when a backing is attached (20_memory R71, 44 R230, R231). -/
def writeAsync (off len : Nat) (s : State) : State :=
  if s.cfg.hasBacking then
    s.mapB (fun b => { b with queue := b.queue ++ [{ off := off, len := len, data := s.f.storage.slice off len }] })
  else s

/-- `FlushDirty()` (44 R230). -/
def flushDirty (s : State) : State :=
  match s.f.dirty with
  | none => s
  | some q => (writeAsync (q * s.cfg.pageSize) s.cfg.pageSize s).mapF (fun f => { f with dirty := none })

/-- `MarkDirty(p)` (44 R229). -/
def markDirty (p : Nat) (s : State) : State :=
  let s1 := match s.f.dirty with
    | some q => if q = p then s else flushDirty s
    | none => s
  s1.mapF (fun f => { f with dirty := some p })

/-- `DeviceDeselect()` (44 R228). -/
def deviceDeselect (s : State) : State :=
  (flushDirty s).mapF (fun f => { f with pstate := .idle, pos := 0, acc := 0 })

/-- One step of the write-back agent: the oldest entry is applied whole; with nothing queued there is no step (44 R233). -/
def writeBackStep (s : State) : State :=
  match s.b.queue with
  | [] => s
  | p :: q => s.mapB (fun b => { b with image := b.image.splice p.off p.len p.data, queue := q })

/-! ### Register-access checks -/

/-- The legal width of a register in bytes: 1 for DR, 4 for every other (20_memory R54). -/
def regWidth : Reg → Nat
  | .dr => 1
  | .cr | .sr | .fcr | .dlr | .ccr | .ar | .psmkr | .psmar | .pir => 4

/-- The registers whose writes are ignored while a transaction is in flight (41 R120 check 3, R140). -/
def lockedByBusy : Reg → Bool
  | .dlr | .ccr | .ar | .psmkr | .psmar | .pir => true
  | .cr | .sr | .fcr | .dr => false

/-- A register write of `w` bytes: checks 2 and 3 of 41 R120, then the register's own rule. (Check 1 is the decoder's: an offset
with no register decodes to a reserved row.) -/
def regWrite (r : Reg) (w : Nat) (body : State → State) (s : State) : State :=
  if w ≠ regWidth r then raise (.accessWidth (s.cfg.offset r) w) s
  else if lockedByBusy r && s.h.busy then raise (.hostBusyWrite (s.cfg.offset r)) s
  else body s

/-- A register read of `w` bytes: check 2 of 41 R120, then the register's own rule. -/
def regRead (r : Reg) (w : Nat) (body : State → State) (s : State) : State :=
  if w ≠ regWidth r then readUnspecified w (raise (.accessWidth (s.cfg.offset r) w) s)
  else body s

/-- An access at an offset that holds no register (20_memory R52, 41 R120 check 1). -/
def reservedAccess (a : Access) (off w : Nat) (s : State) : State :=
  refusedAccess a w (raise (.reservedOffset off) s)

/-- An access to the memory-mapped window (20_memory R53). -/
def mmapAccess (a : BusAccess) (s : State) : State :=
  refusedAccess a.acc a.width (raise (.mmapWindowAccess a.addr) s)

end Sys2Proof.Machine
end

