-- ==== Sys2Proof/Machine/Operands.lean ====
section
/-! DEFINITION. Operand forms: fields of register values, the fields of CCR, the start trigger, the bytes of a transaction's header, the
polling response and budget, the device's address assembly. -/

namespace Sys2Proof.Machine

/-! ### Fields of a register value -/

/-- `v[lo + n - 1 : lo]`, the field of `n` bits from bit `lo` up, as a number (00_scope R11). -/
def bitField (v : Word) (lo n : Nat) : Nat := v.toNat / 2 ^ lo % 2 ^ n

/-- A field as a register of its own: its value from bit 0 up. -/
def fieldWord (v : Word) (lo n : Nat) : Word := BitVec.ofNat 32 (bitField v lo n)

/-- The bits of a field. -/
def fieldMask (lo n : Nat) : Word := BitVec.ofNat 32 ((2 ^ n - 1) * 2 ^ lo)

/-! ### Fields of CCR (30_encoding R86, R87) -/

/-- The fields of CCR: lowest bit and width (10_state R26 gives the widths, the configuration the positions). -/
def ccrFields (c : Cfg) : List (Nat × Nat) :=
  [(c.bits.instruction, 8), (c.bits.imode, 2), (c.bits.admode, 2), (c.bits.adsize, 2), (c.bits.abmode, 2),
   (c.bits.absize, 2), (c.bits.dcyc, 5), (c.bits.dmode, 2), (c.bits.fmode, 2)]

/-- The stored bits of CCR, 0x0F7FFFFF in the default layout (30 R86). -/
def ccrMask (c : Cfg) : Word := (ccrFields c).foldl (fun m p => m ||| fieldMask p.1 p.2) 0

/-- What a CCR write latches: the reserved bits are not stored (30 R86). -/
def ccrLatch (c : Cfg) (v : Word) : Word := v &&& ccrMask c

/-- The instruction byte. -/
def ccrInstruction (c : Cfg) (ccr : Word) : Byte := BitVec.ofNat 8 (bitField ccr c.bits.instruction 8)

/-- The address mode is not 0: the address phase is present (`A`). -/
def addressPhase (c : Cfg) (ccr : Word) : Bool := bitField ccr c.bits.admode 2 != 0

/-- The number of address bytes, `adsize + 1`. -/
def addressSize (c : Cfg) (ccr : Word) : Nat := bitField ccr c.bits.adsize 2 + 1

/-- The alternate-bytes phase is configured: `abmode` or `absize` is not 0. -/
def alternateBytes (c : Cfg) (ccr : Word) : Bool :=
  bitField ccr c.bits.abmode 2 != 0 || bitField ccr c.bits.absize 2 != 0

/-- The dummy-cycle count. -/
def dummyCycles (c : Cfg) (ccr : Word) : Nat := bitField ccr c.bits.dcyc 5

/-- The data mode is not 0: the data phase is present (`D`). -/
def dataPhasePresent (c : Cfg) (ccr : Word) : Bool := bitField ccr c.bits.dmode 2 != 0

/-- The functional modes (30 R87). -/
inductive FMode
  | indirectWrite
  | indirectRead
  | autoPolling
  | memoryMapped
  deriving DecidableEq, Repr

/-- The functional mode field. -/
def functionalMode (c : Cfg) (ccr : Word) : FMode :=
  match bitField ccr c.bits.fmode 2 with
  | 0 => .indirectWrite
  | 1 => .indirectRead
  | 2 => .autoPolling
  | _ => .memoryMapped

/-! ### The start trigger (42 R150) -/

/-- The register whose write starts the transaction. -/
inductive Trigger
  | onCCR
  | onAR
  | onDR
  | conflict
  deriving DecidableEq, Repr

/-- The tie-break table over mode, address phase and data phase. -/
def triggerTable : FMode → Bool → Bool → Trigger
  | .indirectWrite, false, false => .onCCR
  | .indirectWrite, true, false => .onAR
  | .indirectWrite, false, true => .onDR
  | .indirectWrite, true, true => .conflict
  | .indirectRead, false, false => .onCCR
  | .indirectRead, true, false => .onAR
  | .indirectRead, true, true => .onAR
  | .indirectRead, false, true => .conflict
  | .autoPolling, false, _ => .onCCR
  | .autoPolling, true, _ => .onAR
  | .memoryMapped, _, _ => .conflict

/-- `StartTrigger(ccr)`. -/
def startTrigger (c : Cfg) (ccr : Word) : Trigger :=
  triggerTable (functionalMode c ccr) (addressPhase c ccr) (dataPhasePresent c ccr)

/-! ### The bytes of the header (42 R153) -/

/-- The low `n` bytes of AR, most significant first (30 R92). -/
def addressBytes (ar : Word) : Nat → List Byte
  | 0 => []
  | n + 1 => ar.extractLsb' (8 * n) 8 :: addressBytes ar n

/-- `DummyBytes(ccr)`: one filler byte a dummy cycle, but for the quirk instruction (30 R94). -/
def dummyBytes (c : Cfg) (ccr : Word) : Nat :=
  if ccrInstruction c ccr = c.quirkInstruction ∧ dummyCycles c ccr = c.quirkDcyc then c.quirkBytes
  else dummyCycles c ccr

/-- All bytes of the header: instruction, address, fillers (42 R153, R154). -/
def headerBytes (c : Cfg) (ccr ar : Word) : List Byte :=
  ccrInstruction c ccr :: ((if addressPhase c ccr then addressBytes ar (addressSize c ccr) else []) ++
    List.replicate (dummyBytes c ccr) c.fillerByte)

/-- A data phase moves `DLR + 1` bytes, without wrap (30 R93). -/
def dataLength (dlr : Word) : Nat := dlr.toNat + 1

/-! ### Auto-polling (30 R95, 42 R159) -/

/-- The polling response as a 32-bit value, first byte received least significant. -/
def pollResponse : List Byte → Word
  | [] => 0
  | b :: bs => b.setWidth 32 ||| (pollResponse bs <<< 8)

/-- The match test; the match value is not masked. -/
def pollMatches (response mask value : Word) : Bool := (response &&& mask) == value

/-- `POLL_BUDGET(i)`: how many iterations Interval value `i` allows; `i + 1` where the configuration lists no other (00_scope R8). -/
def pollBudget (c : Cfg) (pir : Word) : Nat :=
  match c.pollBudgets.find? (fun p => p.1 == pir.toNat) with
  | some p => p.2
  | none => pir.toNat + 1

/-! ### Operands of flash commands (30 R91) -/

/-- One more address byte enters the accumulator. -/
def accShift (acc : Addr24) (b : Byte) : Addr24 := (acc <<< 8) ||| b.setWidth 24

/-- The start of the aligned region of `size` bytes that holds address `a` (20_memory R61). -/
def alignedBase (a size : Nat) : Nat := a - a % size

/-- `need(cmd)`: how many bytes a command collects (43 R200). Other commands collect none and never reach the question. -/
def collectNeed (c : Cfg) : Option FlashCmd → Nat
  | some .wrreg => 1
  | some .pp => c.addrBytes
  | some .sse => c.addrBytes
  | some .be => c.addrBytes
  | some .fread => c.addrBytes + c.fastReadDummy
  | _ => 0

end Sys2Proof.Machine
end

