-- ==== Sys2Proof/Machine/Flags.lean ====
section
/-! DEFINITION. Flags: the layouts of CR, SR and FCR, and the bits of the flash device's status registers. -/

namespace Sys2Proof.Machine

/-- One bit of a register value. -/
def flagBit (b : Bool) (n : Nat) : Word := if b then (1 : Word) <<< n else 0

/-! ### Host controller -/

/-- The value of CR: its three latches at their bits, ABORT reads 0 (30_encoding R82, 41 R123). -/
def crValue (c : Cfg) (h : HostCtl) : Word :=
  flagBit h.en c.bits.crEn ||| flagBit h.apms c.bits.crApms ||| flagBit h.pmm c.bits.crPmm

/-- The latches a CR write sets (41 R121). -/
def crLatch (c : Cfg) (v : Word) (h : HostCtl) : HostCtl :=
  { h with en := v.getLsbD c.bits.crEn, apms := v.getLsbD c.bits.crApms, pmm := v.getLsbD c.bits.crPmm }

/-- A CR write asks for an abort (41 R121). -/
def crAborts (c : Cfg) (v : Word) : Bool := v.getLsbD c.bits.crAbort

/-- `Abort()` (41 R122): the link and the device are untouched. -/
def abort (h : HostCtl) : HostCtl := { h with tcf := true, busy := false, txLeft := 0, fifo := [] }

/-- The value of SR: its five flags at their bits (30 R83, 41 R124). -/
def srValue (c : Cfg) (h : HostCtl) : Word :=
  flagBit h.tef c.bits.srTef ||| flagBit h.tcf c.bits.srTcf ||| flagBit h.smf c.bits.srSmf |||
    flagBit h.tof c.bits.srTof ||| flagBit h.busy c.bits.srBusy

/-- A Flag-Clear write: 1 at a flag's bit number of SR clears it, 0 leaves it (30 R84, 41 R126). -/
def clearFlags (c : Cfg) (v : Word) (h : HostCtl) : HostCtl :=
  { h with tef := h.tef && !v.getLsbD c.bits.srTef, tcf := h.tcf && !v.getLsbD c.bits.srTcf,
           smf := h.smf && !v.getLsbD c.bits.srSmf, tof := h.tof && !v.getLsbD c.bits.srTof }

/-- A transaction completes: transfer-complete is raised and busy drops (42 R157, R161, R163). -/
def complete (h : HostCtl) : HostCtl := { h with tcf := true, busy := false }

/-! ### Flash device (30 R100, 10_state R36 to R38) -/

/-- Bit `n` of a device register. -/
def bitMask (n : Nat) : Byte := 1#8 <<< n

/-- `F.wel`. -/
def Flash.wel (f : Flash) (c : Cfg) : Bool := f.sr.getLsbD c.srWelBit

/-- `F.busy`. -/
def Flash.busy (f : Flash) (c : Cfg) : Bool := f.sr.getLsbD c.srBusyBit

/-- Write-Enable (43 R183). -/
def setWel (c : Cfg) (f : Flash) : Flash := { f with sr := f.sr ||| bitMask c.srWelBit }

/-- Write-Disable (43 R184). -/
def clearWel (c : Cfg) (f : Flash) : Flash := { f with sr := f.sr &&& ~~~bitMask c.srWelBit }

/-- Busy is set and its one-shot clear armed (43 R191, R202). -/
def setBusy (c : Cfg) (f : Flash) : Flash :=
  { f with sr := f.sr ||| bitMask c.srBusyBit, srClear := f.srClear ||| bitMask c.srBusyBit }

/-- `PostReadClear()` (44 R227). -/
def postReadClear (f : Flash) : Flash := { f with sr := f.sr &&& ~~~f.srClear, srClear := 0 }

/-- Erase-Suspend (43 R194). -/
def setSuspended (c : Cfg) (f : Flash) : Flash := { f with fsr := f.fsr ||| bitMask c.fsrEsBit }

/-- Erase-Resume (43 R195). -/
def clearSuspended (c : Cfg) (f : Flash) : Flash := { f with fsr := f.fsr &&& ~~~bitMask c.fsrEsBit }

/-- A program of `b` over `c` tries to set a bit (44 R220, R221). -/
def setsBit (c b : Byte) : Bool := (b &&& ~~~c) != 0

/-- The device registers that both resets give their reset values (43 R203, 70 R282): storage and the dirty index stay. -/
def resetRegisters (c : Cfg) (f : Flash) : Flash :=
  { f with pstate := .idle, cmd := 0, pos := 0, acc := 0, cur := 0, sr := 0, srClear := 0,
           fsr := c.fsrReset, cfgReg := c.cfgReset, resetArmed := false }

end Sys2Proof.Machine
end

