-- ==== Sys2Proof/Machine/DeviceArms.lean ====
section
/-! DEFINITION. What each flash command does inside the device: its arm of `DecodeOpcode` (43 R180), its dispatch (43 R201), the
register byte it returns (44 R226), and the streaming states (44 R220, R224, R225). The link (Link.lean) selects among them. -/

namespace Sys2Proof.Machine

/-! ### Common parts -/

/-- The common part of every opcode decode (43 R180). -/
def opcodeCommon (b : Byte) (s : State) : State :=
  s.mapF (fun f => { f with resetArmed := false, cmd := b, pos := 0, acc := 0 })

/-- The parser goes to a state. -/
def toPState (p : PState) (s : State) : State := s.mapF (fun f => { f with pstate := p })

/-- `SoftReset()` (43 R203). -/
def softReset (s : State) : State := s.mapF (resetRegisters s.cfg)

/-- `Persist(base, size)` (44 R231). -/
def persist (base size : Nat) (s : State) : State := writeAsync base size s

/-- `Erase(size)` at the collected address (43 R202). -/
def erase (size : Nat) (s : State) : State :=
  let base := alignedBase s.f.acc.toNat size
  if !s.f.wel s.cfg then s
  else if s.cfg.capacity ≤ base then raise (.eraseOutOfBounds s.f.acc.toNat) s
  else
    let s1 := s.mapF (fun f => { f with storage := f.storage.fillErased base size })
    (persist base size s1).mapF (setBusy s.cfg)

/-! ### Arms of `DecodeOpcode` -/

/-- RSTEN (43 R181). -/
def armRsten (s : State) : State := s.mapF (fun f => { f with resetArmed := true })

/-- RST; `armed` is the latch before this byte's common clear (43 R182). -/
def armRst (armed : Bool) (s : State) : State := if armed then softReset s else raise .unarmedReset s

/-- WREN (43 R183). -/
def armWren (s : State) : State := s.mapF (setWel s.cfg)

/-- WRDI (43 R184). -/
def armWrdi (s : State) : State := s.mapF (clearWel s.cfg)

/-- WRREG (43 R185). -/
def armWrreg (s : State) : State := toPState .collectingCommandData s

/-- RDSR (43 R186). -/
def armRdsr (s : State) : State := toPState .readingRegister s

/-- RDFSR (43 R187). -/
def armRdfsr (s : State) : State := toPState .readingRegister s

/-- RDCFG (43 R188). -/
def armRdcfg (s : State) : State := toPState .readingRegister s

/-- FREAD (43 R189). -/
def armFread (s : State) : State := toPState .collectingCommandData s

/-- RDID (43 R190). -/
def armRdid (s : State) : State := toPState .readingIdentification s

/-- PP (43 R191). -/
def armPp (s : State) : State := toPState .collectingCommandData s

/-- SSE (43 R192). -/
def armSse (s : State) : State := toPState .collectingCommandData s

/-- BE (43 R193). -/
def armBe (s : State) : State := toPState .collectingCommandData s

/-- ESUS (43 R194). -/
def armEsus (s : State) : State := s.mapF (setSuspended s.cfg)

/-- ERES (43 R195). -/
def armEres (s : State) : State := s.mapF (clearSuspended s.cfg)

/-- DSLP: recognised, no effect beyond the common part (43 R196). -/
def armDslp (s : State) : State := s

/-- WAKE: recognised, no effect beyond the common part (43 R197). -/
def armWake (s : State) : State := s

/-- QEN: recognised, no effect beyond the common part (43 R198). -/
def armQen (s : State) : State := s

/-- Any other byte (43 R199). -/
def armUnknown (b : Byte) (s : State) : State := raise (.unknownOpcode b) s

/-! ### Dispatch of the five collecting commands -/

/-- WRREG stores its data byte in the configuration register (43 R185, R201). -/
def dispatchWrreg (s : State) : State :=
  toPState .idle (s.mapF (fun f => { f with cfgReg := f.acc.setWidth 8 }))

/-- PP starts writing at the unreduced address; with the latch set it becomes busy (43 R191). -/
def dispatchPp (s : State) : State :=
  let s1 := s.mapF (fun f => { f with cur := f.acc.toNat })
  toPState .writing (if s1.f.wel s.cfg then s1.mapF (setBusy s.cfg) else s1)

/-- FREAD starts reading at the address modulo CAPACITY (43 R189). -/
def dispatchFread (s : State) : State :=
  toPState .reading (s.mapF (fun f => { f with cur := f.acc.toNat % s.cfg.capacity }))

/-- SSE erases the subsector (43 R192, R201). -/
def dispatchSse (s : State) : State := toPState .idle (erase s.cfg.subsectorSize s)

/-- BE erases the block (43 R193, R201). -/
def dispatchBe (s : State) : State := toPState .idle (erase s.cfg.blockSize s)

/-! ### Register bytes -/

/-- RDSR returns the status register as it was and applies the post-read clear (43 R186, 44 R226, R227). -/
def registerRdsr (s : State) : Byte × State := (s.f.sr, s.mapF postReadClear)

/-- RDFSR returns the flag-status register; nothing is cleared (43 R187). -/
def registerRdfsr (s : State) : Byte × State := (s.f.fsr, s)

/-- RDCFG returns the configuration register; nothing is cleared (43 R188). -/
def registerRdcfg (s : State) : Byte × State := (s.f.cfgReg, s)

/-! ### Streaming states -/

/-- `Program(a, b)`: the stored byte is `b AND previous`; an attempt to set a bit is a warning (44 R220, R221). -/
def program (a : Nat) (b : Byte) (s : State) : State :=
  let c := s.f.storage.read a
  let s1 := if setsBit c b then raise (.bitSetAttempt a c b) s else s
  s1.mapF (fun f => { f with storage := f.storage.write a (b &&& c) })

/-- `ProgramByte(b)`: the rule of Writing (44 R220, R222, R223, R234). -/
def programByte (b : Byte) (s : State) : State :=
  let s1 :=
    if !s.f.wel s.cfg then s
    else if s.cfg.capacity ≤ s.f.cur then raise (.writeOutOfBounds s.f.cur b) s
    else markDirty (s.f.cur / s.cfg.pageSize) (program s.f.cur b s)
  s1.mapF (fun f => { f with cur := f.cur + 1 })

/-- `ReadByte()`: the rule of Reading (44 R224). -/
def readByte (s : State) : Byte × State :=
  (s.f.storage.read s.f.cur, s.mapF (fun f => { f with cur := (f.cur + 1) % s.cfg.capacity }))

/-- `ID[i]` (00_scope R9). -/
def idOf (c : Cfg) : Nat → Byte
  | 0 => c.id0
  | 1 => c.id1
  | _ => c.id2

/-- `IdByte()`: the rule of ReadingIdentification (44 R225). -/
def idByte (s : State) : Byte × State :=
  (idOf s.cfg s.f.pos,
    s.mapF (fun f => { f with pos := f.pos + 1, pstate := if f.pos + 1 = 3 then .idle else f.pstate }))

end Sys2Proof.Machine
end

