-- ==== Sys2Proof/Machine/Link.lean ====
section
/-! DEFINITION. The serial link (40 R110 to R116) and the rules of Idle, CollectingCommandData and ReadingRegister, which select
among the commands' own parts (DeviceArms.lean). -/

namespace Sys2Proof.Machine

/-- `DecodeOpcode(b)`: the rule of Idle (43 R180). -/
def decodeOpcode (b : Byte) (s : State) : State :=
  let s1 := opcodeCommon b s
  match flashCmdOf s.cfg b with
  | some .rsten => armRsten s1
  | some .rst => armRst s.f.resetArmed s1
  | some .wren => armWren s1
  | some .wrdi => armWrdi s1
  | some .wrreg => armWrreg s1
  | some .rdsr => armRdsr s1
  | some .rdfsr => armRdfsr s1
  | some .rdcfg => armRdcfg s1
  | some .fread => armFread s1
  | some .rdid => armRdid s1
  | some .pp => armPp s1
  | some .sse => armSse s1
  | some .be => armBe s1
  | some .esus => armEsus s1
  | some .eres => armEres s1
  | some .dslp => armDslp s1
  | some .wake => armWake s1
  | some .qen => armQen s1
  | none => armUnknown b s1

/-- `Dispatch()` (43 R201). No other command collects; in a state no run reaches nothing happens (log 16). -/
def dispatch (s : State) : State :=
  match flashCmdOf s.cfg s.f.cmd with
  | some .wrreg => dispatchWrreg s
  | some .pp => dispatchPp s
  | some .fread => dispatchFread s
  | some .sse => dispatchSse s
  | some .be => dispatchBe s
  | _ => s

/-- What a collected byte does to the accumulator (43 R200, 30 R91): WRREG takes it as its operand, the first ADDR_BYTES bytes of the
others are the address, a Fast-Read dummy byte is ignored. -/
def collectAcc (c : Cfg) (b : Byte) (f : Flash) : Addr24 :=
  if flashCmdOf c f.cmd = some .wrreg then b.setWidth 24
  else if f.pos < c.addrBytes then accShift f.acc b
  else f.acc

/-- `Collect(b)`: the rule of CollectingCommandData (43 R200). -/
def collect (b : Byte) (s : State) : State :=
  let s1 := s.mapF (fun f => { f with acc := collectAcc s.cfg b f, pos := f.pos + 1 })
  if s1.f.pos = collectNeed s.cfg (flashCmdOf s.cfg s.f.cmd) then dispatch s1 else s1

/-- `RegisterByte()`: the rule of ReadingRegister (44 R226). No other command comes here; in a state no run reaches the reply is
DEFAULT_MISO (log 16). -/
def registerByte (s : State) : Byte × State :=
  let r := match flashCmdOf s.cfg s.f.cmd with
    | some .rdsr => registerRdsr s
    | some .rdfsr => registerRdfsr s
    | some .rdcfg => registerRdcfg s
    | _ => (s.cfg.defaultMiso, s)
  (r.1, toPState .idle r.2)

/-- What the device does with one byte, by the parser state before it, and its reply; every byte handled in Idle, Collecting or
Writing is answered with DEFAULT_MISO (40 R110, R115). -/
def deviceByte (b : Byte) (s : State) : Byte × State :=
  match s.f.pstate with
  | .idle => (s.cfg.defaultMiso, decodeOpcode b s)
  | .collectingCommandData => (s.cfg.defaultMiso, collect b s)
  | .writing => (s.cfg.defaultMiso, programByte b s)
  | .reading => readByte s
  | .readingIdentification => idByte s
  | .readingRegister => registerByte s

/-- `Xfer(b)`: one exchange, recorded in the trace (40 R110). -/
def xfer (b : Byte) (s : State) : Byte × State :=
  let r := deviceByte b s
  (r.1, r.2.mapL (fun l => { l with trace := l.trace ++ [.xfer b r.1] }))

/-- Exchange bytes one after the other, discarding the replies. -/
def xferAll : List Byte → State → State
  | [], s => s
  | b :: bs, s => xferAll bs (xfer b s).2

/-- The replies of such a run of exchanges. -/
def replies : List Byte → State → List Byte
  | [], _ => []
  | b :: bs, s => (xfer b s).1 :: replies bs (xfer b s).2

/-- `SetCS(level)`: a deassertion runs `DeviceDeselect`, an assertion changes nothing in the device (40 R111 to R113). -/
def setCS (level : Bool) (s : State) : State :=
  let s1 := s.mapL (fun l => { l with trace := l.trace ++ [.cs level] })
  let s2 := if level then s1 else deviceDeselect s1
  s2.mapL (fun l => { l with cs := level })

/-- Bytes exchanged at device level: refused while chip-select is deasserted (40 R114). -/
def exchange (bs : List Byte) (s : State) : Host.Outcome State Fault Refusal :=
  if s.l.cs then .next (xferAll bs s) else .refused .chipSelectDeasserted

/-- A flash command at device level: its opcode byte and the bytes that belong to it, each handled by the parser state that
meets it (40 R110, 00_scope R14). -/
def runCommand (k : FlashCmd) (ops : List Byte) (s : State) : Host.Outcome State Fault Refusal :=
  exchange (s.cfg.opByte k :: ops) s

end Sys2Proof.Machine
end

