-- ==== Sys2Proof/Machine/FlashOneByte.lean ====
section
/-! DEFINITION. The one-byte flash commands at device level (43 R181 to R184, R194 to R199): the opcode byte is exchanged. What it
does in Idle is the command's arm in DeviceArms.lean; met in another parser state it is a data byte (40 R110). -/

namespace Sys2Proof.Machine

/-- RSTEN, Reset-Enable (43 R181). -/
def execRsten (s : State) : Host.Outcome State Fault Refusal := runCommand .rsten [] s

/-- RST, Reset (43 R182). -/
def execRst (s : State) : Host.Outcome State Fault Refusal := runCommand .rst [] s

/-- WREN, Write-Enable (43 R183). -/
def execWren (s : State) : Host.Outcome State Fault Refusal := runCommand .wren [] s

/-- WRDI, Write-Disable (43 R184). -/
def execWrdi (s : State) : Host.Outcome State Fault Refusal := runCommand .wrdi [] s

/-- ESUS, Erase-Suspend (43 R194). -/
def execEsus (s : State) : Host.Outcome State Fault Refusal := runCommand .esus [] s

/-- ERES, Erase-Resume (43 R195). -/
def execEres (s : State) : Host.Outcome State Fault Refusal := runCommand .eres [] s

/-- DSLP, Deep-Sleep (43 R196). -/
def execDslp (s : State) : Host.Outcome State Fault Refusal := runCommand .dslp [] s

/-- WAKE, Wake (43 R197). -/
def execWake (s : State) : Host.Outcome State Fault Refusal := runCommand .wake [] s

/-- QEN, Quad-Enable (43 R198). -/
def execQen (s : State) : Host.Outcome State Fault Refusal := runCommand .qen [] s

/-- A byte that is no opcode (43 R199). -/
def execUnknown (b : Byte) (s : State) : Host.Outcome State Fault Refusal := exchange [b] s

end Sys2Proof.Machine
end

