-- ==== Sys2Proof/Machine/FlashRegister.lean ====
section
/-! DEFINITION. The register and identification commands at device level (43 R185 to R188, R190). The operand lists hold the bytes
the host sends after the opcode; a list shorter than the format leaves the command open, for a deselect to abandon. -/

namespace Sys2Proof.Machine

/-- WRREG, Write-Register: the opcode and its data byte (43 R185). -/
def execWrreg (ops : List Byte) (s : State) : Host.Outcome State Fault Refusal := runCommand .wrreg ops s

/-- RDSR, Read-Register (status): the opcode and the exchange that returns the byte (43 R186). -/
def execRdsr (ops : List Byte) (s : State) : Host.Outcome State Fault Refusal := runCommand .rdsr ops s

/-- RDFSR, Read-Register (flag-status) (43 R187). -/
def execRdfsr (ops : List Byte) (s : State) : Host.Outcome State Fault Refusal := runCommand .rdfsr ops s

/-- RDCFG, Read-Register (configuration) (43 R188). -/
def execRdcfg (ops : List Byte) (s : State) : Host.Outcome State Fault Refusal := runCommand .rdcfg ops s

/-- RDID, Read-Identification: the opcode and up to three exchanges (43 R190). -/
def execRdid (ops : List Byte) (s : State) : Host.Outcome State Fault Refusal := runCommand .rdid ops s

end Sys2Proof.Machine
end

