-- ==== Sys2Proof/Machine/FlashStorage.lean ====
section
/-! DEFINITION. The addressed flash commands at device level (43 R189, R191 to R193). The operand lists hold the bytes the host
sends after the opcode; a list shorter than the format leaves the command open, for a deselect to abandon. -/

namespace Sys2Proof.Machine

/-- FREAD, Fast-Read: opcode, address, dummy bytes, bytes exchanged for data (43 R189). -/
def execFread (ops : List Byte) (s : State) : Host.Outcome State Fault Refusal := runCommand .fread ops s

/-- PP, Page-Program: opcode, address, data bytes (43 R191). -/
def execPp (ops : List Byte) (s : State) : Host.Outcome State Fault Refusal := runCommand .pp ops s

/-- SSE, Erase-Subsector: opcode and address (43 R192). -/
def execSse (ops : List Byte) (s : State) : Host.Outcome State Fault Refusal := runCommand .sse ops s

/-- BE, Erase-Block: opcode and address (43 R193). -/
def execBe (ops : List Byte) (s : State) : Host.Outcome State Fault Refusal := runCommand .be ops s

end Sys2Proof.Machine
end

