-- ==== Sys2Proof/Machine/Sequencer.lean ====
section
/-! DEFINITION. The host controller's transaction sequencer (42 R152 to R163). -/

namespace Sys2Proof.Machine

/-- `Header()`: busy, chip-select asserted, the header's bytes shifted (42 R153). -/
def header (s : State) : State :=
  xferAll (headerBytes s.cfg s.h.ccr s.h.ar) (setCS true (s.mapH (fun h => { h with busy := true })))

/-- The burst of an indirect read: `n` filler bytes out, the replies into the FIFO (42 R156, R165). -/
def burst : Nat → State → State
  | 0, s => s
  | n + 1, s =>
    let r := xfer s.cfg.fillerByte s
    burst n (r.2.mapH (fun h => { h with fifo := h.fifo ++ [r.1] }))

/-- The filler bytes of one polling iteration: POLL_RESPONSE_BYTES of them. -/
def pollFillers (c : Cfg) : List Byte := List.replicate c.pollResponseBytes c.fillerByte

/-- The exchanges of one polling iteration and the response they form (42 R158, 30 R95). -/
def pollExchange (s : State) : Word × State :=
  (pollResponse (replies (pollFillers s.cfg) s), xferAll (pollFillers s.cfg) s)

/-- The last exchanges of an iteration matched: status-match is raised. -/
def pollMatched (s : State) : State := s.mapH (fun h => { h with smf := true })

/-- The budget is used up: timeout is raised. -/
def pollTimedOut (s : State) : State := s.mapH (fun h => { h with tof := true })

/-- The polling loop, `n` further iterations allowed after this one: status-match on the first match, timeout when the last allowed
iteration does not match, else the instruction byte is sent again (42 R158, R159). -/
def pollLoop : Nat → State → State
  | 0, s =>
    let r := pollExchange s
    if pollMatches r.1 r.2.h.psmkr r.2.h.psmar then pollMatched r.2 else pollTimedOut r.2
  | n + 1, s =>
    let r := pollExchange s
    if pollMatches r.1 r.2.h.psmkr r.2.h.psmar then pollMatched r.2
    else pollLoop n (xfer (ccrInstruction r.2.cfg r.2.h.ccr) r.2).2

/-- No data phase: chip-select is released and the transaction complete (42 R157). -/
def endWithoutData (s : State) : State := (setCS false s).mapH complete

/-- Indirect write with data: the Data-register writes follow (42 R155). -/
def openWrite (s : State) : State := s.mapH (fun h => { h with txLeft := dataLength h.dlr })

/-- Indirect read with data: the burst, then chip-select is released; busy stays until the FIFO is drained (42 R156, R163). -/
def readBurst (s : State) : State := setCS false (burst (dataLength s.h.dlr) s)

/-- Auto-polling: the loop, which polls at least once, then chip-select is released and busy drops; transfer-complete is not set
(42 R158). -/
def autoPoll (s : State) : State :=
  (setCS false (pollLoop (pollBudget s.cfg s.h.pir - 1) s)).mapH (fun h => { h with busy := false })

/-- The data phase of the configured mode (42 R155 to R158). A memory-mapped configuration starts no transaction (42 R150), so
its case is never run. -/
def dataPhase (s : State) : State :=
  match functionalMode s.cfg s.h.ccr, dataPhasePresent s.cfg s.h.ccr with
  | .indirectWrite, false => endWithoutData s
  | .indirectRead, false => endWithoutData s
  | .indirectWrite, true => openWrite s
  | .indirectRead, true => readBurst s
  | .autoPolling, _ => autoPoll s
  | .memoryMapped, _ => s

/-- `Execute()`: whether the transaction started, and the state after it (42 R152). -/
def execute (s : State) : Bool × State :=
  if alternateBytes s.cfg s.h.ccr then (false, raise (.alternateBytesUnsupported s.h.ccr) s)
  else (true, dataPhase (header s))

/-- `SendDataByte(b)` (42 R161). -/
def sendDataByte (b : Byte) (s : State) : State :=
  let s1 := (xfer b s).2.mapH (fun h => { h with txLeft := h.txLeft - 1 })
  if s1.h.txLeft = 0 then setCS false (s1.mapH complete) else s1

end Sys2Proof.Machine
end

