-- ==== Sys2Proof/Machine/HostControl.lean ====
section
/-! DEFINITION. Register operations on CR, SR and FCR (41 R121 to R127). -/

namespace Sys2Proof.Machine

/-- `W32 CR`: the latches, then the abort when asked (41 R121, R122); allowed while busy. -/
def execW32Cr (w : Nat) (v : Word) (s : State) : Host.Outcome State Fault Refusal :=
  .next (regWrite .cr w (fun s => (s.mapH (crLatch s.cfg v)).mapH (fun h => if crAborts s.cfg v then abort h else h)) s)

/-- `R32 CR` (41 R123). -/
def execR32Cr (w : Nat) (s : State) : Host.Outcome State Fault Refusal :=
  .next (regRead .cr w (fun s => s.returning (crValue s.cfg s.h).toNat) s)

/-- `W32 SR`: ignored, with a diagnostic (41 R125). -/
def execW32Sr (w : Nat) (_v : Word) (s : State) : Host.Outcome State Fault Refusal :=
  .next (regWrite .sr w (fun s => raise (.writeReadOnly (s.cfg.offset .sr)) s) s)

/-- `R32 SR` (41 R124). -/
def execR32Sr (w : Nat) (s : State) : Host.Outcome State Fault Refusal :=
  .next (regRead .sr w (fun s => s.returning (srValue s.cfg s.h).toNat) s)

/-- `W32 FCR` (41 R126); allowed while busy. -/
def execW32Fcr (w : Nat) (v : Word) (s : State) : Host.Outcome State Fault Refusal :=
  .next (regWrite .fcr w (fun s => s.mapH (clearFlags s.cfg v)) s)

/-- `R32 FCR` reads 0 (41 R127). -/
def execR32Fcr (w : Nat) (s : State) : Host.Outcome State Fault Refusal :=
  .next (regRead .fcr w (fun s => s.returning 0) s)

end Sys2Proof.Machine
end

