-- ==== Sys2Proof/Machine/HostPolling.lean ====
section
/-! DEFINITION. Register operations on PSMKR, PSMAR and PIR (41 R136 to R139), and accesses at reserved offsets (20_memory R52). -/

namespace Sys2Proof.Machine

/-- `W32 PSMKR` (41 R136). -/
def execW32Psmkr (w : Nat) (v : Word) (s : State) : Host.Outcome State Fault Refusal :=
  .next (regWrite .psmkr w (fun s => s.mapH (fun h => { h with psmkr := v })) s)

/-- `R32 PSMKR` (41 R139). -/
def execR32Psmkr (w : Nat) (s : State) : Host.Outcome State Fault Refusal :=
  .next (regRead .psmkr w (fun s => s.returning s.h.psmkr.toNat) s)

/-- `W32 PSMAR` (41 R137). -/
def execW32Psmar (w : Nat) (v : Word) (s : State) : Host.Outcome State Fault Refusal :=
  .next (regWrite .psmar w (fun s => s.mapH (fun h => { h with psmar := v })) s)

/-- `R32 PSMAR` (41 R139). -/
def execR32Psmar (w : Nat) (s : State) : Host.Outcome State Fault Refusal :=
  .next (regRead .psmar w (fun s => s.returning s.h.psmar.toNat) s)

/-- `W32 PIR`: its field, bits 15 to 0 by default (41 R138, 30 R88). -/
def execW32Pir (w : Nat) (v : Word) (s : State) : Host.Outcome State Fault Refusal :=
  .next (regWrite .pir w (fun s => s.mapH (fun h => { h with pir := fieldWord v s.cfg.bits.pir s.cfg.pirBits })) s)

/-- `R32 PIR` (41 R139). -/
def execR32Pir (w : Nat) (s : State) : Host.Outcome State Fault Refusal :=
  .next (regRead .pir w (fun s => s.returning (s.h.pir <<< s.cfg.bits.pir).toNat) s)

/-- An access at a reserved offset below 0x1C (20_memory R52). -/
def execReserved04 (a : Access) (off w : Nat) (s : State) : Host.Outcome State Fault Refusal :=
  .next (reservedAccess a off w s)

/-- An access at a reserved offset from 0x1C (20_memory R52). -/
def execReserved1C (a : Access) (off w : Nat) (s : State) : Host.Outcome State Fault Refusal :=
  .next (reservedAccess a off w s)

/-- An access at a reserved offset from 0x30 (20_memory R52). -/
def execReserved30 (a : Access) (off w : Nat) (s : State) : Host.Outcome State Fault Refusal :=
  .next (reservedAccess a off w s)

end Sys2Proof.Machine
end

