-- ==== Sys2Proof/Machine/HostTransaction.lean ====
section
/-! DEFINITION. Register operations on DLR, CCR, AR and DR, which shape, start and feed transactions (41 R128 to R135). -/

namespace Sys2Proof.Machine

/-- `W32 DLR`: its field, the whole value by default (41 R128, 30 R85). -/
def execW32Dlr (w : Nat) (v : Word) (s : State) : Host.Outcome State Fault Refusal :=
  .next (regWrite .dlr w (fun s => s.mapH (fun h => { h with dlr := fieldWord v s.cfg.bits.dlr s.cfg.dlrBits })) s)

/-- `R32 DLR` (41 R129). -/
def execR32Dlr (w : Nat) (s : State) : Host.Outcome State Fault Refusal :=
  .next (regRead .dlr w (fun s => s.returning (s.h.dlr <<< s.cfg.bits.dlr).toNat) s)

/-- After CCR is latched: start, wait for another trigger, or diagnose (41 R130). -/
def afterCcrWrite (s : State) : State :=
  match startTrigger s.cfg s.h.ccr with
  | .onCCR => (execute s).2
  | .onAR => s
  | .onDR => s
  | .conflict => raise (.triggerConsistency s.h.ccr) s

/-- `W32 CCR` (41 R130). -/
def execW32Ccr (w : Nat) (v : Word) (s : State) : Host.Outcome State Fault Refusal :=
  .next (regWrite .ccr w (fun s => afterCcrWrite (s.mapH (fun h => { h with ccr := ccrLatch s.cfg v }))) s)

/-- `R32 CCR` (41 R131). -/
def execR32Ccr (w : Nat) (s : State) : Host.Outcome State Fault Refusal :=
  .next (regRead .ccr w (fun s => s.returning s.h.ccr.toNat) s)

/-- After AR is latched: start, wait for another trigger, or diagnose (41 R132). -/
def afterArWrite (s : State) : State :=
  match startTrigger s.cfg s.h.ccr with
  | .onAR => (execute s).2
  | .onCCR => s
  | .onDR => s
  | .conflict => raise (.triggerConsistency s.h.ccr) s

/-- `W32 AR` (41 R132). -/
def execW32Ar (w : Nat) (v : Word) (s : State) : Host.Outcome State Fault Refusal :=
  .next (regWrite .ar w (fun s => afterArWrite (s.mapH (fun h => { h with ar := v }))) s)

/-- `R32 AR` (41 R133). -/
def execR32Ar (w : Nat) (s : State) : Host.Outcome State Fault Refusal :=
  .next (regRead .ar w (fun s => s.returning s.h.ar.toNat) s)

/-- The rule of a byte write to DR: outside indirect-write nothing is sent; the first byte starts the transaction when the
trigger is "on data"; each byte is one exchange (41 R134). -/
def dataWrite (b : Byte) (s : State) : State :=
  if functionalMode s.cfg s.h.ccr ≠ .indirectWrite then raise (.dataWriteNoTransaction b) s
  else if s.h.txLeft = 0 then
    if startTrigger s.cfg s.h.ccr ≠ .onDR then raise (.dataWriteNoTransaction b) s
    else if (execute s).1 then sendDataByte b (execute s).2
    else (execute s).2
  else sendDataByte b s

/-- A byte write of legal width would send its byte into an open indirect write while the device is deselected: only a device-level
`CS-` driven into that write leads here (log 10). -/
def sendsDeselected (w : Nat) (s : State) : Bool :=
  decide (w = regWidth .dr) && functionalMode s.cfg s.h.ccr == .indirectWrite && decide (0 < s.h.txLeft) && !s.l.cs

/-- `W8 DR` (41 R134); where its `Xfer` would run with chip-select deasserted it is refused (40 R114, 93 U6). -/
def execW8Dr (w : Nat) (v : Word) (s : State) : Host.Outcome State Fault Refusal :=
  if sendsDeselected w s then .refused .chipSelectDeasserted
  else .next (regWrite .dr w (dataWrite (v.setWidth 8)) s)

/-- The rule of a byte read of DR: pop the FIFO; the pop that empties it completes the transaction (41 R135). -/
def dataRead (s : State) : State :=
  match s.h.fifo with
  | [] => readUnspecified 1 (raise .fifoUnderflow s)
  | b :: bs =>
    (s.mapH (fun h => if bs = [] then complete { h with fifo := bs } else { h with fifo := bs })).returning b.toNat

/-- `R8 DR` (41 R135). -/
def execR8Dr (w : Nat) (s : State) : Host.Outcome State Fault Refusal :=
  .next (regRead .dr w dataRead s)

end Sys2Proof.Machine
end

