-- ==== Sys2Proof/Machine/Dispatch.lean ====
section
/-! DEFINITION. One arm per constructor of Instr. -/

namespace Sys2Proof.Machine

def exec (i : Instr) (s : State) : Host.Outcome State Fault Refusal :=
  match i with
  | .w32Cr w v => Sys2Proof.Machine.execW32Cr w v s
  | .r32Cr w => Sys2Proof.Machine.execR32Cr w s
  | .w32Sr w v => Sys2Proof.Machine.execW32Sr w v s
  | .r32Sr w => Sys2Proof.Machine.execR32Sr w s
  | .w32Fcr w v => Sys2Proof.Machine.execW32Fcr w v s
  | .r32Fcr w => Sys2Proof.Machine.execR32Fcr w s
  | .w32Dlr w v => Sys2Proof.Machine.execW32Dlr w v s
  | .r32Dlr w => Sys2Proof.Machine.execR32Dlr w s
  | .w32Ccr w v => Sys2Proof.Machine.execW32Ccr w v s
  | .r32Ccr w => Sys2Proof.Machine.execR32Ccr w s
  | .w32Ar w v => Sys2Proof.Machine.execW32Ar w v s
  | .r32Ar w => Sys2Proof.Machine.execR32Ar w s
  | .w8Dr w v => Sys2Proof.Machine.execW8Dr w v s
  | .r8Dr w => Sys2Proof.Machine.execR8Dr w s
  | .w32Psmkr w v => Sys2Proof.Machine.execW32Psmkr w v s
  | .r32Psmkr w => Sys2Proof.Machine.execR32Psmkr w s
  | .w32Psmar w v => Sys2Proof.Machine.execW32Psmar w v s
  | .r32Psmar w => Sys2Proof.Machine.execR32Psmar w s
  | .w32Pir w v => Sys2Proof.Machine.execW32Pir w v s
  | .r32Pir w => Sys2Proof.Machine.execR32Pir w s
  | .reserved04 a off w => Sys2Proof.Machine.execReserved04 a off w s
  | .reserved1C a off w => Sys2Proof.Machine.execReserved1C a off w s
  | .reserved30 a off w => Sys2Proof.Machine.execReserved30 a off w s
  | .rsten => Sys2Proof.Machine.execRsten s
  | .rst => Sys2Proof.Machine.execRst s
  | .wren => Sys2Proof.Machine.execWren s
  | .wrdi => Sys2Proof.Machine.execWrdi s
  | .wrreg ops => Sys2Proof.Machine.execWrreg ops s
  | .rdsr ops => Sys2Proof.Machine.execRdsr ops s
  | .rdfsr ops => Sys2Proof.Machine.execRdfsr ops s
  | .rdcfg ops => Sys2Proof.Machine.execRdcfg ops s
  | .fread ops => Sys2Proof.Machine.execFread ops s
  | .rdid ops => Sys2Proof.Machine.execRdid ops s
  | .pp ops => Sys2Proof.Machine.execPp ops s
  | .sse ops => Sys2Proof.Machine.execSse ops s
  | .be ops => Sys2Proof.Machine.execBe ops s
  | .esus => Sys2Proof.Machine.execEsus s
  | .eres => Sys2Proof.Machine.execEres s
  | .dslp => Sys2Proof.Machine.execDslp s
  | .wake => Sys2Proof.Machine.execWake s
  | .qen => Sys2Proof.Machine.execQen s
  | .unknown b => Sys2Proof.Machine.execUnknown b s

end Sys2Proof.Machine
end

