-- ==== Sys2Proof/Machine/Platform.lean ====
section
/-! DEFINITION. Platform actions: construction (70 R280), system reset (70 R281 to R283), the snapshot hook (44 R232). -/

namespace Sys2Proof.Machine

/-- The configurations construction accepts: 00_scope R10, and an INITIAL_IMAGE of CAPACITY bytes in canonical form when a backing
is attached (20_memory R72). -/
def cfgOk (c : Cfg) : Bool :=
  c.shapeOk && (!c.hasBacking || (Memory.wf c.initialImage && Memory.below c.initialImage c.capacity))

/-- `Construct(Cfg)`; a configuration that breaks R10 is refused (70 R280). -/
def construct (c : Cfg) : Host.Outcome State Fault Refusal :=
  if cfgOk c then .next (State.construct c) else .refused .badConfiguration

/-- `SystemReset()`: a deselect is delivered first, then the host's and the device's fields take their reset values; storage,
backing and diagnostics stay (70 R281 to R283). -/
def systemReset (s : State) : State :=
  ((setCS false s).mapH (fun _ => HostCtl.reset)).mapF (resetRegisters s.cfg)

/-- `before_snapshot()` (44 R232). -/
def beforeSnapshot (s : State) : State := flushDirty s

end Sys2Proof.Machine
end

