-- ==== Sys2Proof/Machine/Fetch.lean ====
section
/-! DEFINITION. Taking the next input: which instruction it is, or what it does where it is none (log 4). -/

namespace Sys2Proof.Machine

/-- What the next input amounts to: an instruction to run in a state from which it has been taken, or a whole outcome. -/
inductive Fetched
  | run (i : Instr) (s : State)
  | done (o : Host.Outcome State Fault Refusal)

/-- The outcome of an input the decoder rejects: an offset outside the window is no address of the core (log 12), a frame with no
byte left does nothing. -/
def rejectedInput (e : DecodeError) (s : State) : Host.Outcome State Fault Refusal :=
  match e with
  | .offsetOutsideWindow off => .fault (.addressNotDecoded (s.cfg.regBase + off))
  | .emptyFrame => .next s

/-- Put the rest of a frame back as the next input. -/
def pushFrame (bs : List Byte) (s : State) : State :=
  if bs = [] then s else s.withInbox (.code (.frame bs) :: s.inbox)

/-- A register operation at a window offset (20_memory R51). -/
def fetchAccess (a : RegAccess) (s : State) : Fetched :=
  match decodeAccess s.cfg a with
  | .ok i => .run i s
  | .error e => .done (rejectedInput e s)

/-- Bytes of a frame driven at device level: in Idle the first byte is an opcode and a whole command is taken; in any other
parser state one byte is exchanged (30 R80, 40 R110). -/
def fetchFrame (bs : List Byte) (s : State) : Fetched :=
  match bs with
  | [] => .done (.next s)
  | b :: rest =>
    if s.f.pstate = .idle then
      match decodeFrame s.cfg (b :: rest) with
      | .ok (i, more) => .run i (pushFrame more s)
      | .error e => .done (rejectedInput e s)
    else .done (exchange [b] (pushFrame rest s))

/-- A bus access at an absolute address: the memory-mapped window is decided by the address before anything else (60 R267), then
the register window (20_memory R51). -/
def fetchBus (a : BusAccess) (s : State) : Fetched :=
  if s.cfg.mmapBase ≤ a.addr ∧ a.addr < s.cfg.mmapBase + s.cfg.mmapLen then .done (.next (mmapAccess a s))
  else if s.cfg.regBase ≤ a.addr ∧ a.addr < s.cfg.regBase + s.cfg.regWindowLen then
    fetchAccess { acc := a.acc, off := a.addr - s.cfg.regBase, width := a.width } s
  else .done (.fault (.addressNotDecoded a.addr))

/-- The next input, taken from the list; with none pending the core stays as it is (00_scope R3). -/
def fetch (s : State) : Fetched :=
  match s.inbox with
  | [] => .done (.next s)
  | .code (.access a) :: is => fetchAccess a (s.withInbox is)
  | .code (.frame bs) :: is => fetchFrame bs (s.withInbox is)
  | .bus a :: is => fetchBus a (s.withInbox is)
  | .select level :: is => .done (.next (setCS level (s.withInbox is)))
  | .systemReset :: is => .done (.next (systemReset (s.withInbox is)))
  | .snapshot :: is => .done (.next (beforeSnapshot (s.withInbox is)))
  | .writeBack :: is => .done (.next (writeBackStep (s.withInbox is)))

/-- Make an instruction the next input. A flash command needs the device selected and in Idle to be taken as a command. -/
def placeInstr (i : Instr) (s : State) : State :=
  match encode s.cfg i with
  | .access a => s.withInbox [.code (.access a)]
  | .frame bs =>
    ((s.withInbox [.code (.frame bs)]).mapL (fun l => { l with cs := true })).mapF (fun f => { f with pstate := .idle })

/-- Make the instruction of an opcode-table word the next input (log 20). -/
def placeTableWord (nbits w : Nat) (s : State) : State :=
  match decode s.cfg (tableCode s.cfg nbits w) with
  | .ok (i, _) => placeInstr i s
  | .error _ => s

end Sys2Proof.Machine
end

