-- ==== Sys2Proof/Safety.lean ====
section
/-! DEFINITION. The terms claims use: runs of instructions, the idle conditions of 70 R303, the invariants of 10_state R46 and of the
derived notes, the drained backing image, frames on the link, and the state after an opcode byte. -/

namespace Sys2Proof.Machine

/-! ### Runs -/

/-- Run instructions one after the other, stopping at the first fault or refusal. -/
def execAll : List Instr → State → Host.Outcome State Fault Refusal
  | [], s => .next s
  | i :: is, s =>
    match exec i s with
    | .next t => execAll is t
    | .fault r => .fault r
    | .refused r => .refused r

/-- `n` steps, stopping at the first fault or refusal. -/
def runSteps : Nat → State → Host.Outcome State Fault Refusal
  | 0, s => .next s
  | n + 1, s =>
    match step s with
    | .next t => runSteps n t
    | .fault r => .fault r
    | .refused r => .refused r

/-- Change the next state of an outcome. -/
def onNext (g : State → State) : Host.Outcome State Fault Refusal → Host.Outcome State Fault Refusal
  | .next t => .next (g t)
  | .fault r => .fault r
  | .refused r => .refused r

/-- Byte writes to DR. -/
def dataWrites (bs : List Byte) : List Instr := bs.map (fun b => .w8Dr 1 (b.setWidth 32))

/-! ### End of a run (70 R303) -/

/-- No transaction is in flight. -/
def hostIdle (s : State) : Prop := s.h.busy = false

/-- Host idle and the device deselected. -/
def linkIdle (s : State) : Prop := hostIdle s ∧ s.l.cs = false

/-- Link idle and no write pending. -/
def quiescent (s : State) : Prop := linkIdle s ∧ s.b.queue = []

/-! ### Invariants (10_state R46 and the derived notes) -/

/-- The host controller's part: R46 (a) and (b) without the link, the stored bits of CCR (R26), the widths of Data-Length and Interval
(R25, R28), transfer-error (60 R274). -/
structure HostInv (c : Cfg) (h : HostCtl) : Prop where
  /-- R46 (a). -/
  fifo_open : h.fifo ≠ [] → h.busy = true ∧ h.txLeft = 0 ∧ functionalMode c h.ccr = .indirectRead
  /-- R46 (b), chip-select apart. -/
  write_open : 0 < h.txLeft → h.busy = true ∧ functionalMode c h.ccr = .indirectWrite
  /-- 70 R303: a host that is idle has neither, so a busy one has one of them. -/
  busy_open : h.busy = true → h.fifo ≠ [] ∨ 0 < h.txLeft
  /-- R30: at most 2^32 bytes are outstanding. -/
  tx_bound : h.txLeft ≤ 2 ^ 32
  /-- R26: the bits that are not stored are 0. -/
  ccr_reserved : h.ccr &&& ~~~ccrMask c = 0#32
  /-- R25. -/
  dlr_width : h.dlr.toNat < 2 ^ c.dlrBits
  /-- R28. -/
  pir_width : h.pir.toNat < 2 ^ c.pirBits
  /-- 60 R274: transfer-error is never set. -/
  no_error : h.tef = false

/-- The flash device's part: R46 (c), (d), (e), what each parser state presumes, the dirty page, canonical storage. -/
structure DeviceInv (c : Cfg) (f : Flash) : Prop where
  /-- R46 (c). -/
  sr_reserved : f.sr &&& ~~~(bitMask c.srBusyBit ||| bitMask c.srWelBit) = 0#8
  /-- R46 (c). -/
  clear_reserved : f.srClear &&& ~~~bitMask c.srBusyBit = 0#8
  /-- R46 (d). -/
  clear_busy : f.srClear.getLsbD c.srBusyBit = true → f.busy c = true
  /-- R38: only the erase-suspended bit of the flag-status register changes. -/
  fsr_fixed : f.fsr &&& ~~~bitMask c.fsrEsBit = c.fsrReset &&& ~~~bitMask c.fsrEsBit
  /-- R46 (e). -/
  reading_inside : f.pstate = .reading → f.cur < c.capacity
  /-- 44 R225: the identification position is inside the sequence. -/
  id_position : f.pstate = .readingIdentification → f.pos < 3
  /-- 44 R226: only the three register commands read a register. -/
  register_command : f.pstate = .readingRegister →
    flashCmdOf c f.cmd = some .rdsr ∨ flashCmdOf c f.cmd = some .rdfsr ∨ flashCmdOf c f.cmd = some .rdcfg
  /-- 43 R201: only the five collecting commands collect, and fewer bytes than they need are collected. -/
  collecting : f.pstate = .collectingCommandData → f.pos < collectNeed c (flashCmdOf c f.cmd)
  /-- 44 R229: a page is dirty only while the device is in Writing. -/
  dirty_writing : f.dirty ≠ none → f.pstate = .writing
  /-- R42: the dirty page is a page of storage. -/
  dirty_page : ∀ p, f.dirty = some p → p < c.capacity / c.pageSize
  storage_wf : Memory.wf f.storage = true
  storage_below : Memory.below f.storage c.capacity = true

/-- A pending write is a canonical copy of a region inside the image. -/
def pendingOk (c : Cfg) (p : PendingWrite) : Prop :=
  Memory.wf p.data = true ∧ Memory.inside p.data p.off p.len = true ∧ p.off + p.len ≤ c.capacity

/-- The backing's part: canonical image, well-formed queue. -/
structure BackingInv (c : Cfg) (b : Backing) : Prop where
  image_wf : Memory.wf b.image = true
  image_below : Memory.below b.image c.capacity = true
  queue_ok : ∀ p ∈ b.queue, pendingOk c p

/-- The invariant that every step keeps, whatever the input. `layout` is what the spec's defaults meet and R10 does not ask (log 23). -/
structure CoreInv (s : State) : Prop where
  config : cfgOk s.cfg = true
  layout : s.cfg.layoutOk = true
  host : HostInv s.cfg s.h
  device : DeviceInv s.cfg s.f
  backing : BackingInv s.cfg s.b

/-- The link's part: R46 (b)'s chip-select clause, and a deselected device is in Idle with its byte position cleared (R303, 44
R228). A device-level `CS-` driven into an open host transaction breaks the first clause; no other input does. -/
structure LinkInv (s : State) : Prop where
  write_selected : 0 < s.h.txLeft → s.l.cs = true
  deselected_idle : s.l.cs = false → s.f.pstate = .idle ∧ s.f.pos = 0 ∧ s.f.acc = 0#24

/-- The next input is not a device-level `CS-` driven while an indirect write is open. -/
def deselectAllowed (s : State) : Prop := ∀ is, s.inbox = .select false :: is → s.h.txLeft = 0

/-! ### The backing image (20_memory R67) -/

/-- The image once every pending write has been applied, oldest first. -/
def drainedImage (b : Backing) : Memory := b.queue.foldl (fun m p => m.splice p.off p.len p.data) b.image

/-- The address lies in the page that is still dirty. -/
def inDirtyPage (s : State) (a : Nat) : Prop :=
  ∃ p, s.f.dirty = some p ∧ p * s.cfg.pageSize ≤ a ∧ a < (p + 1) * s.cfg.pageSize

/-- Outside the dirty page, the drained image is the storage. -/
def ImageFollows (s : State) : Prop :=
  s.cfg.hasBacking = true → ∀ a, ¬ inDirtyPage s a → (drainedImage s.b).read a = s.f.storage.read a

/-! ### Frames on the link (40 R116) -/

/-- The exchanges of host bytes `outs` answered by `ins`. -/
def exchanges (outs ins : List Byte) : List LinkEvent := List.zipWith LinkEvent.xfer outs ins

/-- What the device, selected from `s` on, answers to the bytes of a frame. -/
def frameReplies (s : State) (outs : List Byte) : List Byte := replies outs (setCS true s)

/-- Between the traces of two states lies exactly one frame: one assertion, exchanges of the host bytes `outs` with the device's own
replies, one release. -/
def oneFrame (s t : State) (outs : List Byte) : Prop :=
  t.l.trace = s.l.trace ++ [.cs true] ++ exchanges outs (frameReplies s outs) ++ [.cs false]

/-- Device, backing and diagnostics went from `s` to `t` as when a device-level script sends the bytes `outs` as one frame, and
chip-select is released. -/
structure SameAsFrame (s t : State) (outs : List Byte) : Prop where
  released : t.l.cs = false
  device : t.f = (setCS false (xferAll outs (setCS true s))).f
  backing : t.b = (setCS false (xferAll outs (setCS true s))).b
  diagnostics : t.diag = (setCS false (xferAll outs (setCS true s))).diag

/-- A transaction without data phase took the core from `s` (configuration and address latched) to `t`: the host controller is
done with transfer-complete set, and the header is one frame of its own. -/
structure FrameWithoutData (s t : State) : Prop where
  host : t.h = { s.h with tcf := true, busy := false }
  frame : oneFrame s t (headerBytes s.cfg s.h.ccr s.h.ar)
  effects : SameAsFrame s t (headerBytes s.cfg s.h.ccr s.h.ar)

/-- The bytes the host sends in `k` polling iterations of `n` fillers: the fillers, then the instruction byte before each later
iteration. -/
def pollBytes (n : Nat) (filler instr : Byte) : Nat → List Byte
  | 0 => []
  | k + 1 => List.replicate n filler ++ (if k = 0 then [] else instr :: pollBytes n filler instr k)

/-- The number whose bytes these are, least significant first. -/
def littleEndian : List Byte → Nat
  | [] => 0
  | b :: bs => b.toNat + 256 * littleEndian bs

/-- The 32-bit response of iteration `j` (from 0), of `n` bytes, in a frame whose replies are `ins` and whose header has `m` bytes. -/
def pollResponseAt (ins : List Byte) (m n j : Nat) : Word :=
  BitVec.ofNat 32 (littleEndian ((ins.drop (m + (n + 1) * j)).take n))

/-- The bytes of an auto-polling frame of `k` iterations. -/
def pollFrame (s : State) (k : Nat) : List Byte :=
  headerBytes s.cfg s.h.ccr s.h.ar ++ pollBytes s.cfg.pollResponseBytes s.cfg.fillerByte (ccrInstruction s.cfg s.h.ccr) k

/-- The response of iteration `j` in an auto-polling frame of `k` iterations. -/
def pollAnswer (s : State) (k j : Nat) : Word :=
  pollResponseAt (frameReplies s (pollFrame s k)) (headerBytes s.cfg s.h.ccr s.h.ar).length s.cfg.pollResponseBytes j

/-- An auto-polling transaction took the core from `s` (configuration and address latched) to `t` (42 R158, R159): one frame of
the header and `k` iterations, no iteration before the last matched, and the last one matched and raised status-match, or used up the
budget and raised timeout. At least one iteration is made. -/
def AutoPolled (s t : State) : Prop :=
  ∃ k : Nat,
    1 ≤ k ∧ (k ≤ pollBudget s.cfg s.h.pir ∨ k = 1) ∧
    oneFrame s t (pollFrame s k) ∧ SameAsFrame s t (pollFrame s k) ∧
    (∀ j, j + 1 < k → pollAnswer s k j &&& s.h.psmkr ≠ s.h.psmar) ∧
    (pollAnswer s k (k - 1) &&& s.h.psmkr = s.h.psmar → t.h = { s.h with smf := true, busy := false }) ∧
    (pollAnswer s k (k - 1) &&& s.h.psmkr ≠ s.h.psmar →
      pollBudget s.cfg s.h.pir ≤ k ∧ t.h = { s.h with tof := true, busy := false })

/-! ### Flash commands -/

/-- The device is selected and in Idle, under a configuration that R10 allows: the next byte is an opcode. -/
def readyForOpcode (s : State) : Prop := s.cfg.shapeOk = true ∧ s.l.cs = true ∧ s.f.pstate = .idle

/-- The common part of an opcode byte (43 R180): the exchange answered with DEFAULT_MISO, the latch cleared, the byte recorded,
position and accumulator zeroed. -/
def afterOpcode (b : Byte) (s : State) : State :=
  { s with
    l := { s.l with trace := s.l.trace ++ [.xfer b s.cfg.defaultMiso] }
    f := { s.f with resetArmed := false, cmd := b, pos := 0, acc := 0#24 } }

/-- Exchanges all answered with DEFAULT_MISO. -/
def silentExchanges (s : State) (outs : List Byte) : List LinkEvent :=
  outs.map (fun b => .xfer b s.cfg.defaultMiso)

/-- Everything but device, backing, diagnostics and trace is the same. -/
structure SameHostSide (s t : State) : Prop where
  cfg : t.cfg = s.cfg
  h : t.h = s.h
  cs : t.l.cs = s.l.cs
  inbox : t.inbox = s.inbox
  rdata : t.rdata = s.rdata
  draws : t.draws = s.draws

/-- Everything but host controller, device, backing, diagnostics and link is the same. -/
structure SameModelSide (s t : State) : Prop where
  cfg : t.cfg = s.cfg
  inbox : t.inbox = s.inbox
  rdata : t.rdata = s.rdata
  draws : t.draws = s.draws

/-- The control latches take other values. -/
def withControl (en apms pmm : Bool) (s : State) : State :=
  s.mapH (fun h => { h with en := en, apms := apms, pmm := pmm })

/-- The backing takes another value. -/
def withBacking (b : Backing) (s : State) : State := { s with b := b }

/-- The number whose bytes these are, most significant first: the address of a command, of which the accumulator keeps 24 bits (30
R91). -/
def addressOf (bs : List Byte) : Nat := bs.foldl (fun n b => n * 256 + b.toNat) 0 % 2 ^ 24

/-- How many bytes after the opcode a command of fixed length needs before it acts or is done (30_encoding R89): a Page-Program its
address, a Fast-Read its address and dummy bytes. -/
def formatLength (c : Cfg) : FlashCmd → Nat
  | .wrreg | .rdsr | .rdfsr | .rdcfg => 1
  | .rdid => 3
  | .pp | .sse | .be => c.addrBytes
  | .fread => c.addrBytes + c.fastReadDummy
  | .rsten | .rst | .wren | .wrdi | .esus | .eres | .dslp | .wake | .qen => 0

/-- The warnings of a run of programmed bytes from address `a`, in order: one for each byte that would set a bit (44 R221). -/
def programWarnings (m : Memory) : Nat → List Byte → List Diagnostic
  | _, [] => []
  | a, b :: bs =>
    (if b &&& ~~~(Memory.read m a) = 0#8 then [] else [.bitSetAttempt a (Memory.read m a) b]) ++ programWarnings m (a + 1) bs

/-- The out-of-bounds records of bytes dropped at and after address `a` (44 R223). -/
def outOfBoundsRecords (a : Nat) (bs : List Byte) : List Diagnostic := bs.mapIdx (fun i b => .writeOutOfBounds (a + i) b)

/-- Every storage byte reads as before. -/
def sameStorage (s t : State) : Prop := ∀ a, t.f.storage.read a = s.f.storage.read a

/-- The region an erase of `size` bytes at address `a` acts on reads 0xFF, every other byte as before (20_memory R61). -/
def erasedRegion (s t : State) (a size : Nat) : Prop :=
  ∀ x, t.f.storage.read x =
    if a - a % size ≤ x ∧ x < a - a % size + size then 0xFF#8 else s.f.storage.read x

end Sys2Proof.Machine
end

