-- ==== Sys2Proof/Certificates/Slice0/Obligations.lean ====
section
/-! DEFINITION. The statements for the provers. -/

open Sys2Proof Sys2Proof.Machine

/-! ### Encoding -/

/-- Decoding the encoding of a well-formed instruction gives it back, with nothing left over: no operand bit is dropped
(30_encoding R80, R81, R89, R90; 20_memory R51, R52). -/
def Obligations.DecodeOfEncodeIsIdentity : Prop :=
  ∀ (c : Cfg) (i : Instr), c.shapeOk = true → WellFormed c i = true → decode c (encode c i) = .ok (i, [])

/-- Whatever the decoder accepts is a well-formed instruction, and the input is its encoding followed by what the decoder left over. -/
def Obligations.EncodeOfDecodeIsInput : Prop :=
  ∀ (c : Cfg) (i : Instr) (rest : List Byte),
    (∀ a : RegAccess, decode c (.access a) = .ok (i, rest) → WellFormed c i = true ∧ rest = [] ∧ encode c i = .access a) ∧
    (∀ bs : List Byte, decode c (.frame bs) = .ok (i, rest) →
      WellFormed c i = true ∧ ∃ used, encode c i = .frame used ∧ bs = used ++ rest)

/-- The decoder rejects an offset outside the window (log 12) and an empty frame, and nothing else: every other offset at any width
(log 19) and every byte is some instruction (20_memory R51, R52; 30_encoding R97). -/
def Obligations.DecoderRejectsExactly : Prop :=
  ∀ (c : Cfg),
    (∀ a : RegAccess, (∃ e, decode c (.access a) = .error e) ↔ c.regWindowLen ≤ a.off) ∧
    (∀ bs : List Byte, (∃ e, decode c (.frame bs) = .error e) ↔ bs = [])

/-- Words of each family, written out from the offsets of 20_memory R51 and the opcode bytes of 30_encoding R90, decode to the
instruction they stand for under the default configuration. That 0x21 holds no register is R52 and R55; that it decodes to the row of
0x1C, and not to another reserved row, is the model's choice (log 11). -/
def Obligations.DefaultWordsDecode : Prop :=
  decode Cfg.default (.access { acc := .write 0x00C00003#32, off := 0x00, width := 4 }) = .ok (.w32Cr 4 0x00C00003#32, []) ∧
  decode Cfg.default (.access { acc := .read, off := 0x08, width := 4 }) = .ok (.r32Sr 4, []) ∧
  decode Cfg.default (.access { acc := .write 0x00000106#32, off := 0x14, width := 4 }) = .ok (.w32Ccr 4 0x00000106#32, []) ∧
  decode Cfg.default (.access { acc := .read, off := 0x20, width := 1 }) = .ok (.r8Dr 1, []) ∧
  decode Cfg.default (.access { acc := .write 0x0000FFFF#32, off := 0x2C, width := 4 }) = .ok (.w32Pir 4 0x0000FFFF#32, []) ∧
  decode Cfg.default (.access { acc := .read, off := 0x21, width := 1 }) = .ok (.reserved1C .read 0x21 1, []) ∧
  decode Cfg.default (.frame [0x06#8, 0x04#8]) = .ok (.wren, [0x04#8]) ∧
  decode Cfg.default (.frame [0x05#8, 0x00#8, 0x05#8]) = .ok (.rdsr [0x00#8], [0x05#8]) ∧
  decode Cfg.default (.frame [0x20#8, 0x00#8, 0x3A#8, 0xBC#8, 0x06#8]) = .ok (.sse [0x00#8, 0x3A#8, 0xBC#8], [0x06#8]) ∧
  decode Cfg.default (.frame [0x02#8, 0x00#8, 0x20#8, 0x00#8, 0xAA#8]) = .ok (.pp [0x00#8, 0x20#8, 0x00#8, 0xAA#8], []) ∧
  decode Cfg.default (.frame [0xEB#8, 0x12#8]) = .ok (.unknown 0xEB#8, [0x12#8])

/-! ### A step -/

/-- A step runs the instruction the next input decodes to, in the state from which that input has been taken (00_scope R3, 30_encoding
R80): a register operation, or in Idle the command at the head of a frame, whose rest stays the next input. -/
def Obligations.StepRunsDecodedInstruction : Prop :=
  ∀ (s : State) (is : List Input) (i : Instr),
    (∀ a : RegAccess, s.inbox = .code (.access a) :: is → decodeAccess s.cfg a = .ok i →
      step s = exec i { s with inbox := is }) ∧
    (∀ bs more : List Byte, s.inbox = .code (.frame bs) :: is → s.f.pstate = .idle → decodeFrame s.cfg bs = .ok (i, more) →
      step s = exec i { s with inbox := if more = [] then is else .code (.frame more) :: is })

/-- Outside Idle a byte of a frame is no opcode: one exchange is made of it (40 R110), refused while the device is deselected
(40 R114). -/
def Obligations.StepOutsideIdleExchangesOneByte : Prop :=
  ∀ (s : State) (is : List Input) (b : Byte) (rest : List Byte),
    s.inbox = .code (.frame (b :: rest)) :: is → s.f.pstate ≠ .idle →
    step s = if s.l.cs then .next (xfer b { s with inbox := if rest = [] then is else .code (.frame rest) :: is }).2
      else .refused .chipSelectDeasserted

/-- A frame driven at device level, taken command by command, does what its bytes do exchanged one after the other (30_encoding R98,
40 R110): some number of steps takes it whole. -/
def Obligations.FrameRunsByteByByte : Prop :=
  ∀ (s : State) (is : List Input) (bs : List Byte), s.l.cs = true → s.inbox = .code (.frame bs) :: is →
    ∃ n, runSteps n s = .next (xferAll bs { s with inbox := is })

/-- The inputs that are no instruction: none at all, chip-select at device level, system reset, the snapshot hook, a write-back
step (00_scope R3, R4, R5; 30_encoding R99). -/
def Obligations.StepTakesPlatformInputs : Prop :=
  ∀ (s : State) (is : List Input),
    (s.inbox = [] → step s = .next s) ∧
    (∀ level, s.inbox = .select level :: is → step s = .next (setCS level { s with inbox := is })) ∧
    (s.inbox = .systemReset :: is → step s = .next (systemReset { s with inbox := is })) ∧
    (s.inbox = .snapshot :: is → step s = .next (beforeSnapshot { s with inbox := is })) ∧
    (s.inbox = .writeBack :: is → step s = .next (writeBackStep { s with inbox := is }))

/-- A bus access at an absolute address reaches the register window as the register operation at its offset (20_memory R51); an
address in neither window faults, which is the model's choice (log 12). -/
def Obligations.BusAccessReachesRegisterWindow : Prop :=
  ∀ (s : State) (is : List Input) (a : BusAccess), s.inbox = .bus a :: is →
    ¬ (s.cfg.mmapBase ≤ a.addr ∧ a.addr < s.cfg.mmapBase + s.cfg.mmapLen) →
    (∀ i, s.cfg.regBase ≤ a.addr → a.addr < s.cfg.regBase + s.cfg.regWindowLen →
      decodeAccess s.cfg { acc := a.acc, off := a.addr - s.cfg.regBase, width := a.width } = .ok i →
      step s = exec i { s with inbox := is }) ∧
    (¬ (s.cfg.regBase ≤ a.addr ∧ a.addr < s.cfg.regBase + s.cfg.regWindowLen) →
      step s = .fault (.addressNotDecoded a.addr))

/-- Any access to the memory-mapped window raises MmapWindowAccess and does nothing else; a read returns some value of its width
(20_memory R53, 60_exceptions R261; how a free value is drawn and returned is the model's, logs 5 and 6). -/
def Obligations.MmapWindowIsReserved : Prop :=
  ∀ (s : State) (is : List Input) (a : BusAccess), s.inbox = .bus a :: is →
    s.cfg.mmapBase ≤ a.addr → a.addr < s.cfg.mmapBase + s.cfg.mmapLen →
    (∀ v, a.acc = .write v → step s = .next { s with inbox := is, diag := s.diag ++ [.mmapWindowAccess a.addr] }) ∧
    (a.acc = .read → ∃ u, u < 2 ^ (8 * a.width) ∧ step s = .next { s with
      inbox := is, diag := s.diag ++ [.mmapWindowAccess a.addr], rdata := u, draws := s.draws + 1 })

/-! ### Host register operations -/

/-- A Control write sets the three latches and, with bit 1, aborts: transfer-complete, no busy, nothing outstanding, FIFO empty.
Link and device stay as they are (41 R121, R122). The bit numbers are the configuration's, by default those of R82. -/
def Obligations.ControlWriteLatchesAndAborts : Prop :=
  ∀ (s : State) (v : Word),
    (v.getLsbD s.cfg.bits.crAbort = false → exec (.w32Cr 4 v) s = .next { s with
      h := { s.h with en := v.getLsbD s.cfg.bits.crEn, apms := v.getLsbD s.cfg.bits.crApms, pmm := v.getLsbD s.cfg.bits.crPmm } }) ∧
    (v.getLsbD s.cfg.bits.crAbort = true → exec (.w32Cr 4 v) s = .next { s with
      h := { s.h with en := v.getLsbD s.cfg.bits.crEn, apms := v.getLsbD s.cfg.bits.crApms, pmm := v.getLsbD s.cfg.bits.crPmm,
                      tcf := true, busy := false, txLeft := 0, fifo := [] } }) ∧
    (Cfg.default.bits.crEn = 0 ∧ Cfg.default.bits.crAbort = 1 ∧ Cfg.default.bits.crApms = 22 ∧ Cfg.default.bits.crPmm = 23)

/-- Every register but DR reads as its layout says and without side effect: CR and SR bit by bit, FCR as 0, the others as they are held
(41 R123, R124, R127, R129, R131, R133, R139); in the default layout CR and SR are the sums of R123 and R124. -/
def Obligations.RegisterReadsHaveNoSideEffect : Prop :=
  ∀ s : State,
    (∃ v : Word, exec (.r32Cr 4) s = .next { s with rdata := v.toNat } ∧ ∀ i < 32, v.getLsbD i =
      (decide (i = s.cfg.bits.crEn) && s.h.en || decide (i = s.cfg.bits.crApms) && s.h.apms ||
        decide (i = s.cfg.bits.crPmm) && s.h.pmm)) ∧
    (∃ v : Word, exec (.r32Sr 4) s = .next { s with rdata := v.toNat } ∧ ∀ i < 32, v.getLsbD i =
      (decide (i = s.cfg.bits.srTef) && s.h.tef || decide (i = s.cfg.bits.srTcf) && s.h.tcf ||
        decide (i = s.cfg.bits.srSmf) && s.h.smf || decide (i = s.cfg.bits.srTof) && s.h.tof ||
        decide (i = s.cfg.bits.srBusy) && s.h.busy)) ∧
    exec (.r32Fcr 4) s = .next { s with rdata := 0 } ∧
    exec (.r32Dlr 4) s = .next { s with rdata := s.h.dlr.toNat * 2 ^ s.cfg.bits.dlr % 2 ^ 32 } ∧
    exec (.r32Ccr 4) s = .next { s with rdata := s.h.ccr.toNat } ∧
    exec (.r32Ar 4) s = .next { s with rdata := s.h.ar.toNat } ∧
    exec (.r32Psmkr 4) s = .next { s with rdata := s.h.psmkr.toNat } ∧
    exec (.r32Psmar 4) s = .next { s with rdata := s.h.psmar.toNat } ∧
    exec (.r32Pir 4) s = .next { s with rdata := s.h.pir.toNat * 2 ^ s.cfg.bits.pir % 2 ^ 32 } ∧
    (s.cfg.bits = Cfg.default.bits →
      exec (.r32Cr 4) s = .next { s with rdata := s.h.en.toNat + 2 ^ 22 * s.h.apms.toNat + 2 ^ 23 * s.h.pmm.toNat } ∧
      exec (.r32Sr 4) s = .next { s with
        rdata := s.h.tef.toNat + 2 * s.h.tcf.toNat + 8 * s.h.smf.toNat + 16 * s.h.tof.toNat + 32 * s.h.busy.toNat } ∧
      exec (.r32Dlr 4) s = .next { s with rdata := s.h.dlr.toNat } ∧
      exec (.r32Pir 4) s = .next { s with rdata := s.h.pir.toNat })

/-- A write to SR changes nothing and raises WriteReadOnly (41 R125). -/
def Obligations.StatusIsReadOnly : Prop :=
  ∀ (s : State) (v : Word),
    exec (.w32Sr 4 v) s = .next { s with diag := s.diag ++ [.writeReadOnly s.cfg.offs.sr] }

/-- A Flag-Clear write clears the flags whose bits are 1 and leaves the others; the bit numbers are those of SR (41 R126, 30_encoding
R84). -/
def Obligations.FlagClearWriteClearsSelected : Prop :=
  ∀ (s : State) (v : Word),
    exec (.w32Fcr 4 v) s = .next { s with h := { s.h with
      tef := if v.getLsbD s.cfg.bits.srTef then false else s.h.tef
      tcf := if v.getLsbD s.cfg.bits.srTcf then false else s.h.tcf
      smf := if v.getLsbD s.cfg.bits.srSmf then false else s.h.smf
      tof := if v.getLsbD s.cfg.bits.srTof then false else s.h.tof } } ∧
    (Cfg.default.bits.srTef = 0 ∧ Cfg.default.bits.srTcf = 1 ∧ Cfg.default.bits.srSmf = 3 ∧ Cfg.default.bits.srTof = 4)

/-- Writes to DLR and the polling registers with the host idle store the value, Data-Length and Interval their fields of it, and do
nothing else (41 R128, R136, R137, R138); by default Data-Length is the whole value and Interval its low 16 bits. -/
def Obligations.PlainRegisterWritesStore : Prop :=
  ∀ (s : State) (v : Word), s.h.busy = false →
    exec (.w32Dlr 4 v) s = .next { s with h := { s.h with
      dlr := BitVec.ofNat 32 (v.toNat / 2 ^ s.cfg.bits.dlr % 2 ^ s.cfg.dlrBits) } } ∧
    exec (.w32Psmkr 4 v) s = .next { s with h := { s.h with psmkr := v } } ∧
    exec (.w32Psmar 4 v) s = .next { s with h := { s.h with psmar := v } } ∧
    exec (.w32Pir 4 v) s = .next { s with h := { s.h with
      pir := BitVec.ofNat 32 (v.toNat / 2 ^ s.cfg.bits.pir % 2 ^ s.cfg.pirBits) } } ∧
    (s.cfg.bits.dlr = 0 → s.cfg.dlrBits = 32 → exec (.w32Dlr 4 v) s = .next { s with h := { s.h with dlr := v } }) ∧
    (s.cfg.bits.pir = 0 → s.cfg.pirBits = 16 →
      exec (.w32Pir 4 v) s = .next { s with h := { s.h with pir := v &&& 0x0000FFFF#32 } }) ∧
    (Cfg.default.bits.dlr = 0 ∧ Cfg.default.dlrBits = 32 ∧ Cfg.default.bits.pir = 0 ∧ Cfg.default.pirBits = 16)

/-- An access of any width but the register's raises AccessWidth and does nothing; a read returns some value of the access's width
(60_exceptions R253; that the run goes on is log 7, how a free value is drawn and returned logs 5 and 6). -/
def Obligations.WrongWidthDoesNothing : Prop :=
  ∀ (s : State) (r : Reg) (w : Nat) (v : Word), w ≠ (if r = .dr then 1 else 4) →
    exec (regWriteInstr w v r) s = .next { s with diag := s.diag ++ [.accessWidth (s.cfg.offset r) w] } ∧
    ∃ u, u < 2 ^ (8 * w) ∧ exec (regReadInstr w r) s = .next { s with
      diag := s.diag ++ [.accessWidth (s.cfg.offset r) w], rdata := u, draws := s.draws + 1 }

/-- While a transaction is in flight a write to DLR, CCR, AR, PSMKR, PSMAR or PIR raises HostBusyWrite and does nothing
(60_exceptions R257). -/
def Obligations.BusyConfigurationWritesIgnored : Prop :=
  ∀ (s : State) (v : Word) (r : Reg), s.h.busy = true → r ∈ [Reg.dlr, .ccr, .ar, .psmkr, .psmar, .pir] →
    exec (regWriteInstr 4 v r) s = .next { s with diag := s.diag ++ [.hostBusyWrite (s.cfg.offset r)] }

/-- An access at an offset that holds no register raises ReservedOffset and does nothing; a read returns some value of its width
(60_exceptions R260; logs 5 and 6). -/
def Obligations.ReservedOffsetsDoNothing : Prop :=
  ∀ (s : State) (off w : Nat) (v : Word),
    exec (.reserved04 (.write v) off w) s = .next { s with diag := s.diag ++ [.reservedOffset off] } ∧
    exec (.reserved1C (.write v) off w) s = .next { s with diag := s.diag ++ [.reservedOffset off] } ∧
    exec (.reserved30 (.write v) off w) s = .next { s with diag := s.diag ++ [.reservedOffset off] } ∧
    ∃ u, u < 2 ^ (8 * w) ∧ ∀ i ∈ [Instr.reserved04 .read off w, .reserved1C .read off w, .reserved30 .read off w],
      exec i s = .next { s with diag := s.diag ++ [.reservedOffset off], rdata := u, draws := s.draws + 1 }

/-- The enable, match-mode and stop-on-match latches gate nothing: every instruction but a Control read or write does the same
whatever they hold and leaves them, and a Control write of full width does not look at them (41 R141, R142). -/
def Obligations.ControlLatchesGateNothing : Prop :=
  ∀ (s : State) (en apms pmm : Bool),
    (∀ i : Instr, (∀ w, i ≠ .r32Cr w) → (∀ w v, i ≠ .w32Cr w v) →
      exec i (withControl en apms pmm s) = onNext (withControl en apms pmm) (exec i s)) ∧
    (∀ v, exec (.w32Cr 4 v) (withControl en apms pmm s) = exec (.w32Cr 4 v) s)

/-! ### Transactions -/

/-- The start-trigger table, over the functional mode and the presence of address and data phase (42 R150). -/
def Obligations.StartTriggerTable : Prop :=
  ∀ (c : Cfg) (ccr : Word) (mode : Nat) (a d : Bool),
    mode = ccr.toNat / 2 ^ c.bits.fmode % 4 → a = decide (ccr.toNat / 2 ^ c.bits.admode % 4 ≠ 0) →
    d = decide (ccr.toNat / 2 ^ c.bits.dmode % 4 ≠ 0) →
    startTrigger c ccr =
      if mode = 0 ∨ mode = 1 then
        if a = false ∧ d = false then .onCCR
        else if a = true ∧ (d = false ∨ mode = 1) then .onAR
        else if mode = 0 ∧ a = false ∧ d = true then .onDR
        else .conflict
      else if mode = 2 then (if a = true then .onAR else .onCCR)
      else .conflict

/-- The bytes of a header: the instruction byte, the low `adsize + 1` bytes of AR most significant first when the address mode is not
0, and one filler a dummy cycle but for the quirk instruction (30_encoding R92, R94; 42 R153, R154). -/
def Obligations.HeaderBytesFollowFields : Prop :=
  ∀ (c : Cfg) (ccr ar : Word) (i y n d : Nat),
    i = ccr.toNat / 2 ^ c.bits.instruction % 256 → y = ccr.toNat / 2 ^ c.bits.dcyc % 32 →
    n = (if ccr.toNat / 2 ^ c.bits.admode % 4 = 0 then 0 else ccr.toNat / 2 ^ c.bits.adsize % 4 + 1) →
    d = (if i = c.quirkInstruction.toNat ∧ y = c.quirkDcyc then c.quirkBytes else y) →
    headerBytes c ccr ar = BitVec.ofNat 8 i ::
      ((List.range n).map (fun j => BitVec.ofNat 8 (ar.toNat / 256 ^ (n - 1 - j))) ++ List.replicate d c.fillerByte)

/-- A CCR or AR write that selects no start here only latches, CCR its nine fields and no reserved bit; one that selects no trigger at
all raises TriggerConsistency as well; where a transaction would start with alternate bytes configured, AlternateBytesUnsupported is
raised instead and none starts (41 R130, R132; 42 R151, R152; 60_exceptions R254, R255; that the run goes on after these two class-F
records is log 7). -/
def Obligations.ConfigurationWriteWithoutStart : Prop :=
  ∀ (s : State) (v x : Word), s.h.busy = false → x = v &&& ccrMask s.cfg →
    ((startTrigger s.cfg x = .onAR ∨ startTrigger s.cfg x = .onDR) →
      exec (.w32Ccr 4 v) s = .next { s with h := { s.h with ccr := x } }) ∧
    (startTrigger s.cfg x = .conflict →
      exec (.w32Ccr 4 v) s = .next { s with h := { s.h with ccr := x }, diag := s.diag ++ [.triggerConsistency x] }) ∧
    ((startTrigger s.cfg s.h.ccr = .onCCR ∨ startTrigger s.cfg s.h.ccr = .onDR) →
      exec (.w32Ar 4 v) s = .next { s with h := { s.h with ar := v } }) ∧
    (startTrigger s.cfg s.h.ccr = .conflict →
      exec (.w32Ar 4 v) s = .next { s with h := { s.h with ar := v }, diag := s.diag ++ [.triggerConsistency s.h.ccr] }) ∧
    (startTrigger s.cfg x = .onCCR → alternateBytes s.cfg x = true →
      exec (.w32Ccr 4 v) s = .next { s with h := { s.h with ccr := x }, diag := s.diag ++ [.alternateBytesUnsupported x] }) ∧
    (startTrigger s.cfg s.h.ccr = .onAR → alternateBytes s.cfg s.h.ccr = true →
      exec (.w32Ar 4 v) s = .next { s with
        h := { s.h with ar := v }, diag := s.diag ++ [.alternateBytesUnsupported s.h.ccr] }) ∧
    (startTrigger s.cfg s.h.ccr = .onDR → alternateBytes s.cfg s.h.ccr = true → s.h.txLeft = 0 →
      exec (.w8Dr 1 v) s = .next { s with diag := s.diag ++ [.alternateBytesUnsupported s.h.ccr] }) ∧
    (∀ i < 32, x.getLsbD i =
      (v.getLsbD i && (ccrFields s.cfg).any (fun p => decide (p.1 ≤ i) && decide (i < p.1 + p.2)))) ∧
    ccrMask Cfg.default = 0x0F7FFFFF#32

/-- A transaction without data phase, started by its CCR or AR write, runs whole inside the write: one frame of the header's bytes,
then transfer-complete with busy clear; the device does what a device-level frame of those bytes does (42 R153, R157). -/
def Obligations.TransactionWithoutDataCompletes : Prop :=
  ∀ (s : State) (v x : Word), s.h.busy = false → x = v &&& ccrMask s.cfg →
    (startTrigger s.cfg x = .onCCR → functionalMode s.cfg x ≠ .autoPolling → alternateBytes s.cfg x = false →
      ∃ t, exec (.w32Ccr 4 v) s = .next t ∧ SameModelSide s t ∧ FrameWithoutData { s with h := { s.h with ccr := x } } t) ∧
    (startTrigger s.cfg s.h.ccr = .onAR → functionalMode s.cfg s.h.ccr ≠ .autoPolling →
      dataPhasePresent s.cfg s.h.ccr = false → alternateBytes s.cfg s.h.ccr = false →
      ∃ t, exec (.w32Ar 4 v) s = .next t ∧ SameModelSide s t ∧ FrameWithoutData { s with h := { s.h with ar := v } } t)

/-- An indirect read with data, started by its AR write, puts the device's replies to DLR + 1 fillers into the FIFO in one frame and
stays busy, transfer-complete as before (42 R156, R163; 30_encoding R93). -/
def Obligations.IndirectReadFillsFifo : Prop :=
  ∀ (s : State) (v : Word) (head fillers : List Byte), s.h.busy = false → s.h.fifo = [] →
    startTrigger s.cfg s.h.ccr = .onAR → functionalMode s.cfg s.h.ccr = .indirectRead →
    dataPhasePresent s.cfg s.h.ccr = true → alternateBytes s.cfg s.h.ccr = false →
    head = headerBytes s.cfg s.h.ccr v → fillers = List.replicate (s.h.dlr.toNat + 1) s.cfg.fillerByte →
    ∃ t : State,
      exec (.w32Ar 4 v) s = .next t ∧ SameModelSide s t ∧
      t.h = { s.h with ar := v, busy := true, fifo := replies fillers (xferAll head (setCS true s)) } ∧
      oneFrame s t (head ++ fillers) ∧ SameAsFrame s t (head ++ fillers)

/-- A Fast-Read by indirect read, with as many address bytes and dummy cycles as the device takes, puts the DLR + 1 storage bytes from
the address on into the FIFO, wrapping at the capacity, and changes no storage byte (43 R189, 20_memory R59, 42 R164). -/
def Obligations.FastReadReturnsStorage : Prop :=
  ∀ (s : State) (v : Word), s.cfg.shapeOk = true → s.h.busy = false → s.h.fifo = [] → s.f.pstate = .idle →
    functionalMode s.cfg s.h.ccr = .indirectRead → addressPhase s.cfg s.h.ccr = true →
    dataPhasePresent s.cfg s.h.ccr = true → alternateBytes s.cfg s.h.ccr = false →
    ccrInstruction s.cfg s.h.ccr = s.cfg.ops.fread → addressSize s.cfg s.h.ccr = s.cfg.addrBytes →
    dummyBytes s.cfg s.h.ccr = s.cfg.fastReadDummy →
    ∃ t, exec (.w32Ar 4 v) s = .next t ∧
      t.h = { s.h with
        ar := v, busy := true
        fifo := storageRead s (v.toNat % 2 ^ (8 * s.cfg.addrBytes) % 2 ^ 24) (s.h.dlr.toNat + 1) } ∧
      sameStorage s t ∧ t.diag = s.diag ∧ t.f.sr = s.f.sr ∧
      oneFrame s t (headerBytes s.cfg s.h.ccr v ++ List.replicate (s.h.dlr.toNat + 1) s.cfg.fillerByte)

/-- A byte read of DR pops the FIFO, and the pop that empties it clears busy and sets transfer-complete; with nothing in the FIFO it
raises FifoUnderflow, changes nothing and returns some byte (41 R135, 60_exceptions R259; logs 5 and 6). -/
def Obligations.DataReadPopsFifo : Prop :=
  ∀ s : State,
    (∀ b bs, s.h.fifo = b :: bs →
      exec (.r8Dr 1) s = .next { s with
        h := if bs = [] then { s.h with fifo := [], busy := false, tcf := true } else { s.h with fifo := bs }
        rdata := b.toNat }) ∧
    (s.h.fifo = [] → ∃ u, u < 256 ∧
      exec (.r8Dr 1) s = .next { s with diag := s.diag ++ [.fifoUnderflow], rdata := u, draws := s.draws + 1 })

/-- A byte write to DR outside indirect-write, or with no write in flight and another trigger than Data, raises
DataWriteNoTransaction and does nothing (60_exceptions R258). -/
def Obligations.DataWriteWithoutTransaction : Prop :=
  ∀ (s : State) (v : Word),
    (functionalMode s.cfg s.h.ccr ≠ .indirectWrite ∨ (s.h.txLeft = 0 ∧ startTrigger s.cfg s.h.ccr ≠ .onDR)) →
    exec (.w8Dr 1 v) s = .next { s with diag := s.diag ++ [.dataWriteNoTransaction (v.extractLsb' 0 8)] }

/-- A byte write to DR with an indirect write in flight is one exchange; the last outstanding one also releases chip-select, sets
transfer-complete and clears busy (42 R161). With the device deselected, where only a device-level `CS-` leads, it is refused (40 R114;
log 10). -/
def Obligations.DataWriteSendsOneByte : Prop :=
  ∀ (s : State) (v : Word) (b : Byte), functionalMode s.cfg s.h.ccr = .indirectWrite → 0 < s.h.txLeft →
    b = v.extractLsb' 0 8 →
    (s.l.cs = true → ∃ t : State, exec (.w8Dr 1 v) s = .next t ∧ SameModelSide s t ∧
      (1 < s.h.txLeft →
        t.h = { s.h with txLeft := s.h.txLeft - 1 } ∧ t.l.cs = true ∧
        t.l.trace = s.l.trace ++ [.xfer b (xfer b s).1] ∧ t.f = (xfer b s).2.f ∧ t.b = (xfer b s).2.b ∧
        t.diag = (xfer b s).2.diag) ∧
      (s.h.txLeft = 1 →
        t.h = { s.h with txLeft := 0, tcf := true, busy := false } ∧ t.l.cs = false ∧
        t.l.trace = s.l.trace ++ [.xfer b (xfer b s).1, .cs false] ∧ t.f = (setCS false (xfer b s).2).f ∧
        t.b = (setCS false (xfer b s).2).b ∧ t.diag = (xfer b s).2.diag)) ∧
    (s.l.cs = false → exec (.w8Dr 1 v) s = .refused .chipSelectDeasserted)

/-- The host data-length law (42 R162): with Data-Length N an indirect write completes exactly on the (N + 1)-th byte written to DR,
and header and data bytes are one frame. -/
def Obligations.HostDataLengthLaw : Prop :=
  ∀ (s : State) (bs : List Byte), HostInv s.cfg s.h → s.h.tcf = false → s.h.busy = false →
    startTrigger s.cfg s.h.ccr = .onDR → alternateBytes s.cfg s.h.ccr = false →
    (1 ≤ bs.length → bs.length ≤ s.h.dlr.toNat →
      ∃ t, execAll (dataWrites bs) s = .next t ∧ t.h.tcf = false ∧ t.h.busy = true ∧ t.l.cs = true ∧
        t.h.txLeft = s.h.dlr.toNat + 1 - bs.length) ∧
    (bs.length = s.h.dlr.toNat + 1 →
      ∃ t, execAll (dataWrites bs) s = .next t ∧ t.h = { s.h with tcf := true, busy := false } ∧
        oneFrame s t (headerBytes s.cfg s.h.ccr s.h.ar ++ bs) ∧ SameAsFrame s t (headerBytes s.cfg s.h.ccr s.h.ar ++ bs))

/-- Auto-polling, started by its CCR or AR write, runs whole inside the write, is bounded by the interval, and ends with status-match
on the first matching response or with timeout; transfer-complete is not set (42 R158, R159). The budget is POLL_BUDGET of the
configuration, by default Interval plus 1 (00_scope R8; how other budgets are written down is log 2). -/
def Obligations.AutoPollingEndsWithMatchOrTimeout : Prop :=
  ∀ (s : State) (v x : Word), s.h.busy = false → x = v &&& ccrMask s.cfg →
    (startTrigger s.cfg x = .onCCR → functionalMode s.cfg x = .autoPolling → alternateBytes s.cfg x = false →
      ∃ t, exec (.w32Ccr 4 v) s = .next t ∧ SameModelSide s t ∧ AutoPolled { s with h := { s.h with ccr := x } } t) ∧
    (startTrigger s.cfg s.h.ccr = .onAR → functionalMode s.cfg s.h.ccr = .autoPolling → alternateBytes s.cfg s.h.ccr = false →
      ∃ t, exec (.w32Ar 4 v) s = .next t ∧ SameModelSide s t ∧ AutoPolled { s with h := { s.h with ar := v } } t) ∧
    (s.cfg.pollBudgets = [] → pollBudget s.cfg s.h.pir = s.h.pir.toNat + 1) ∧ Cfg.default.pollBudgets = [] ∧
    Cfg.default.pollResponseBytes = 4

/-- Polling the status register for busy clear, whatever the data mode and `imode`, succeeds on the second iteration: the first read
returns busy and clears it (42 R158, 44 R227, 70 R292). -/
def Obligations.PollingSeesBusyOnce : Prop :=
  ∀ (s : State) (v x : Word) (busy : Nat), s.cfg.shapeOk = true → s.h.busy = false → s.f.pstate = .idle →
    busy = s.cfg.srBusyBit → s.f.sr.getLsbD busy = true → s.f.srClear = 1#8 <<< busy →
    s.h.psmkr = 1#32 <<< busy → s.h.psmar = 0#32 → 2 ≤ pollBudget s.cfg s.h.pir → 1 ≤ s.cfg.pollResponseBytes →
    x = v &&& ccrMask s.cfg → startTrigger s.cfg x = .onCCR → functionalMode s.cfg x = .autoPolling →
    alternateBytes s.cfg x = false → ccrInstruction s.cfg x = s.cfg.ops.rdsr → dummyBytes s.cfg x = 0 →
    ∃ t, exec (.w32Ccr 4 v) s = .next t ∧ t.h = { s.h with ccr := x, smf := true } ∧
      oneFrame s t (s.cfg.ops.rdsr :: pollBytes s.cfg.pollResponseBytes s.cfg.fillerByte s.cfg.ops.rdsr 2) ∧
      t.f.sr = s.f.sr &&& ~~~(1#8 <<< busy) ∧ t.f.srClear = 0#8

/-! ### Flash commands -/

/-- At device level a flash command is the exchange of its bytes, whatever the parser state, and is refused while the device is
deselected (40 R110, R114). -/
def Obligations.FlashCommandExchangesItsBytes : Prop :=
  ∀ (s : State) (k : FlashCmd) (ops : List Byte) (b : Byte),
    (s.l.cs = true →
      (k ∉ [FlashCmd.rsten, .rst, .wren, .wrdi, .esus, .eres, .dslp, .wake, .qen] →
        exec (flashInstr ops k) s = .next (xferAll (s.cfg.opByte k :: ops) s)) ∧
      (k ∈ [FlashCmd.rsten, .rst, .wren, .wrdi, .esus, .eres, .dslp, .wake, .qen] →
        exec (flashInstr ops k) s = .next (xferAll [s.cfg.opByte k] s)) ∧
      exec (.unknown b) s = .next (xferAll [b] s)) ∧
    (s.l.cs = false →
      exec (flashInstr ops k) s = .refused .chipSelectDeasserted ∧ exec (.unknown b) s = .refused .chipSelectDeasserted)

/-- Write-Enable and Write-Disable set and clear the write-enabled bit of the status register, Erase-Suspend and Erase-Resume set and
clear the erase-suspended bit of the flag-status register, by default bits 1 and 6; Reset-Enable arms the latch; beyond the common part
of an opcode nothing else changes (43 R181, R183, R184, R194, R195). -/
def Obligations.LatchCommandsSetOneBit : Prop :=
  ∀ s : State, readyForOpcode s →
    exec .wren s = .next ((afterOpcode s.cfg.ops.wren s).mapF (fun f => { f with sr := s.f.sr ||| 1#8 <<< s.cfg.srWelBit })) ∧
    exec .wrdi s = .next ((afterOpcode s.cfg.ops.wrdi s).mapF (fun f => { f with sr := s.f.sr &&& ~~~(1#8 <<< s.cfg.srWelBit) })) ∧
    exec .esus s = .next ((afterOpcode s.cfg.ops.esus s).mapF (fun f => { f with fsr := s.f.fsr ||| 1#8 <<< s.cfg.fsrEsBit })) ∧
    exec .eres s = .next ((afterOpcode s.cfg.ops.eres s).mapF (fun f => { f with fsr := s.f.fsr &&& ~~~(1#8 <<< s.cfg.fsrEsBit) })) ∧
    exec .rsten s = .next ((afterOpcode s.cfg.ops.rsten s).mapF (fun f => { f with resetArmed := true })) ∧
    (Cfg.default.srWelBit = 1 ∧ Cfg.default.fsrEsBit = 6)

/-- Deep-Sleep, Wake and Quad-Enable have no effect beyond the common part of an opcode (43 R196, R197, R198). -/
def Obligations.RecognisedNoOperations : Prop :=
  ∀ s : State, readyForOpcode s →
    exec .dslp s = .next (afterOpcode s.cfg.ops.dslp s) ∧
    exec .wake s = .next (afterOpcode s.cfg.ops.wake s) ∧
    exec .qen s = .next (afterOpcode s.cfg.ops.qen s)

/-- A Reset right after a Reset-Enable gives every device register its reset value and touches nothing else; any other Reset raises
UnarmedReset and does nothing beyond the common part of an opcode (43 R182, R203). -/
def Obligations.ResetNeedsArming : Prop :=
  ∀ s : State, readyForOpcode s →
    (s.f.resetArmed = true →
      exec .rst s = .next ((afterOpcode s.cfg.ops.rst s).mapF (fun f => { f with
        pstate := .idle, cmd := 0#8, pos := 0, acc := 0#24, cur := 0, sr := 0#8, srClear := 0#8,
        fsr := s.cfg.fsrReset, cfgReg := s.cfg.cfgReset, resetArmed := false }))) ∧
    (s.f.resetArmed = false →
      exec .rst s = .next { afterOpcode s.cfg.ops.rst s with diag := s.diag ++ [.unarmedReset] })

/-- Any byte that is none of the 18 opcodes raises UnknownOpcode in Idle and leaves the device there (43 R199, 30_encoding R97). -/
def Obligations.UnknownOpcodeIsLogged : Prop :=
  ∀ (s : State) (b : Byte), readyForOpcode s → (∀ k : FlashCmd, s.cfg.opByte k ≠ b) →
    exec (.unknown b) s = .next { afterOpcode b s with diag := s.diag ++ [.unknownOpcode b] }

/-- Write-Register stores its byte in the configuration register, with no need of the write-enable latch and no effect on it or on
busy (43 R185). -/
def Obligations.WriteRegisterStoresByte : Prop :=
  ∀ (s : State) (d : Byte), readyForOpcode s →
    exec (.wrreg [d]) s = .next { s with
      l := { s.l with trace := s.l.trace ++ silentExchanges s [s.cfg.ops.wrreg, d] }
      f := { s.f with resetArmed := false, cmd := s.cfg.ops.wrreg, pos := 1, acc := d.setWidth 24, cfgReg := d } }

/-- The three register reads return their register in one exchange; the status read then applies and drops the post-read clear mask,
the others change nothing (43 R186, R187, R188; 44 R226, R227). -/
def Obligations.RegisterReadsReturnRegister : Prop :=
  ∀ (s : State) (x : Byte), readyForOpcode s →
    exec (.rdsr [x]) s = .next { s with
      l := { s.l with trace := s.l.trace ++ [.xfer s.cfg.ops.rdsr s.cfg.defaultMiso, .xfer x s.f.sr] }
      f := { s.f with resetArmed := false, cmd := s.cfg.ops.rdsr, pos := 0, acc := 0#24,
                      sr := s.f.sr &&& ~~~s.f.srClear, srClear := 0#8 } } ∧
    exec (.rdfsr [x]) s = .next { s with
      l := { s.l with trace := s.l.trace ++ [.xfer s.cfg.ops.rdfsr s.cfg.defaultMiso, .xfer x s.f.fsr] }
      f := { s.f with resetArmed := false, cmd := s.cfg.ops.rdfsr, pos := 0, acc := 0#24 } } ∧
    exec (.rdcfg [x]) s = .next { s with
      l := { s.l with trace := s.l.trace ++ [.xfer s.cfg.ops.rdcfg s.cfg.defaultMiso, .xfer x s.f.cfgReg] }
      f := { s.f with resetArmed := false, cmd := s.cfg.ops.rdcfg, pos := 0, acc := 0#24 } }

/-- The identification law: Read-Identification returns the same three bytes whatever the state before, and the device is back in Idle
after the third (43 R190, 44 R225). -/
def Obligations.IdentificationLaw : Prop :=
  ∀ (s : State) (x y z : Byte), readyForOpcode s →
    exec (.rdid [x, y, z]) s = .next { s with
      l := { s.l with trace := s.l.trace ++ [.xfer s.cfg.ops.rdid s.cfg.defaultMiso,
        .xfer x s.cfg.id0, .xfer y s.cfg.id1, .xfer z s.cfg.id2] }
      f := { s.f with resetArmed := false, cmd := s.cfg.ops.rdid, pos := 3, acc := 0#24 } }

/-- A Fast-Read at device level answers its dummy bytes with DEFAULT_MISO and then streams storage from the address on, wrapping at
the capacity; only the streaming address moves (43 R189, 44 R224). -/
def Obligations.FastReadStreamsStorage : Prop :=
  ∀ (s : State) (addr dummies outs : List Byte), readyForOpcode s → addr ≠ [] → addr.length = s.cfg.addrBytes →
    dummies.length = s.cfg.fastReadDummy →
    exec (.fread (addr ++ dummies ++ outs)) s = .next { s with
      l := { s.l with trace := s.l.trace ++ silentExchanges s (s.cfg.ops.fread :: (addr ++ dummies)) ++
                               exchanges outs (storageRead s (addressOf addr) outs.length) }
      f := { s.f with resetArmed := false, cmd := s.cfg.ops.fread, pos := s.cfg.addrBytes + s.cfg.fastReadDummy,
                      acc := BitVec.ofNat 24 (addressOf addr), cur := (addressOf addr + outs.length) % s.cfg.capacity,
                      pstate := .reading } }

/-- A Page-Program with the write-enable latch set stores each byte that falls inside storage ANDed with what stood there, from the
address on and across page boundaries, warns of each byte that would set a bit, drops each byte at or past the capacity with
WriteOutOfBounds, sets busy and arms its clear, keeps the latch, and leaves the last stored byte's page dirty; with a backing and no
page dirty before, every page it leaves is queued whole, in order (43 R191; 44 R220, R221, R223, R229, R230, R234). -/
def Obligations.PageProgramStoresMaskedBytes : Prop :=
  ∀ (s : State) (addr data : List Byte) (a room page : Nat), readyForOpcode s → Memory.wf s.f.storage = true →
    s.f.sr.getLsbD s.cfg.srWelBit = true → addr ≠ [] → addr.length = s.cfg.addrBytes →
    a = addressOf addr → room = s.cfg.capacity - a → page = s.cfg.pageSize →
    ∃ t, exec (.pp (addr ++ data)) s = .next t ∧ SameHostSide s t ∧
      (∀ x, t.f.storage.read x =
        if a ≤ x ∧ x < a + data.length ∧ x < s.cfg.capacity
        then data.getD (x - a) 0#8 &&& s.f.storage.read x else s.f.storage.read x) ∧
      t.f = { s.f with
        resetArmed := false, cmd := s.cfg.ops.pp, pos := s.cfg.addrBytes, acc := BitVec.ofNat 24 a, pstate := .writing,
        cur := a + data.length, sr := s.f.sr ||| 1#8 <<< s.cfg.srBusyBit, srClear := s.f.srClear ||| 1#8 <<< s.cfg.srBusyBit,
        storage := t.f.storage,
        dirty := if data = [] ∨ room = 0 then s.f.dirty else some ((a + min data.length room - 1) / page) } ∧
      t.l.trace = s.l.trace ++ silentExchanges s (s.cfg.ops.pp :: (addr ++ data)) ∧
      t.diag = s.diag ++ programWarnings s.f.storage a (data.take room) ++ outOfBoundsRecords (a + room) (data.drop room) ∧
      t.b.image = s.b.image ∧ (s.cfg.hasBacking = false → t.b.queue = s.b.queue) ∧
      (s.cfg.hasBacking = true → s.f.dirty = none → ∃ es, t.b.queue = s.b.queue ++ es ∧
        es.map (fun p => (p.off, p.bytes)) =
          (List.range ((a + min data.length room - 1) / page - a / page)).map (fun j =>
            ((a / page + j) * page, t.f.storage.bytes ((a / page + j) * page) page)))

/-- A program byte whose target is at or past the capacity is stored nowhere and raises WriteOutOfBounds; the streaming address moves
on, so every later byte of the frame is out of bounds too (44 R223, 20_memory R60). -/
def Obligations.ProgramOutOfBoundsIsReported : Prop :=
  ∀ (s : State) (bs : List Byte), s.f.pstate = .writing → s.f.sr.getLsbD s.cfg.srWelBit = true → s.cfg.capacity ≤ s.f.cur →
    xferAll bs s = { s with
      l := { s.l with trace := s.l.trace ++ silentExchanges s bs }
      f := { s.f with cur := s.f.cur + bs.length }
      diag := s.diag ++ outOfBoundsRecords s.f.cur bs }

/-- The write-protect law: without the write-enable latch a Page-Program only moves to Writing and drops its bytes, and an erase does
nothing; no diagnostic, no busy, no dirty page, nothing queued (44 R222). -/
def Obligations.WriteProtectLaw : Prop :=
  ∀ (s : State) (addr data : List Byte), readyForOpcode s → s.f.sr.getLsbD s.cfg.srWelBit = false →
    addr ≠ [] → addr.length = s.cfg.addrBytes →
    exec (.pp (addr ++ data)) s = .next { s with
      l := { s.l with trace := s.l.trace ++ silentExchanges s (s.cfg.ops.pp :: (addr ++ data)) }
      f := { s.f with resetArmed := false, cmd := s.cfg.ops.pp, pos := s.cfg.addrBytes,
                      acc := BitVec.ofNat 24 (addressOf addr), pstate := .writing, cur := addressOf addr + data.length } } ∧
    exec (.sse addr) s = .next { s with
      l := { s.l with trace := s.l.trace ++ silentExchanges s (s.cfg.ops.sse :: addr) }
      f := { s.f with resetArmed := false, cmd := s.cfg.ops.sse, pos := s.cfg.addrBytes,
                      acc := BitVec.ofNat 24 (addressOf addr) } } ∧
    exec (.be addr) s = .next { s with
      l := { s.l with trace := s.l.trace ++ silentExchanges s (s.cfg.ops.be :: addr) }
      f := { s.f with resetArmed := false, cmd := s.cfg.ops.be, pos := s.cfg.addrBytes,
                      acc := BitVec.ofNat 24 (addressOf addr) } }

/-- An erase with the write-enable latch set whose aligned region starts inside storage makes that region all 0xFF and leaves every
other byte, sets busy and arms its clear, and with a backing queues the region as all 0xFF (43 R192, R193, R202; 20_memory R61). -/
def Obligations.EraseFillsAlignedRegion : Prop :=
  ∀ (s : State) (addr : List Byte) (i : Instr) (op : Byte) (a size : Nat),
    (i = .sse addr ∧ op = s.cfg.ops.sse ∧ size = s.cfg.subsectorSize ∨
      i = .be addr ∧ op = s.cfg.ops.be ∧ size = s.cfg.blockSize) →
    readyForOpcode s → s.f.sr.getLsbD s.cfg.srWelBit = true → addr ≠ [] → addr.length = s.cfg.addrBytes →
    a = addressOf addr → a - a % size < s.cfg.capacity →
    ∃ t, exec i s = .next t ∧ SameHostSide s t ∧ erasedRegion s t a size ∧
      t.f = { s.f with resetArmed := false, cmd := op, pos := s.cfg.addrBytes, acc := BitVec.ofNat 24 a,
                       storage := t.f.storage, sr := s.f.sr ||| 1#8 <<< s.cfg.srBusyBit,
                       srClear := s.f.srClear ||| 1#8 <<< s.cfg.srBusyBit } ∧
      t.l.trace = s.l.trace ++ silentExchanges s (op :: addr) ∧ t.diag = s.diag ∧ t.b.image = s.b.image ∧
      (s.cfg.hasBacking = false → t.b.queue = s.b.queue) ∧
      (s.cfg.hasBacking = true → ∃ p, t.b.queue = s.b.queue ++ [p] ∧
        p.off = a - a % size ∧ p.bytes = List.replicate size 0xFF#8)

/-- An erase whose aligned region starts at or past the capacity raises EraseOutOfBounds and does nothing else (60_exceptions R265).
-/
def Obligations.EraseOutOfBoundsIsReported : Prop :=
  ∀ (s : State) (addr : List Byte) (a : Nat), readyForOpcode s → s.f.sr.getLsbD s.cfg.srWelBit = true →
    addr ≠ [] → addr.length = s.cfg.addrBytes → a = addressOf addr →
    (s.cfg.capacity ≤ a - a % s.cfg.subsectorSize →
      exec (.sse addr) s = .next { s with
        l := { s.l with trace := s.l.trace ++ silentExchanges s (s.cfg.ops.sse :: addr) }
        f := { s.f with resetArmed := false, cmd := s.cfg.ops.sse, pos := s.cfg.addrBytes, acc := BitVec.ofNat 24 a }
        diag := s.diag ++ [.eraseOutOfBounds a] }) ∧
    (s.cfg.capacity ≤ a - a % s.cfg.blockSize →
      exec (.be addr) s = .next { s with
        l := { s.l with trace := s.l.trace ++ silentExchanges s (s.cfg.ops.be :: addr) }
        f := { s.f with resetArmed := false, cmd := s.cfg.ops.be, pos := s.cfg.addrBytes, acc := BitVec.ofNat 24 a }
        diag := s.diag ++ [.eraseOutOfBounds a] })

/-- A command cut off by a deselect before its last needed byte has no effect beyond the common part of its opcode; the deselect
clears position and accumulator and flushes a page that was dirty before (44 R228, 43 R200). -/
def Obligations.TruncatedCommandIsAbandoned : Prop :=
  ∀ (s : State) (k : FlashCmd) (ops : List Byte), readyForOpcode s → ops.length < formatLength s.cfg k →
    ∃ t, exec (flashInstr ops k) s = .next t ∧ SameHostSide s t ∧ t.diag = s.diag ∧ t.b = s.b ∧
      (setCS false t).f = { s.f with resetArmed := false, cmd := s.cfg.opByte k, pos := 0, acc := 0#24, dirty := none } ∧
      (setCS false t).diag = s.diag ∧ (setCS false t).b = (beforeSnapshot s).b ∧ (setCS false t).h = s.h

/-- Deasserting chip-select flushes the dirty page and returns the device to Idle with position and accumulator cleared, whatever the
level was, and touches nothing else; asserting it changes nothing in the device (40 R111, R112, R113; 44 R228). -/
def Obligations.DeselectReturnsToIdle : Prop :=
  ∀ s : State,
    (setCS false s).f = { s.f with pstate := .idle, pos := 0, acc := 0#24, dirty := none } ∧
    (setCS false s).l = { cs := false, trace := s.l.trace ++ [.cs false] } ∧
    (setCS false s).b = (beforeSnapshot s).b ∧ (setCS false s).h = s.h ∧ (setCS false s).diag = s.diag ∧
    SameModelSide s (setCS false s) ∧
    (setCS true s) = { s with l := { cs := true, trace := s.l.trace ++ [.cs true] } } ∧
    (s.f.pstate = .idle → s.f.pos = 0 → s.f.acc = 0#24 → s.f.dirty = none →
      setCS false s = { s with l := { cs := false, trace := s.l.trace ++ [.cs false] } })

/-! ### Storage -/

/-- One exchange leaves storage alone; or it programs the byte at the streaming address by clearing bits, in Writing with the latch set;
or it is the last address byte of an erase with the latch set, and the aligned region of the collected address becomes 0xFF (10_state
R46 (g); 44 R220, R221; 43 R202). -/
def Obligations.StorageChangesOnlyByProgramOrErase : Prop :=
  ∀ (s : State) (b : Byte) (a : Nat), Memory.wf s.f.storage = true → a = (s.f.acc.toNat * 256 + b.toNat) % 2 ^ 24 →
    sameStorage s (xfer b s).2 ∨
    (s.f.pstate = .writing ∧ s.f.sr.getLsbD s.cfg.srWelBit = true ∧ s.f.cur < s.cfg.capacity ∧
      ∀ x, (xfer b s).2.f.storage.read x = if x = s.f.cur then b &&& s.f.storage.read x else s.f.storage.read x) ∨
    (s.f.pstate = .collectingCommandData ∧ s.f.pos + 1 = s.cfg.addrBytes ∧ s.f.sr.getLsbD s.cfg.srWelBit = true ∧
      (flashCmdOf s.cfg s.f.cmd = some .sse ∧ erasedRegion s (xfer b s).2 a s.cfg.subsectorSize ∨
       flashCmdOf s.cfg s.f.cmd = some .be ∧ erasedRegion s (xfer b s).2 a s.cfg.blockSize))

/-- The write-enable latch protects storage: while it is clear, no run of bytes that meets no Write-Enable opcode in Idle, though its
value may stand among address and data bytes, changes a storage byte, sets busy, queues a write or sets the latch (44 R222, 10_state
R36). -/
def Obligations.LatchProtectsStorage : Prop :=
  ∀ (s : State) (bs : List Byte), s.f.sr.getLsbD s.cfg.srWelBit = false →
    (∀ pre b post, bs = pre ++ b :: post → (xferAll pre s).f.pstate = .idle → b ≠ s.cfg.ops.wren) →
    (xferAll bs s).f.storage = s.f.storage ∧ (xferAll bs s).f.sr.getLsbD s.cfg.srWelBit = false ∧
    ((xferAll bs s).f.sr.getLsbD s.cfg.srBusyBit = true → s.f.sr.getLsbD s.cfg.srBusyBit = true) ∧
    (xferAll bs s).b = s.b ∧ (xferAll bs s).f.dirty = s.f.dirty

/-- The dirty page: the snapshot hook queues a copy of it when a backing is attached and forgets the index either way, and with no dirty
page changes nothing; a programmed byte makes its page the dirty one, and where another page was dirty queues that page first (44
R229, R230, R232). -/
def Obligations.DirtyPageIsFlushed : Prop :=
  ∀ s : State,
    (s.f.dirty = none → beforeSnapshot s = s) ∧
    (∀ q, s.f.dirty = some q →
      (s.cfg.hasBacking = false → beforeSnapshot s = { s with f := { s.f with dirty := none } }) ∧
      (s.cfg.hasBacking = true → ∃ p : PendingWrite,
        beforeSnapshot s = { s with f := { s.f with dirty := none }, b := { s.b with queue := s.b.queue ++ [p] } } ∧
        p.off = q * s.cfg.pageSize ∧
        p.bytes = (List.range s.cfg.pageSize).map (fun i => s.f.storage.read (q * s.cfg.pageSize + i)))) ∧
    (∀ b, s.f.pstate = .writing → s.f.sr.getLsbD s.cfg.srWelBit = true → s.f.cur < s.cfg.capacity →
      (xfer b s).2.f.dirty = some (s.f.cur / s.cfg.pageSize) ∧ (xfer b s).2.b.image = s.b.image ∧
      ((s.f.dirty = none ∨ s.f.dirty = some (s.f.cur / s.cfg.pageSize) ∨ s.cfg.hasBacking = false) →
        (xfer b s).2.b.queue = s.b.queue) ∧
      (∀ q, s.f.dirty = some q → q ≠ s.f.cur / s.cfg.pageSize → s.cfg.hasBacking = true →
        ∃ p : PendingWrite, (xfer b s).2.b.queue = s.b.queue ++ [p] ∧ p.off = q * s.cfg.pageSize ∧
          p.bytes = (List.range s.cfg.pageSize).map (fun i => s.f.storage.read (q * s.cfg.pageSize + i))))

/-- A write-back step applies the oldest queued write whole and removes it, and touches nothing but the backing (44 R233); with nothing
queued, where R233 gives no step, it does nothing (log 14). -/
def Obligations.WriteBackAppliesOldestWrite : Prop :=
  ∀ s : State,
    (s.b.queue = [] → writeBackStep s = s) ∧
    (∀ p q, s.b.queue = p :: q → Memory.wf s.b.image = true → pendingOk s.cfg p →
      ∃ m : Memory, writeBackStep s = { s with b := { image := m, queue := q } } ∧ Memory.wf m = true ∧
        ∀ a, m.read a = if p.off ≤ a ∧ a < p.off + p.len then p.bytes.getD (a - p.off) 0#8 else s.b.image.read a)

/-- Once every queued write is applied, the image is the storage outside the dirty page: every step keeps this (20_memory R67, 44
R229 to R233). -/
def Obligations.StepKeepsImageFollowing : Prop :=
  ∀ s t : State, CoreInv s → ImageFollows s → step s = .next t → ImageFollows t

/-- No outcome depends on the backing: from states that differ in the backing alone, a step has the same outcome but for the backing
(00_scope R5, 20_memory R66). -/
def Obligations.BackingIsNeverRead : Prop :=
  ∀ (s : State) (b : Backing),
    onNext (withBacking b) (step (withBacking b s)) = onNext (withBacking b) (step s)

/-! ### Reset -/

/-- The state after construction (10_state R47, 70 R280; the values of the model's own fields are logs 4, 5 and 6). -/
def Obligations.ConstructionValues : Prop :=
  ∀ c : Cfg,
    (construct c = .refused .badConfiguration ∧ cfgOk c = false) ∨
    (cfgOk c = true ∧ construct c = .next
      { cfg := c
        h := { en := false, apms := false, pmm := false, tef := false, tcf := false, smf := false, tof := false,
               busy := false, dlr := 0#32, ccr := 0#32, ar := 0#32, psmkr := 0#32, psmar := 0#32, pir := 0#32,
               fifo := [], txLeft := 0 }
        l := { cs := false, trace := [] }
        f := { pstate := .idle, cmd := 0#8, pos := 0, acc := 0#24, cur := 0, sr := 0#8, srClear := 0#8,
               fsr := c.fsrReset, cfgReg := c.cfgReset, resetArmed := false,
               storage := if c.hasBacking then c.initialImage else [], dirty := none }
        b := { image := if c.hasBacking then c.initialImage else [], queue := [] }
        diag := [], inbox := [], rdata := 0, draws := 0 })

/-- System reset: a deselect first, which flushes the dirty page; then host controller and device registers at their reset values;
storage, image and diagnostics stay, and so does the write-back queue but for that flush (70 R281, R282, R283). That the model's own fields stay is log 18. -/
def Obligations.SystemResetValues : Prop :=
  ∀ s : State,
    systemReset s = { s with
      h := { en := false, apms := false, pmm := false, tef := false, tcf := false, smf := false, tof := false,
             busy := false, dlr := 0#32, ccr := 0#32, ar := 0#32, psmkr := 0#32, psmar := 0#32, pir := 0#32,
             fifo := [], txLeft := 0 }
      l := { cs := false, trace := s.l.trace ++ [.cs false] }
      f := { pstate := .idle, cmd := 0#8, pos := 0, acc := 0#24, cur := 0, sr := 0#8, srClear := 0#8,
             fsr := s.cfg.fsrReset, cfgReg := s.cfg.cfgReset, resetArmed := false,
             storage := s.f.storage, dirty := none }
      b := (beforeSnapshot s).b }

/-! ### Invariants -/

/-- The invariants hold after construction with any configuration that R10 allows, so at reset (10_state R46, R47). What they presume of
the layout beyond R10 is log 23; the defaults meet it. -/
def Obligations.ConstructionMeetsInvariants : Prop :=
  (∀ c : Cfg, cfgOk c = true →
    (c.layoutOk = true → CoreInv (State.construct c)) ∧ LinkInv (State.construct c) ∧ ImageFollows (State.construct c)) ∧
  State.reset = State.construct Cfg.default ∧ cfgOk Cfg.default = true ∧ Cfg.default.layoutOk = true

/-- Every step keeps the invariant, whatever the input (10_state R46 (a) to (e), R25, R26, R28, R36 to R38, R42; 44 R229;
60_exceptions R274). -/
def Obligations.StepKeepsCoreInvariant : Prop :=
  ∀ s t : State, CoreInv s → step s = .next t → CoreInv t

/-- Every step keeps the link's invariant, but for a device-level deassertion driven into an open indirect write, which no host
operation causes (10_state R46 (b), 70 R303). -/
def Obligations.StepKeepsLinkInvariant : Prop :=
  ∀ s t : State, CoreInv s → LinkInv s → deselectAllowed s → step s = .next t → LinkInv t

/-- The end of a run: an idle host has nothing outstanding and an empty FIFO; with the device deselected as well, the device is in Idle
with no dirty page; and with nothing queued either, the image of an attached backing is the storage (70 R303, 20_memory R67). -/
def Obligations.IdleConditions : Prop :=
  ∀ s : State, CoreInv s → LinkInv s → ImageFollows s →
    (hostIdle s → s.h.txLeft = 0 ∧ s.h.fifo = []) ∧
    (linkIdle s → s.f.pstate = .idle ∧ s.f.dirty = none) ∧
    (quiescent s → s.cfg.hasBacking = true → s.b.image = s.f.storage)

/-- The configuration never changes, and the diagnostic log and the link trace are only appended to (10_state R44, R48; 40 R116). -/
def Obligations.StepOnlyAppendsLogs : Prop :=
  ∀ s t : State, step s = .next t → t.cfg = s.cfg ∧ s.diag <+: t.diag ∧ s.l.trace <+: t.l.trace
end

