-- ==== Sys2Proof/Laws/Decode.lean ====
section
/-! SUPPORT. The lookups of the decoder: what they find, and that under a configuration R10 allows they find what was encoded. -/

namespace Sys2Proof

/-- Searching a list for the value of a function that is injective on it finds the argument. -/
theorem find_of_nodup_map {α β : Type} [DecidableEq β] (g : α → β) (l : List α) (k : α)
    (hn : (l.map g).Nodup) (hk : k ∈ l) : l.find? (fun x => g x == g k) = some k := by
  induction l with
  | nil => simp at hk
  | cons a l ih =>
    simp only [List.map_cons, List.nodup_cons, List.mem_map, not_exists, not_and] at hn
    rcases List.mem_cons.mp hk with rfl | hk
    · simp
    · have : (g a == g k) = false := by
        simp only [beq_eq_false_iff_ne, ne_eq]
        exact fun e => hn.1 k hk e.symm
      rw [List.find?_cons, this]
      exact ih hn.2 hk

theorem mem_all_regs (r : Reg) : r ∈ Reg.all := by cases r <;> decide

theorem mem_all_cmds (k : FlashCmd) : k ∈ FlashCmd.all := by cases k <;> decide

/-- What R10 says of the opcodes, the filler and the offsets. -/
theorem shapeOk_tables (c : Cfg) (h : c.shapeOk = true) :
    (FlashCmd.all.map c.opByte).Nodup ∧ (∀ k, c.opByte k ≠ c.fillerByte) ∧
    (Reg.all.map c.offset).Nodup ∧ (∀ r, c.offset r % 4 = 0 ∧ c.offset r < c.regWindowLen) := by
  simp only [Cfg.shapeOk, Bool.and_eq_true, decide_eq_true_eq, List.all_eq_true, bne_iff_ne, ne_eq] at h
  obtain ⟨⟨⟨⟨⟨-, ho⟩, hf⟩, hn⟩, hr⟩, -⟩ := h
  exact ⟨ho, fun k => hf k (mem_all_cmds k), hn, fun r => hr r (mem_all_regs r)⟩

/-- What R10 says of the sizes. -/
theorem shapeOk_sizes (c : Cfg) (h : c.shapeOk = true) :
    0 < c.capacity ∧ c.capacity ≤ 2 ^ 24 ∧ c.capacity % c.blockSize = 0 ∧ c.blockSize % c.subsectorSize = 0 ∧
    c.subsectorSize % c.pageSize = 0 := by
  simp only [Cfg.shapeOk, Bool.and_eq_true, decide_eq_true_eq] at h
  obtain ⟨⟨⟨⟨⟨⟨⟨⟨⟨h0, h1⟩, hb⟩, hs⟩, hp⟩, -⟩, -⟩, -⟩, -⟩, -⟩ := h
  exact ⟨h0, h1, hb, hs, hp⟩

/-- What R10 says of the listed polling budgets. -/
theorem shapeOk_budgets (c : Cfg) (h : c.shapeOk = true) : ∀ p ∈ c.pollBudgets, 1 ≤ p.2 := by
  simp only [Cfg.shapeOk, Bool.and_eq_true, decide_eq_true_eq, List.all_eq_true] at h
  exact h.2

/-- The sizes are positive, and subsectors and pages divide the capacity too. -/
theorem shapeOk_divides (c : Cfg) (h : c.shapeOk = true) :
    0 < c.pageSize ∧ 0 < c.subsectorSize ∧ 0 < c.blockSize ∧ c.blockSize ∣ c.capacity ∧
    c.subsectorSize ∣ c.capacity ∧ c.pageSize ∣ c.capacity := by
  obtain ⟨h0, -, hb, hs, hp⟩ := shapeOk_sizes c h
  have db : c.blockSize ∣ c.capacity := Nat.dvd_of_mod_eq_zero hb
  have ds : c.subsectorSize ∣ c.capacity := (Nat.dvd_of_mod_eq_zero hs).trans db
  have dp : c.pageSize ∣ c.capacity := (Nat.dvd_of_mod_eq_zero hp).trans ds
  exact ⟨Nat.pos_of_dvd_of_pos dp h0, Nat.pos_of_dvd_of_pos ds h0, Nat.pos_of_dvd_of_pos db h0, db, ds, dp⟩

theorem flashCmdOf_opByte (c : Cfg) (k : FlashCmd) (h : c.shapeOk = true) : flashCmdOf c (c.opByte k) = some k :=
  find_of_nodup_map c.opByte FlashCmd.all k (shapeOk_tables c h).1 (mem_all_cmds k)

theorem registerAt_offset (c : Cfg) (r : Reg) (h : c.shapeOk = true) : registerAt c (c.offset r) = some r :=
  find_of_nodup_map c.offset Reg.all r (shapeOk_tables c h).2.2.1 (mem_all_regs r)

theorem opByte_of_flashCmdOf (c : Cfg) (b : Byte) (k : FlashCmd) (h : flashCmdOf c b = some k) : c.opByte k = b := by
  simpa using List.find?_some h

theorem offset_of_registerAt (c : Cfg) (off : Nat) (r : Reg) (h : registerAt c off = some r) : c.offset r = off := by
  simpa using List.find?_some h

theorem flashCmdOf_eq_none (c : Cfg) (b : Byte) : flashCmdOf c b = none ↔ unknownOpcode c b = true := by
  simp [flashCmdOf, unknownOpcode, List.find?_eq_none]

theorem registerAt_eq_none (c : Cfg) (off : Nat) :
    registerAt c off = none ↔ (Reg.all.all (fun r => c.offset r != off)) = true := by
  simp [registerAt, List.find?_eq_none]

/-- The filler is no opcode (R10). -/
theorem flashCmdOf_filler (c : Cfg) (h : c.shapeOk = true) : flashCmdOf c c.fillerByte = none := by
  rw [flashCmdOf_eq_none]
  simp only [unknownOpcode, List.all_eq_true, bne_iff_ne, ne_eq]
  exact fun k _ => (shapeOk_tables c h).2.1 k

/-- All the decoder can answer in the host space (20_memory R51, R52). -/
theorem decodeAccess_ok {c : Cfg} {a : RegAccess} {i : Instr} (h : decodeAccess c a = .ok i) :
    a.off < c.regWindowLen ∧
    ((∃ r, registerAt c a.off = some r ∧
        ((a.acc = .read ∧ i = regReadInstr a.width r) ∨ ∃ v, a.acc = .write v ∧ i = regWriteInstr a.width v r)) ∨
      (registerAt c a.off = none ∧ i = reservedInstr a.acc a.off a.width)) := by
  unfold decodeAccess at h
  split at h
  · cases h
  refine ⟨by omega, ?_⟩
  split at h
  · rename_i r hr
    left
    refine ⟨r, hr, ?_⟩
    split at h <;> cases h
    · left; exact ⟨by assumption, rfl⟩
    · right; exact ⟨_, by assumption, rfl⟩
  · cases h; right; exact ⟨by assumption, rfl⟩

/-- Decoding a register operation leaves nothing over. -/
theorem decode_access (c : Cfg) (a : RegAccess) (i : Instr) (rest : List Byte) :
    decode c (.access a) = .ok (i, rest) ↔ decodeAccess c a = .ok i ∧ rest = [] := by
  simp only [decode]
  cases decodeAccess c a <;> simp [eq_comm]

end Sys2Proof
end

