-- ==== Sys2Proof/Laws/State.lean ====
section
/-! SUPPORT. What each update of the state does to each field: one lemma per field per update. -/

namespace Sys2Proof.Machine

@[simp] theorem mapH_cfg (s : State) (g : HostCtl → HostCtl) : (s.mapH g).cfg = s.cfg := rfl
@[simp] theorem mapH_h (s : State) (g : HostCtl → HostCtl) : (s.mapH g).h = g s.h := rfl
@[simp] theorem mapH_l (s : State) (g : HostCtl → HostCtl) : (s.mapH g).l = s.l := rfl
@[simp] theorem mapH_f (s : State) (g : HostCtl → HostCtl) : (s.mapH g).f = s.f := rfl
@[simp] theorem mapH_b (s : State) (g : HostCtl → HostCtl) : (s.mapH g).b = s.b := rfl
@[simp] theorem mapH_diag (s : State) (g : HostCtl → HostCtl) : (s.mapH g).diag = s.diag := rfl
@[simp] theorem mapH_inbox (s : State) (g : HostCtl → HostCtl) : (s.mapH g).inbox = s.inbox := rfl
@[simp] theorem mapH_rdata (s : State) (g : HostCtl → HostCtl) : (s.mapH g).rdata = s.rdata := rfl
@[simp] theorem mapH_draws (s : State) (g : HostCtl → HostCtl) : (s.mapH g).draws = s.draws := rfl

@[simp] theorem mapL_cfg (s : State) (g : Link → Link) : (s.mapL g).cfg = s.cfg := rfl
@[simp] theorem mapL_h (s : State) (g : Link → Link) : (s.mapL g).h = s.h := rfl
@[simp] theorem mapL_l (s : State) (g : Link → Link) : (s.mapL g).l = g s.l := rfl
@[simp] theorem mapL_f (s : State) (g : Link → Link) : (s.mapL g).f = s.f := rfl
@[simp] theorem mapL_b (s : State) (g : Link → Link) : (s.mapL g).b = s.b := rfl
@[simp] theorem mapL_diag (s : State) (g : Link → Link) : (s.mapL g).diag = s.diag := rfl
@[simp] theorem mapL_inbox (s : State) (g : Link → Link) : (s.mapL g).inbox = s.inbox := rfl
@[simp] theorem mapL_rdata (s : State) (g : Link → Link) : (s.mapL g).rdata = s.rdata := rfl
@[simp] theorem mapL_draws (s : State) (g : Link → Link) : (s.mapL g).draws = s.draws := rfl

@[simp] theorem mapF_cfg (s : State) (g : Flash → Flash) : (s.mapF g).cfg = s.cfg := rfl
@[simp] theorem mapF_h (s : State) (g : Flash → Flash) : (s.mapF g).h = s.h := rfl
@[simp] theorem mapF_l (s : State) (g : Flash → Flash) : (s.mapF g).l = s.l := rfl
@[simp] theorem mapF_f (s : State) (g : Flash → Flash) : (s.mapF g).f = g s.f := rfl
@[simp] theorem mapF_b (s : State) (g : Flash → Flash) : (s.mapF g).b = s.b := rfl
@[simp] theorem mapF_diag (s : State) (g : Flash → Flash) : (s.mapF g).diag = s.diag := rfl
@[simp] theorem mapF_inbox (s : State) (g : Flash → Flash) : (s.mapF g).inbox = s.inbox := rfl
@[simp] theorem mapF_rdata (s : State) (g : Flash → Flash) : (s.mapF g).rdata = s.rdata := rfl
@[simp] theorem mapF_draws (s : State) (g : Flash → Flash) : (s.mapF g).draws = s.draws := rfl

@[simp] theorem mapB_cfg (s : State) (g : Backing → Backing) : (s.mapB g).cfg = s.cfg := rfl
@[simp] theorem mapB_h (s : State) (g : Backing → Backing) : (s.mapB g).h = s.h := rfl
@[simp] theorem mapB_l (s : State) (g : Backing → Backing) : (s.mapB g).l = s.l := rfl
@[simp] theorem mapB_f (s : State) (g : Backing → Backing) : (s.mapB g).f = s.f := rfl
@[simp] theorem mapB_b (s : State) (g : Backing → Backing) : (s.mapB g).b = g s.b := rfl
@[simp] theorem mapB_diag (s : State) (g : Backing → Backing) : (s.mapB g).diag = s.diag := rfl
@[simp] theorem mapB_inbox (s : State) (g : Backing → Backing) : (s.mapB g).inbox = s.inbox := rfl
@[simp] theorem mapB_rdata (s : State) (g : Backing → Backing) : (s.mapB g).rdata = s.rdata := rfl
@[simp] theorem mapB_draws (s : State) (g : Backing → Backing) : (s.mapB g).draws = s.draws := rfl

@[simp] theorem withInbox_cfg (s : State) (is : List Input) : (s.withInbox is).cfg = s.cfg := rfl
@[simp] theorem withInbox_h (s : State) (is : List Input) : (s.withInbox is).h = s.h := rfl
@[simp] theorem withInbox_l (s : State) (is : List Input) : (s.withInbox is).l = s.l := rfl
@[simp] theorem withInbox_f (s : State) (is : List Input) : (s.withInbox is).f = s.f := rfl
@[simp] theorem withInbox_b (s : State) (is : List Input) : (s.withInbox is).b = s.b := rfl
@[simp] theorem withInbox_diag (s : State) (is : List Input) : (s.withInbox is).diag = s.diag := rfl
@[simp] theorem withInbox_inbox (s : State) (is : List Input) : (s.withInbox is).inbox = is := rfl
@[simp] theorem withInbox_rdata (s : State) (is : List Input) : (s.withInbox is).rdata = s.rdata := rfl
@[simp] theorem withInbox_draws (s : State) (is : List Input) : (s.withInbox is).draws = s.draws := rfl

@[simp] theorem returning_cfg (s : State) (v : Nat) : (s.returning v).cfg = s.cfg := rfl
@[simp] theorem returning_h (s : State) (v : Nat) : (s.returning v).h = s.h := rfl
@[simp] theorem returning_l (s : State) (v : Nat) : (s.returning v).l = s.l := rfl
@[simp] theorem returning_f (s : State) (v : Nat) : (s.returning v).f = s.f := rfl
@[simp] theorem returning_b (s : State) (v : Nat) : (s.returning v).b = s.b := rfl
@[simp] theorem returning_diag (s : State) (v : Nat) : (s.returning v).diag = s.diag := rfl
@[simp] theorem returning_inbox (s : State) (v : Nat) : (s.returning v).inbox = s.inbox := rfl
@[simp] theorem returning_rdata (s : State) (v : Nat) : (s.returning v).rdata = v := rfl
@[simp] theorem returning_draws (s : State) (v : Nat) : (s.returning v).draws = s.draws := rfl

@[simp] theorem raise_cfg (s : State) (d : Diagnostic) : (raise d s).cfg = s.cfg := rfl
@[simp] theorem raise_h (s : State) (d : Diagnostic) : (raise d s).h = s.h := rfl
@[simp] theorem raise_l (s : State) (d : Diagnostic) : (raise d s).l = s.l := rfl
@[simp] theorem raise_f (s : State) (d : Diagnostic) : (raise d s).f = s.f := rfl
@[simp] theorem raise_b (s : State) (d : Diagnostic) : (raise d s).b = s.b := rfl
@[simp] theorem raise_diag (s : State) (d : Diagnostic) : (raise d s).diag = s.diag ++ [d] := rfl
@[simp] theorem raise_inbox (s : State) (d : Diagnostic) : (raise d s).inbox = s.inbox := rfl
@[simp] theorem raise_rdata (s : State) (d : Diagnostic) : (raise d s).rdata = s.rdata := rfl
@[simp] theorem raise_draws (s : State) (d : Diagnostic) : (raise d s).draws = s.draws := rfl

@[simp] theorem readUnspecified_cfg (s : State) (w : Nat) : (readUnspecified w s).cfg = s.cfg := rfl
@[simp] theorem readUnspecified_h (s : State) (w : Nat) : (readUnspecified w s).h = s.h := rfl
@[simp] theorem readUnspecified_l (s : State) (w : Nat) : (readUnspecified w s).l = s.l := rfl
@[simp] theorem readUnspecified_f (s : State) (w : Nat) : (readUnspecified w s).f = s.f := rfl
@[simp] theorem readUnspecified_b (s : State) (w : Nat) : (readUnspecified w s).b = s.b := rfl
@[simp] theorem readUnspecified_diag (s : State) (w : Nat) : (readUnspecified w s).diag = s.diag := rfl
@[simp] theorem readUnspecified_inbox (s : State) (w : Nat) : (readUnspecified w s).inbox = s.inbox := rfl
@[simp] theorem readUnspecified_rdata (s : State) (w : Nat) : (readUnspecified w s).rdata = (Config.unspecified s.draws (8 * w)).toNat := rfl
@[simp] theorem readUnspecified_draws (s : State) (w : Nat) : (readUnspecified w s).draws = s.draws + 1 := rfl

/-- Raising diagnostics one after the other appends them in order. -/
theorem raise_raise (d e : Diagnostic) (s : State) : (raise e (raise d s)).diag = s.diag ++ [d, e] := by
  simp

end Sys2Proof.Machine
end

