-- ==== Sys2Proof/Laws/Device.lean ====
section
/-! SUPPORT. What the device's operations leave alone, one lemma per operation, and what one exchange and a run of exchanges do to the
rest of the state. -/

namespace Sys2Proof.Machine

/-- The device, the backing and the diagnostics may differ; nothing else does, and diagnostics are only appended. -/
structure DeviceOnly (s t : State) : Prop where
  cfg : t.cfg = s.cfg
  h : t.h = s.h
  l : t.l = s.l
  inbox : t.inbox = s.inbox
  rdata : t.rdata = s.rdata
  draws : t.draws = s.draws
  diag : s.diag <+: t.diag

theorem DeviceOnly.refl (s : State) : DeviceOnly s s := ⟨rfl, rfl, rfl, rfl, rfl, rfl, List.prefix_refl _⟩

theorem DeviceOnly.trans {s t u : State} (a : DeviceOnly s t) (b : DeviceOnly t u) : DeviceOnly s u :=
  ⟨b.cfg.trans a.cfg, b.h.trans a.h, b.l.trans a.l, b.inbox.trans a.inbox, b.rdata.trans a.rdata,
    b.draws.trans a.draws, a.diag.trans b.diag⟩

theorem deviceOnly_mapF (g : Flash → Flash) {s t : State} (h : DeviceOnly s t) : DeviceOnly s (t.mapF g) :=
  ⟨h.cfg, h.h, h.l, h.inbox, h.rdata, h.draws, h.diag⟩

theorem deviceOnly_toPState (p : PState) {s t : State} (h : DeviceOnly s t) : DeviceOnly s (toPState p t) :=
  deviceOnly_mapF _ h

theorem deviceOnly_raise (d : Diagnostic) {s t : State} (h : DeviceOnly s t) : DeviceOnly s (raise d t) :=
  ⟨h.cfg, h.h, h.l, h.inbox, h.rdata, h.draws, h.diag.trans (List.prefix_append _ _)⟩

theorem deviceOnly_writeAsync (off len : Nat) {s t : State} (h : DeviceOnly s t) : DeviceOnly s (writeAsync off len t) := by
  unfold writeAsync
  split
  · exact ⟨h.cfg, h.h, h.l, h.inbox, h.rdata, h.draws, h.diag⟩
  · exact h

theorem deviceOnly_flushDirty {s t : State} (h : DeviceOnly s t) : DeviceOnly s (flushDirty t) := by
  unfold flushDirty
  split
  · exact h
  · exact deviceOnly_mapF _ (deviceOnly_writeAsync _ _ h)

theorem deviceOnly_markDirty (p : Nat) {s t : State} (h : DeviceOnly s t) : DeviceOnly s (markDirty p t) := by
  unfold markDirty
  refine deviceOnly_mapF _ ?_
  split
  · split
    · exact h
    · exact deviceOnly_flushDirty h
  · exact h

theorem deviceOnly_deviceDeselect {s t : State} (h : DeviceOnly s t) : DeviceOnly s (deviceDeselect t) :=
  deviceOnly_mapF _ (deviceOnly_flushDirty h)

theorem deviceOnly_erase (n : Nat) {s t : State} (h : DeviceOnly s t) : DeviceOnly s (erase n t) := by
  unfold erase
  simp only
  split
  · exact h
  · split
    · exact deviceOnly_raise _ h
    · exact deviceOnly_mapF _ (deviceOnly_writeAsync _ _ (deviceOnly_mapF _ h))

theorem deviceOnly_decodeOpcode (b : Byte) (s : State) : DeviceOnly s (decodeOpcode b s) := by
  have h : DeviceOnly s (opcodeCommon b s) := deviceOnly_mapF _ (DeviceOnly.refl s)
  unfold decodeOpcode
  simp only
  split
  case h_2 =>
    unfold armRst
    split
    · exact deviceOnly_mapF _ h
    · exact deviceOnly_raise _ h
  case h_1 => exact deviceOnly_mapF _ h
  case h_3 => exact deviceOnly_mapF _ h
  case h_4 => exact deviceOnly_mapF _ h
  case h_14 => exact deviceOnly_mapF _ h
  case h_15 => exact deviceOnly_mapF _ h
  case h_16 => exact h
  case h_17 => exact h
  case h_18 => exact h
  case h_19 => exact deviceOnly_raise _ h
  all_goals exact deviceOnly_toPState _ h

theorem deviceOnly_dispatch {s t : State} (h : DeviceOnly s t) : DeviceOnly s (dispatch t) := by
  unfold dispatch
  split
  · exact deviceOnly_toPState _ (deviceOnly_mapF _ h)
  · unfold dispatchPp
    refine deviceOnly_toPState _ ?_
    split
    · exact deviceOnly_mapF _ (deviceOnly_mapF _ h)
    · exact deviceOnly_mapF _ h
  · exact deviceOnly_toPState _ (deviceOnly_mapF _ h)
  · exact deviceOnly_toPState _ (deviceOnly_erase _ h)
  · exact deviceOnly_toPState _ (deviceOnly_erase _ h)
  · exact h

/-- The state once a byte is collected, before any dispatch. -/
def collected (b : Byte) (s : State) : State :=
  s.mapF (fun f => { f with acc := collectAcc s.cfg b f, pos := f.pos + 1 })

/-- A collected byte that is not the command's last. -/
theorem collect_more (b : Byte) (s : State) (h : ¬ s.f.pos + 1 = collectNeed s.cfg (flashCmdOf s.cfg s.f.cmd)) :
    collect b s = collected b s := if_neg h

/-- A collected byte that is the command's last dispatches it. -/
theorem collect_last (b : Byte) (s : State) (h : s.f.pos + 1 = collectNeed s.cfg (flashCmdOf s.cfg s.f.cmd)) :
    collect b s = dispatch (collected b s) := if_pos h

theorem deviceOnly_collect (b : Byte) (s : State) : DeviceOnly s (collect b s) := by
  have h := deviceOnly_mapF (fun f => { f with acc := collectAcc s.cfg b f, pos := f.pos + 1 }) (DeviceOnly.refl s)
  unfold collect
  simp only
  split
  · exact deviceOnly_dispatch h
  · exact h

theorem deviceOnly_program (a : Nat) (b : Byte) {s t : State} (h : DeviceOnly s t) : DeviceOnly s (program a b t) := by
  unfold program
  refine deviceOnly_mapF _ ?_
  split
  · exact deviceOnly_raise _ h
  · exact h

theorem deviceOnly_programByte (b : Byte) (s : State) : DeviceOnly s (programByte b s) := by
  unfold programByte
  refine deviceOnly_mapF _ ?_
  split
  · exact DeviceOnly.refl s
  · split
    · exact deviceOnly_raise _ (DeviceOnly.refl s)
    · exact deviceOnly_markDirty _ (deviceOnly_program _ _ (DeviceOnly.refl s))

theorem deviceOnly_registerByte (s : State) : DeviceOnly s (registerByte s).2 := by
  unfold registerByte
  refine deviceOnly_toPState _ ?_
  split
  · exact deviceOnly_mapF _ (DeviceOnly.refl s)
  all_goals exact DeviceOnly.refl s

/-- One byte handled by the device changes nothing of the host controller, the link or the inputs. -/
theorem deviceOnly_deviceByte (b : Byte) (s : State) : DeviceOnly s (deviceByte b s).2 := by
  unfold deviceByte
  split
  · exact deviceOnly_decodeOpcode b s
  · exact deviceOnly_collect b s
  · exact deviceOnly_programByte b s
  · exact ⟨rfl, rfl, rfl, rfl, rfl, rfl, List.prefix_refl _⟩
  · exact ⟨rfl, rfl, rfl, rfl, rfl, rfl, List.prefix_refl _⟩
  · exact deviceOnly_registerByte s

/-! ### One exchange -/

@[simp] theorem xfer_cfg (b : Byte) (s : State) : (xfer b s).2.cfg = s.cfg := (deviceOnly_deviceByte b s).cfg
@[simp] theorem xfer_h (b : Byte) (s : State) : (xfer b s).2.h = s.h := (deviceOnly_deviceByte b s).h
@[simp] theorem xfer_inbox (b : Byte) (s : State) : (xfer b s).2.inbox = s.inbox := (deviceOnly_deviceByte b s).inbox
@[simp] theorem xfer_rdata (b : Byte) (s : State) : (xfer b s).2.rdata = s.rdata := (deviceOnly_deviceByte b s).rdata
@[simp] theorem xfer_draws (b : Byte) (s : State) : (xfer b s).2.draws = s.draws := (deviceOnly_deviceByte b s).draws
theorem xfer_f (b : Byte) (s : State) : (xfer b s).2.f = (deviceByte b s).2.f := rfl
theorem xfer_b (b : Byte) (s : State) : (xfer b s).2.b = (deviceByte b s).2.b := rfl
theorem xfer_diag (b : Byte) (s : State) : s.diag <+: (xfer b s).2.diag := (deviceOnly_deviceByte b s).diag
theorem xfer_reply (b : Byte) (s : State) : (xfer b s).1 = (deviceByte b s).1 := rfl

@[simp] theorem xfer_cs (b : Byte) (s : State) : (xfer b s).2.l.cs = s.l.cs := by
  show (deviceByte b s).2.l.cs = s.l.cs
  rw [(deviceOnly_deviceByte b s).l]

@[simp] theorem xfer_trace (b : Byte) (s : State) :
    (xfer b s).2.l.trace = s.l.trace ++ [.xfer b (xfer b s).1] := by
  show (deviceByte b s).2.l.trace ++ _ = _
  rw [(deviceOnly_deviceByte b s).l]
  rfl

theorem xfer_l (b : Byte) (s : State) : (xfer b s).2.l = { s.l with trace := s.l.trace ++ [.xfer b (xfer b s).1] } := by
  show ({ (deviceByte b s).2.l with trace := (deviceByte b s).2.l.trace ++ _ } : Link) = _
  rw [(deviceOnly_deviceByte b s).l]
  rfl

/-! ### Runs of exchanges -/

@[simp] theorem xferAll_nil (s : State) : xferAll [] s = s := rfl
theorem xferAll_cons (b : Byte) (bs : List Byte) (s : State) : xferAll (b :: bs) s = xferAll bs (xfer b s).2 := rfl

theorem xferAll_append (bs cs : List Byte) (s : State) : xferAll (bs ++ cs) s = xferAll cs (xferAll bs s) := by
  induction bs generalizing s with
  | nil => rfl
  | cons b bs ih => exact ih _

theorem replies_append (bs cs : List Byte) (s : State) : replies (bs ++ cs) s = replies bs s ++ replies cs (xferAll bs s) := by
  induction bs generalizing s with
  | nil => rfl
  | cons b bs ih => simp only [List.cons_append, replies, ih, xferAll_cons]

@[simp] theorem replies_length (bs : List Byte) (s : State) : (replies bs s).length = bs.length := by
  induction bs generalizing s with
  | nil => rfl
  | cons b bs ih => simp [replies, ih]

@[simp] theorem xferAll_cfg (bs : List Byte) (s : State) : (xferAll bs s).cfg = s.cfg := by
  induction bs generalizing s with
  | nil => rfl
  | cons b bs ih => rw [xferAll_cons, ih, xfer_cfg]

@[simp] theorem xferAll_h (bs : List Byte) (s : State) : (xferAll bs s).h = s.h := by
  induction bs generalizing s with
  | nil => rfl
  | cons b bs ih => rw [xferAll_cons, ih, xfer_h]

@[simp] theorem xferAll_inbox (bs : List Byte) (s : State) : (xferAll bs s).inbox = s.inbox := by
  induction bs generalizing s with
  | nil => rfl
  | cons b bs ih => rw [xferAll_cons, ih, xfer_inbox]

@[simp] theorem xferAll_rdata (bs : List Byte) (s : State) : (xferAll bs s).rdata = s.rdata := by
  induction bs generalizing s with
  | nil => rfl
  | cons b bs ih => rw [xferAll_cons, ih, xfer_rdata]

@[simp] theorem xferAll_draws (bs : List Byte) (s : State) : (xferAll bs s).draws = s.draws := by
  induction bs generalizing s with
  | nil => rfl
  | cons b bs ih => rw [xferAll_cons, ih, xfer_draws]

@[simp] theorem xferAll_cs (bs : List Byte) (s : State) : (xferAll bs s).l.cs = s.l.cs := by
  induction bs generalizing s with
  | nil => rfl
  | cons b bs ih => rw [xferAll_cons, ih, xfer_cs]

theorem xferAll_diag (bs : List Byte) (s : State) : s.diag <+: (xferAll bs s).diag := by
  induction bs generalizing s with
  | nil => exact List.prefix_refl _
  | cons b bs ih => exact (xfer_diag b s).trans (ih _)

/-- A run of exchanges appends them to the trace, each with its reply. -/
theorem xferAll_trace (bs : List Byte) (s : State) :
    (xferAll bs s).l.trace = s.l.trace ++ List.zipWith LinkEvent.xfer bs (replies bs s) := by
  induction bs generalizing s with
  | nil => simp
  | cons b bs ih => rw [xferAll_cons, ih, xfer_trace]; simp [replies]

/-! ### Chip-select -/

/-- A deselect leaves the host controller, the link and the inputs alone. -/
theorem deviceOnly_deselect (s : State) : DeviceOnly s (deviceDeselect s) := deviceOnly_deviceDeselect (DeviceOnly.refl s)

/-- The state a `SetCS` works on once its event is in the trace. -/
def traced (level : Bool) (s : State) : State := s.mapL (fun l => { l with trace := l.trace ++ [.cs level] })

theorem setCS_true (s : State) : setCS true s = (traced true s).mapL (fun l => { l with cs := true }) := rfl
theorem setCS_false (s : State) : setCS false s = (deviceDeselect (traced false s)).mapL (fun l => { l with cs := false }) := rfl

@[simp] theorem setCS_cs (level : Bool) (s : State) : (setCS level s).l.cs = level := by cases level <;> rfl

@[simp] theorem setCS_cfg (level : Bool) (s : State) : (setCS level s).cfg = s.cfg := by
  cases level
  · exact (deviceOnly_deselect (traced false s)).cfg
  · rfl

@[simp] theorem setCS_h (level : Bool) (s : State) : (setCS level s).h = s.h := by
  cases level
  · exact (deviceOnly_deselect (traced false s)).h
  · rfl

@[simp] theorem setCS_inbox (level : Bool) (s : State) : (setCS level s).inbox = s.inbox := by
  cases level
  · exact (deviceOnly_deselect (traced false s)).inbox
  · rfl

@[simp] theorem setCS_rdata (level : Bool) (s : State) : (setCS level s).rdata = s.rdata := by
  cases level
  · exact (deviceOnly_deselect (traced false s)).rdata
  · rfl

@[simp] theorem setCS_draws (level : Bool) (s : State) : (setCS level s).draws = s.draws := by
  cases level
  · exact (deviceOnly_deselect (traced false s)).draws
  · rfl

@[simp] theorem setCS_trace (level : Bool) (s : State) : (setCS level s).l.trace = s.l.trace ++ [.cs level] := by
  cases level
  · show (deviceDeselect (traced false s)).l.trace = _
    rw [(deviceOnly_deselect (traced false s)).l]
    rfl
  · rfl

@[simp] theorem setCS_true_f (s : State) : (setCS true s).f = s.f := rfl
@[simp] theorem setCS_true_b (s : State) : (setCS true s).b = s.b := rfl
@[simp] theorem setCS_true_diag (s : State) : (setCS true s).diag = s.diag := rfl

theorem setCS_false_f (s : State) : (setCS false s).f = (deviceDeselect (traced false s)).f := rfl
theorem setCS_false_b (s : State) : (setCS false s).b = (deviceDeselect (traced false s)).b := rfl

theorem setCS_diag (level : Bool) (s : State) : s.diag <+: (setCS level s).diag := by
  cases level
  · exact (deviceOnly_deselect (traced false s)).diag
  · exact List.prefix_refl _

/-- What a flush of the dirty page leaves of the device: the dirty index is cleared, nothing else changes. -/
theorem flushDirty_f (s : State) : (flushDirty s).f = { s.f with dirty := none } := by
  unfold flushDirty
  split
  · next h =>
    cases hf : s.f
    rw [hf] at h
    cases h
    rfl
  · unfold writeAsync
    split <;> rfl

/-- What a deselect leaves of the device (44 R228). -/
theorem deviceDeselect_f (s : State) :
    (deviceDeselect s).f = { s.f with dirty := none, pstate := .idle, pos := 0, acc := 0 } := by
  show ({ (flushDirty s).f with pstate := .idle, pos := 0, acc := 0 } : Flash) = _
  rw [flushDirty_f]

/-- What a deasserted chip-select leaves of the device. -/
theorem setCS_false_flash (s : State) :
    (setCS false s).f = { s.f with dirty := none, pstate := .idle, pos := 0, acc := 0 } := by
  rw [setCS_false_f, deviceDeselect_f]
  rfl

end Sys2Proof.Machine
end

