-- ==== Sys2Proof/Laws/Outer.lean ====
section
/-! SUPPORT. The device sees neither the host controller nor the link nor the inputs: what it does with a byte is the same whatever
they hold, and it leaves them as they are. -/

namespace Sys2Proof.Machine

/-- Host controller, link and inputs take other values. -/
def outer (x : HostCtl) (y : Link) (z : List Input) (s : State) : State := { s with h := x, l := y, inbox := z }

variable (x : HostCtl) (y : Link) (z : List Input)

theorem outer_cfg (s : State) : (outer x y z s).cfg = s.cfg := rfl
theorem outer_f (s : State) : (outer x y z s).f = s.f := rfl

theorem writeAsync_outer (off len : Nat) (s : State) :
    writeAsync off len (outer x y z s) = outer x y z (writeAsync off len s) := by
  unfold writeAsync
  by_cases h : s.cfg.hasBacking = true
  · rw [if_pos h, if_pos (show (outer x y z s).cfg.hasBacking = true from h)]; rfl
  · rw [if_neg h, if_neg (show ¬(outer x y z s).cfg.hasBacking = true from h)]

theorem flushDirty_outer (s : State) : flushDirty (outer x y z s) = outer x y z (flushDirty s) := by
  unfold flushDirty
  simp only [outer_cfg, outer_f]
  rcases s.f.dirty with _ | q
  · rfl
  · simp only [writeAsync_outer]; rfl

theorem markDirty_outer (p : Nat) (s : State) :
    markDirty p (outer x y z s) = outer x y z (markDirty p s) := by
  unfold markDirty
  simp only [outer_f]
  rcases s.f.dirty with _ | q
  · rfl
  · by_cases h : q = p
    · simp only [if_pos h]; rfl
    · simp only [if_neg h, flushDirty_outer]; rfl

theorem erase_outer (n : Nat) (s : State) : erase n (outer x y z s) = outer x y z (erase n s) := by
  unfold erase
  dsimp only
  by_cases hw : (!s.f.wel s.cfg) = true
  · rw [if_pos hw, if_pos (show (!(outer x y z s).f.wel (outer x y z s).cfg) = true from hw)]
  · rw [if_neg hw, if_neg (show ¬(!(outer x y z s).f.wel (outer x y z s).cfg) = true from hw)]
    by_cases hc : s.cfg.capacity ≤ alignedBase s.f.acc.toNat n
    · rw [if_pos hc, if_pos (show (outer x y z s).cfg.capacity ≤ alignedBase (outer x y z s).f.acc.toNat n from hc)]; rfl
    · rw [if_neg hc, if_neg (show ¬(outer x y z s).cfg.capacity ≤ alignedBase (outer x y z s).f.acc.toNat n from hc)]
      exact congrArg (fun t => State.mapF t (setBusy s.cfg)) (writeAsync_outer x y z (alignedBase s.f.acc.toNat n) n
        (s.mapF (fun f => { f with storage := f.storage.fillErased (alignedBase s.f.acc.toNat n) n })))

theorem decodeOpcode_outer (b : Byte) (s : State) :
    decodeOpcode b (outer x y z s) = outer x y z (decodeOpcode b s) := by
  unfold decodeOpcode
  simp only [outer_cfg, outer_f]
  rcases flashCmdOf s.cfg b with _ | k
  · rfl
  · cases k
    case rst =>
      simp only [armRst]
      rcases s.f.resetArmed <;> rfl
    all_goals rfl

theorem dispatch_outer (s : State) : dispatch (outer x y z s) = outer x y z (dispatch s) := by
  unfold dispatch
  simp only [outer_cfg, outer_f]
  rcases flashCmdOf s.cfg s.f.cmd with _ | k
  · rfl
  · cases k
    case pp =>
      simp only [dispatchPp]
      by_cases h : (s.mapF (fun f => { f with cur := f.acc.toNat })).f.wel s.cfg = true
      · rw [if_pos h, if_pos (show ((outer x y z s).mapF (fun f => { f with cur := f.acc.toNat })).f.wel (outer x y z s).cfg = true from h)]
        rfl
      · rw [if_neg h, if_neg (show ¬((outer x y z s).mapF (fun f => { f with cur := f.acc.toNat })).f.wel (outer x y z s).cfg = true from h)]
        rfl
    case sse => exact congrArg (toPState .idle) (erase_outer x y z _ s)
    case be => exact congrArg (toPState .idle) (erase_outer x y z _ s)
    all_goals rfl

theorem collect_outer (b : Byte) (s : State) :
    collect b (outer x y z s) = outer x y z (collect b s) := by
  by_cases h : s.f.pos + 1 = collectNeed s.cfg (flashCmdOf s.cfg s.f.cmd)
  · rw [collect_last b s h, collect_last b (outer x y z s) h]
    exact dispatch_outer x y z (collected b s)
  · rw [collect_more b s h, collect_more b (outer x y z s) h]
    rfl

theorem program_outer (a : Nat) (b : Byte) (s : State) :
    program a b (outer x y z s) = outer x y z (program a b s) := by
  unfold program
  dsimp only
  by_cases h : setsBit (s.f.storage.read a) b = true
  · rw [if_pos h, if_pos (show setsBit ((outer x y z s).f.storage.read a) b = true from h)]; rfl
  · rw [if_neg h, if_neg (show ¬setsBit ((outer x y z s).f.storage.read a) b = true from h)]; rfl

theorem programByte_outer (b : Byte) (s : State) :
    programByte b (outer x y z s) = outer x y z (programByte b s) := by
  unfold programByte
  dsimp only
  by_cases hw : (!s.f.wel s.cfg) = true
  · rw [if_pos hw, if_pos (show (!(outer x y z s).f.wel (outer x y z s).cfg) = true from hw)]; rfl
  · rw [if_neg hw, if_neg (show ¬(!(outer x y z s).f.wel (outer x y z s).cfg) = true from hw)]
    by_cases hc : s.cfg.capacity ≤ s.f.cur
    · rw [if_pos hc, if_pos (show (outer x y z s).cfg.capacity ≤ (outer x y z s).f.cur from hc)]; rfl
    · rw [if_neg hc, if_neg (show ¬(outer x y z s).cfg.capacity ≤ (outer x y z s).f.cur from hc), program_outer, markDirty_outer]
      rfl

theorem registerByte_outer (s : State) :
    registerByte (outer x y z s) = ((registerByte s).1, outer x y z (registerByte s).2) := by
  unfold registerByte
  simp only [outer_cfg, outer_f]
  rcases flashCmdOf s.cfg s.f.cmd with _ | k
  · rfl
  · cases k <;> rfl

theorem deviceByte_outer (b : Byte) (s : State) :
    deviceByte b (outer x y z s) = ((deviceByte b s).1, outer x y z (deviceByte b s).2) := by
  unfold deviceByte
  simp only [outer_cfg, outer_f]
  cases s.f.pstate
  · simp only [decodeOpcode_outer]
  · simp only [collect_outer]
  · simp only [programByte_outer]
  · rfl
  · rfl
  · exact registerByte_outer x y z s


/-- An exchange answers the same whatever host controller, link and inputs hold. -/
theorem xfer_outer (b : Byte) (s : State) :
    xfer b (outer x y z s) =
      ((xfer b s).1, outer x { y with trace := y.trace ++ [.xfer b (xfer b s).1] } z (xfer b s).2) := by
  unfold xfer
  rw [deviceByte_outer]
  rfl

theorem replies_outer (bs : List Byte) (s : State) : replies bs (outer x y z s) = replies bs s := by
  induction bs generalizing s y with
  | nil => rfl
  | cons b bs ih => simp only [replies, xfer_outer, ih]

theorem xferAll_outer (bs : List Byte) (s : State) :
    xferAll bs (outer x y z s) =
      outer x { y with trace := y.trace ++ List.zipWith LinkEvent.xfer bs (replies bs s) } z (xferAll bs s) := by
  induction bs generalizing s y with
  | nil => simp [replies]
  | cons b bs ih => rw [xferAll_cons, xfer_outer, ih, xferAll_cons]; simp [replies]

theorem outer_self (s : State) : outer s.h s.l s.inbox s = s := rfl

end Sys2Proof.Machine
end

