-- ==== Sys2Proof/Laws/Commands.lean ====
section
/-! SUPPORT. One exchange, by the parser state that meets it, and a flash command as its exchanges. -/

namespace Sys2Proof.Machine

/-- The trace of an exchange. -/
def noted (b reply : Byte) (s : State) : State := s.mapL (fun l => { l with trace := l.trace ++ [.xfer b reply] })

theorem xfer_idle (b : Byte) (s : State) (h : s.f.pstate = .idle) :
    xfer b s = (s.cfg.defaultMiso, noted b s.cfg.defaultMiso (decodeOpcode b s)) := by
  simp only [xfer, deviceByte, h]; rfl

theorem xfer_collecting (b : Byte) (s : State) (h : s.f.pstate = .collectingCommandData) :
    xfer b s = (s.cfg.defaultMiso, noted b s.cfg.defaultMiso (collect b s)) := by
  simp only [xfer, deviceByte, h]; rfl

theorem xfer_writing (b : Byte) (s : State) (h : s.f.pstate = .writing) :
    xfer b s = (s.cfg.defaultMiso, noted b s.cfg.defaultMiso (programByte b s)) := by
  simp only [xfer, deviceByte, h]; rfl

theorem xfer_reading (b : Byte) (s : State) (h : s.f.pstate = .reading) :
    xfer b s = (s.f.storage.read s.f.cur, noted b (s.f.storage.read s.f.cur)
      (s.mapF (fun f => { f with cur := (f.cur + 1) % s.cfg.capacity }))) := by
  simp only [xfer, deviceByte, h]; rfl

theorem xfer_identification (b : Byte) (s : State) (h : s.f.pstate = .readingIdentification) :
    xfer b s = (idOf s.cfg s.f.pos, noted b (idOf s.cfg s.f.pos)
      (s.mapF (fun f => { f with pos := f.pos + 1, pstate := if f.pos + 1 = 3 then .idle else f.pstate }))) := by
  simp only [xfer, deviceByte, h]; rfl

theorem xfer_register (b : Byte) (s : State) (h : s.f.pstate = .readingRegister) :
    xfer b s = ((registerByte s).1, noted b (registerByte s).1 (registerByte s).2) := by
  simp only [xfer, deviceByte, h]; rfl

/-- An opcode byte that R10 allows decodes to its command. -/
theorem flashCmdOf_eq (s : State) (k : FlashCmd) (h : s.cfg.shapeOk = true) : flashCmdOf s.cfg (s.cfg.opByte k) = some k :=
  flashCmdOf_opByte s.cfg k h

/-- The state after the exchange of an opcode byte is `afterOpcode` with the command's arm applied, for the arms that update the
device alone. -/
theorem noted_mapF (b : Byte) (s : State) (g : Flash → Flash) :
    noted b s.cfg.defaultMiso ((opcodeCommon b s).mapF g) = (afterOpcode b s).mapF g := rfl

theorem noted_opcodeCommon (b : Byte) (s : State) : noted b s.cfg.defaultMiso (opcodeCommon b s) = afterOpcode b s := rfl

/-- Exchanging at device level with the device selected. -/
theorem exchange_selected (bs : List Byte) (s : State) (h : s.l.cs = true) : exchange bs s = .next (xferAll bs s) := if_pos h

/-- Exchanging at device level with the device deselected. -/
theorem exchange_deselected (bs : List Byte) (s : State) (h : s.l.cs = false) :
    exchange bs s = .refused .chipSelectDeasserted := if_neg (by simp [h])

/-! ### Decode, dispatch, register bytes -/

/-- The arm of one command, after the common part; `armed` is the latch before it. -/
def armAs (armed : Bool) (s : State) : FlashCmd → State
  | .rsten => armRsten s
  | .rst => armRst armed s
  | .wren => armWren s
  | .wrdi => armWrdi s
  | .wrreg => armWrreg s
  | .rdsr => armRdsr s
  | .rdfsr => armRdfsr s
  | .rdcfg => armRdcfg s
  | .fread => armFread s
  | .rdid => armRdid s
  | .pp => armPp s
  | .sse => armSse s
  | .be => armBe s
  | .esus => armEsus s
  | .eres => armEres s
  | .dslp => armDslp s
  | .wake => armWake s
  | .qen => armQen s

/-- What an opcode byte does, by its command (43 R180). -/
theorem decodeOpcode_of (s : State) (b : Byte) (k : FlashCmd) (h : flashCmdOf s.cfg b = some k) :
    decodeOpcode b s = armAs s.f.resetArmed (opcodeCommon b s) k := by
  unfold decodeOpcode
  rw [h]
  cases k <;> rfl

/-- What a byte that is no opcode does (43 R199). -/
theorem decodeOpcode_unknown (s : State) (b : Byte) (h : flashCmdOf s.cfg b = none) :
    decodeOpcode b s = raise (.unknownOpcode b) (opcodeCommon b s) := by
  unfold decodeOpcode
  rw [h]
  rfl

/-- The dispatch of one command. -/
def dispatchAs (s : State) : FlashCmd → State
  | .wrreg => dispatchWrreg s
  | .pp => dispatchPp s
  | .fread => dispatchFread s
  | .sse => dispatchSse s
  | .be => dispatchBe s
  | _ => s

/-- What the dispatch does, by the command collected (43 R201). -/
theorem dispatch_of (s : State) (k : FlashCmd) (h : flashCmdOf s.cfg s.f.cmd = some k) : dispatch s = dispatchAs s k := by
  unfold dispatch
  rw [h]
  cases k <;> rfl

/-- The answer and the effect of the register state for one command. -/
def registerAs (s : State) : FlashCmd → Byte × State
  | .rdsr => (s.f.sr, toPState .idle (s.mapF postReadClear))
  | .rdfsr => (s.f.fsr, toPState .idle s)
  | .rdcfg => (s.f.cfgReg, toPState .idle s)
  | _ => (s.cfg.defaultMiso, toPState .idle s)

/-- What the register state answers and does, by the command read (44 R226). -/
theorem registerByte_of (s : State) (k : FlashCmd) (h : flashCmdOf s.cfg s.f.cmd = some k) :
    registerByte s = registerAs s k := by
  unfold registerByte
  rw [h]
  cases k <;> rfl

/-- A whole command met in Idle: its arm is applied after the common part, then its bytes are exchanged. -/
theorem command_in_idle (s : State) (k : FlashCmd) (ops : List Byte) (h : readyForOpcode s) :
    exchange (s.cfg.opByte k :: ops) s =
      .next (xferAll ops (noted (s.cfg.opByte k) s.cfg.defaultMiso
        (armAs s.f.resetArmed (opcodeCommon (s.cfg.opByte k) s) k))) := by
  rw [exchange_selected _ s h.2.1, xferAll_cons, xfer_idle _ s h.2.2,
    decodeOpcode_of s _ k (flashCmdOf_opByte s.cfg k h.1)]

/-- The state in which a command that collects bytes waits for the first of them. -/
def collectingFrom (b : Byte) (s : State) : State :=
  { s with
    l := { s.l with trace := s.l.trace ++ [.xfer b s.cfg.defaultMiso] }
    f := { s.f with resetArmed := false, cmd := b, pos := 0, acc := 0#24, pstate := .collectingCommandData } }

/-- A collecting command met in Idle. -/
theorem collecting_command_in_idle (s : State) (k : FlashCmd) (ops : List Byte) (h : readyForOpcode s)
    (hk : k = .wrreg ∨ k = .fread ∨ k = .pp ∨ k = .sse ∨ k = .be) :
    exchange (s.cfg.opByte k :: ops) s = .next (xferAll ops (collectingFrom (s.cfg.opByte k) s)) := by
  rw [command_in_idle s k ops h]
  rcases hk with rfl | rfl | rfl | rfl | rfl <;> rfl

/-! ### Collecting -/

/-- The accumulator after a run of collected bytes. -/
def collectAccs (c : Cfg) : List Byte → Flash → Addr24
  | [], f => f.acc
  | b :: bs, f => collectAccs c bs { f with acc := collectAcc c b f, pos := f.pos + 1 }

/-- A run of collected bytes that stops short of the command's need only moves position and accumulator (43 R200). -/
theorem xferAll_collecting (bs : List Byte) (s : State) (hp : s.f.pstate = .collectingCommandData)
    (hlt : s.f.pos + bs.length < collectNeed s.cfg (flashCmdOf s.cfg s.f.cmd)) :
    xferAll bs s = { s with
      l := { s.l with trace := s.l.trace ++ silentExchanges s bs }
      f := { s.f with pos := s.f.pos + bs.length, acc := collectAccs s.cfg bs s.f } } := by
  induction bs generalizing s with
  | nil => simp [collectAccs, silentExchanges]
  | cons b bs ih =>
    simp only [List.length_cons] at hlt
    rw [xferAll_cons, xfer_collecting b s hp, collect_more b s (by omega), ih]
    · simp only [noted, collected, State.mapF, State.mapL, silentExchanges, List.map_cons, List.length_cons,
        List.append_assoc, List.singleton_append, collectAccs]
      congr 2
      omega
    · exact hp
    · show s.f.pos + 1 + bs.length < _
      have : s.f.pos + 1 + bs.length = s.f.pos + (bs.length + 1) := by omega
      rw [this]
      exact hlt

/-- The command's last byte is collected and dispatches it. -/
theorem xfer_collecting_last (b : Byte) (s : State) (hp : s.f.pstate = .collectingCommandData)
    (h : s.f.pos + 1 = collectNeed s.cfg (flashCmdOf s.cfg s.f.cmd)) :
    xfer b s = (s.cfg.defaultMiso, noted b s.cfg.defaultMiso (dispatch (collected b s))) := by
  rw [xfer_collecting b s hp, collect_last b s h]

/-- One more address byte is one more byte of the number, of which 24 bits are kept (30 R91). -/
theorem accShift_toNat (acc : Addr24) (b : Byte) : (accShift acc b).toNat = (acc.toNat * 256 + b.toNat) % 2 ^ 24 := by
  have hb : b.toNat < 2 ^ 8 := b.isLt
  have e : accShift acc b = BitVec.ofNat 24 (acc.toNat * 256 + b.toNat) := by
    apply BitVec.eq_of_getLsbD_eq
    intro i hi
    have h8 : acc.toNat * 256 + b.toNat = 2 ^ 8 * acc.toNat + b.toNat := by omega
    rw [BitVec.getLsbD_ofNat, h8, Nat.testBit_two_pow_mul_add _ hb]
    simp only [accShift, BitVec.getLsbD_or, BitVec.getLsbD_shiftLeft, BitVec.getLsbD_setWidth]
    by_cases h1 : i < 8
    · simp [h1, hi, BitVec.testBit_toNat]
    · simp [h1, hi, BitVec.getLsbD_of_ge b i (by omega), BitVec.testBit_toNat]
  rw [e, BitVec.toNat_ofNat]

/-- The address bytes enter the accumulator most significant first (30 R91). -/
theorem foldl_accShift_toNat (bs : List Byte) (acc : Addr24) (n : Nat) (h : acc.toNat = n % 2 ^ 24) :
    (bs.foldl accShift acc).toNat = bs.foldl (fun n b => n * 256 + b.toNat) n % 2 ^ 24 := by
  induction bs generalizing acc n with
  | nil => exact h
  | cons b bs ih =>
    refine ih (accShift acc b) (n * 256 + b.toNat) ?_
    rw [accShift_toNat, h]
    omega

/-- The accumulator holds the address its bytes form. -/
theorem foldl_accShift (bs : List Byte) : bs.foldl accShift 0#24 = BitVec.ofNat 24 (addressOf bs) := by
  apply BitVec.eq_of_toNat_eq
  rw [foldl_accShift_toNat bs 0#24 0 rfl, BitVec.toNat_ofNat, addressOf, Nat.mod_mod]

theorem addressOf_lt (bs : List Byte) : addressOf bs < 2 ^ 24 := Nat.mod_lt _ (by decide)

theorem addressOf_toNat (bs : List Byte) : (BitVec.ofNat 24 (addressOf bs)).toNat = addressOf bs := by
  rw [BitVec.toNat_ofNat, Nat.mod_eq_of_lt (addressOf_lt bs)]

/-- Once the address is collected, later bytes leave the accumulator alone. -/
theorem collectAccs_full (c : Cfg) (ds : List Byte) (f : Flash) (hk : flashCmdOf c f.cmd ≠ some .wrreg)
    (hp : c.addrBytes ≤ f.pos) : collectAccs c ds f = f.acc := by
  induction ds generalizing f with
  | nil => rfl
  | cons d ds ih =>
    refine (ih { f with acc := collectAcc c d f, pos := f.pos + 1 } hk (Nat.le_succ_of_le hp)).trans ?_
    show collectAcc c d f = f.acc
    unfold collectAcc
    rw [if_neg hk, if_neg (by omega)]

/-- A collected address byte enters the accumulator. -/
theorem collectAcc_address (c : Cfg) (b : Byte) (f : Flash) (hk : flashCmdOf c f.cmd ≠ some .wrreg)
    (hp : f.pos < c.addrBytes) : collectAcc c b f = accShift f.acc b := by
  unfold collectAcc
  rw [if_neg hk, if_pos hp]

/-- The address bytes, and whatever follows them, leave the address in the accumulator. -/
theorem collectAccs_address (c : Cfg) (addr ds : List Byte) (f : Flash) (hk : flashCmdOf c f.cmd ≠ some .wrreg)
    (hp : f.pos + addr.length = c.addrBytes) : collectAccs c (addr ++ ds) f = addr.foldl accShift f.acc := by
  induction addr generalizing f with
  | nil => exact collectAccs_full c ds f hk (by simpa using hp.ge)
  | cons b bs ih =>
    rw [List.length_cons] at hp
    refine (ih { f with acc := collectAcc c b f, pos := f.pos + 1 } hk (by show f.pos + 1 + bs.length = _; omega)).trans ?_
    show bs.foldl accShift (collectAcc c b f) = _
    rw [collectAcc_address c b f hk (by omega)]
    rfl

/-- The state in which an addressed command has its address and all its dummy bytes `ds`, before its dispatch. -/
def addressed (b : Byte) (addr ds : List Byte) (s : State) : State :=
  { s with
    l := { s.l with trace := s.l.trace ++ silentExchanges s (b :: (addr ++ ds)) }
    f := { s.f with resetArmed := false, cmd := b, pos := addr.length + ds.length, acc := BitVec.ofNat 24 (addressOf addr),
                    pstate := .collectingCommandData } }

/-- A dispatch neither sees nor changes the trace. -/
theorem noted_dispatch (b r : Byte) (s : State) : noted b r (dispatch s) = dispatch (noted b r s) := by
  have d := deviceOnly_dispatch (DeviceOnly.refl s)
  have e : noted b r s = outer s.h { s.l with trace := s.l.trace ++ [.xfer b r] } s.inbox s := rfl
  have e2 : noted b r (dispatch s) =
      outer (dispatch s).h { (dispatch s).l with trace := (dispatch s).l.trace ++ [.xfer b r] } (dispatch s).inbox (dispatch s) :=
    rfl
  rw [e, dispatch_outer, e2, d.h, d.l, d.inbox]

/-- The accumulator after one more collected byte. -/
theorem collectAccs_append (c : Cfg) (bs : List Byte) (b : Byte) (f : Flash) :
    collectAccs c (bs ++ [b]) f = collectAcc c b { f with acc := collectAccs c bs f, pos := f.pos + bs.length } := by
  induction bs generalizing f with
  | nil => simp [collectAccs]
  | cons d bs ih =>
    simp only [List.cons_append, collectAccs, ih, List.length_cons]
    congr 2
    omega

/-- The bytes a collecting command needs, the last among them, dispatch it (43 R200, R201). -/
theorem xferAll_collect_whole (bs : List Byte) (s : State) (k : FlashCmd) (hk : flashCmdOf s.cfg s.f.cmd = some k)
    (hp : s.f.pstate = .collectingCommandData) (h0 : bs ≠ []) (hn : s.f.pos + bs.length = collectNeed s.cfg (some k)) :
    xferAll bs s = dispatchAs { s with
      l := { s.l with trace := s.l.trace ++ silentExchanges s bs }
      f := { s.f with pos := s.f.pos + bs.length, acc := collectAccs s.cfg bs s.f } } k := by
  obtain ⟨init, last, rfl⟩ : ∃ init last, bs = init ++ [last] :=
    ⟨bs.dropLast, bs.getLast h0, (List.dropLast_append_getLast h0).symm⟩
  rw [List.length_append, List.length_singleton] at hn
  have h1 : s.f.pos + init.length + 1 = collectNeed s.cfg (flashCmdOf s.cfg s.f.cmd) := by rw [hk]; omega
  rw [xferAll_append, xferAll_collecting init s hp (by omega), xferAll_cons, xferAll_nil]
  have last_step : ∀ t : State, t.f.pstate = .collectingCommandData → flashCmdOf t.cfg t.f.cmd = some k →
      t.f.pos + 1 = collectNeed t.cfg (flashCmdOf t.cfg t.f.cmd) →
      (xfer last t).2 = dispatchAs (noted last t.cfg.defaultMiso (collected last t)) k := by
    intro t hp hk h1
    rw [xfer_collecting_last last t hp h1, noted_dispatch]
    exact dispatch_of _ k hk
  refine (last_step _ ?_ ?_ ?_).trans ?_
  · exact hp
  · exact hk
  · exact h1
  congr 1
  simp only [collected, noted, State.mapF, State.mapL, silentExchanges, List.map_append, List.map_cons, List.map_nil,
    List.append_assoc, List.length_append, List.length_singleton, collectAccs_append, Nat.add_assoc]

/-- The bytes an addressed command needs are collected and dispatch it (43 R200, R201; 30 R91). -/
theorem xferAll_addressed (s : State) (k : FlashCmd) (addr ds : List Byte) (h : s.cfg.shapeOk = true)
    (hk : k = .pp ∨ k = .sse ∨ k = .be ∨ k = .fread) (h0 : addr ≠ []) (ha : addr.length = s.cfg.addrBytes)
    (hn : addr.length + ds.length = collectNeed s.cfg (some k)) :
    xferAll (addr ++ ds) (collectingFrom (s.cfg.opByte k) s) = dispatchAs (addressed (s.cfg.opByte k) addr ds s) k := by
  have hf : flashCmdOf s.cfg (s.cfg.opByte k) = some k := flashCmdOf_opByte s.cfg k h
  have hw : flashCmdOf s.cfg (s.cfg.opByte k) ≠ some .wrreg := by
    rw [hf]; rcases hk with rfl | rfl | rfl | rfl <;> simp
  have hacc : collectAccs s.cfg (addr ++ ds) (collectingFrom (s.cfg.opByte k) s).f = BitVec.ofNat 24 (addressOf addr) := by
    rw [collectAccs_address _ _ _ _ hw (by show 0 + addr.length = _; omega)]
    exact foldl_accShift addr
  rw [xferAll_collect_whole _ (collectingFrom (s.cfg.opByte k) s) k hf rfl (by simp [h0])
    (by rw [List.length_append]; exact (Nat.zero_add _).trans hn)]
  congr 1
  show ({ collectingFrom (s.cfg.opByte k) s with
      l := _, f := { (collectingFrom (s.cfg.opByte k) s).f with
        pos := 0 + (addr ++ ds).length
        acc := collectAccs s.cfg (addr ++ ds) (collectingFrom (s.cfg.opByte k) s).f } } : State) = _
  rw [hacc, List.length_append, Nat.zero_add]
  simp [addressed, collectingFrom, silentExchanges]

/-! ### Reading -/

/-- A run of exchanges in Reading streams storage from the current address on, wrapping at the capacity (44 R224). -/
theorem xferAll_reading (outs : List Byte) (s : State) (a : Nat) (h0 : 0 < s.cfg.capacity) (hp : s.f.pstate = .reading)
    (hc : s.f.cur = a % s.cfg.capacity) :
    xferAll outs s = { s with
      l := { s.l with trace := s.l.trace ++ exchanges outs (storageRead s a outs.length) }
      f := { s.f with cur := (a + outs.length) % s.cfg.capacity } } ∧
    replies outs s = storageRead s a outs.length := by
  induction outs generalizing s a with
  | nil =>
    constructor
    · simp [exchanges, xferAll, ← hc]
    · rfl
  | cons b bs ih =>
    have hx := xfer_reading b s hp
    have hsr : storageRead s a (bs.length + 1) = s.f.storage.read s.f.cur :: storageRead s (a + 1) bs.length := by
      unfold storageRead
      rw [List.range_succ_eq_map, List.map_cons, List.map_map]
      rw [hc]
      congr 1
      apply List.map_congr_left
      intro i _
      simp only [Function.comp]
      congr 2
      omega
    have := ih (xfer b s).2 (a + 1) (by rw [hx]; exact h0) (by rw [hx]; exact hp)
      (by rw [hx]; show (s.f.cur + 1) % s.cfg.capacity = (a + 1) % s.cfg.capacity; rw [hc]; simp)
    rw [hx] at this
    have hsr2 : ∀ x, storageRead (noted b (Memory.read s.f.storage s.f.cur)
        (s.mapF (fun f => { f with cur := (f.cur + 1) % s.cfg.capacity }))) x bs.length = storageRead s x bs.length :=
      fun x => rfl
    rw [hsr2] at this
    constructor
    · rw [xferAll_cons, hx, this.1, List.length_cons, hsr]
      simp only [noted, State.mapF, State.mapL, exchanges, List.zipWith_cons_cons, List.append_assoc, List.singleton_append]
      congr 3
      omega
    · rw [replies, hx, this.2, List.length_cons, hsr]

end Sys2Proof.Machine
end

