-- ==== Sys2Proof/Laws/Memory.lean ====
section
/-! SUPPORT. Memory: read after write, regions, and that every memory operation keeps the canonical form. -/

namespace Sys2Proof.Machine

/-- The canonical form as a proposition. -/
theorem memory_wf_iff (m : Memory) :
    Memory.wf m = true ↔ m.Pairwise (fun x y => x.1 < y.1) ∧ ∀ c ∈ m, c.2 ≠ 0xFF#8 := by
  simp [Memory.wf]

theorem memory_wf_nil : Memory.wf [] = true := by decide

theorem memory_wf_cons (k : Nat) (v : Byte) (m : Memory) :
    Memory.wf ((k, v) :: m) = true ↔ (∀ c ∈ m, k < c.1) ∧ v ≠ 0xFF#8 ∧ Memory.wf m = true := by
  simp only [memory_wf_iff, List.pairwise_cons, List.mem_cons, forall_eq_or_imp]
  tauto

@[simp] theorem memory_read_nil (a : Nat) : Memory.read [] a = 0xFF#8 := rfl

theorem memory_read_cons (k : Nat) (v : Byte) (m : Memory) (a : Nat) :
    Memory.read ((k, v) :: m) a = if k = a then v else m.read a := rfl

/-- An address that is not listed reads as 0xFF. -/
theorem memory_read_unlisted (m : Memory) (a : Nat) (h : ∀ c ∈ m, c.1 ≠ a) : m.read a = 0xFF#8 := by
  induction m with
  | nil => rfl
  | cons c m ih =>
    obtain ⟨k, v⟩ := c
    simp only [List.mem_cons, forall_eq_or_imp] at h
    rw [memory_read_cons, if_neg h.1, ih h.2]

/-- Reading an address just written gives the byte written. -/
theorem memory_read_write_same (m : Memory) (a : Nat) (b : Byte) (h : Memory.wf m = true) :
    (m.write a b).read a = b := by
  induction m with
  | nil => unfold Memory.write; split_ifs with hb <;> simp [memory_read_cons, hb]
  | cons c m ih =>
    obtain ⟨k, v⟩ := c
    rw [memory_wf_cons] at h
    obtain ⟨hk, -, hm⟩ := h
    have un : a ≤ k → Memory.read m a = 0xFF#8 := fun hle =>
      memory_read_unlisted m a (fun c hc => by have := hk c hc; omega)
    unfold Memory.write
    split_ifs with h1 h2 h3 h4
    · rw [memory_read_cons, if_neg (by omega), un (by omega), h2]
    · simp [memory_read_cons]
    · rw [un (by omega), h4]
    · simp [memory_read_cons]
    · rw [memory_read_cons, if_neg (by omega), ih hm]

/-- A write leaves every other address alone. -/
theorem memory_read_write_other (m : Memory) (a a' : Nat) (b : Byte) (h : a' ≠ a) :
    (m.write a b).read a' = m.read a' := by
  induction m with
  | nil => unfold Memory.write; split_ifs <;> simp [memory_read_cons, h.symm]
  | cons c m ih =>
    obtain ⟨k, v⟩ := c
    unfold Memory.write
    split_ifs with h1 h2 h3 h4
    · rfl
    · rw [memory_read_cons, if_neg h.symm]
    · rw [memory_read_cons, if_neg (by omega)]
    · rw [memory_read_cons, memory_read_cons, if_neg h.symm, if_neg (by omega)]
    · rw [memory_read_cons, memory_read_cons, ih]

/-- Reading after a write, at any address. -/
theorem memory_read_write (m : Memory) (a a' : Nat) (b : Byte) (h : Memory.wf m = true) :
    (m.write a b).read a' = if a' = a then b else m.read a' := by
  split_ifs with e
  · rw [e, memory_read_write_same m a b h]
  · exact memory_read_write_other m a a' b e

/-- What a write may list: the address written, or what was listed before. -/
theorem memory_mem_write (m : Memory) (a : Nat) (b : Byte) (c : Host.Cell) (h : c ∈ m.write a b) :
    (c = (a, b) ∧ b ≠ 0xFF#8) ∨ c ∈ m := by
  induction m with
  | nil =>
    unfold Memory.write at h
    split_ifs at h with hb
    · simp at h
    · exact .inl ⟨List.mem_singleton.mp h, hb⟩
  | cons d m ih =>
    obtain ⟨k, v⟩ := d
    unfold Memory.write at h
    split_ifs at h with h1 h2 h3 h4
    · exact .inr h
    · rcases List.mem_cons.mp h with h | h
      · exact .inl ⟨h, h2⟩
      · exact .inr h
    · exact .inr (List.mem_cons_of_mem _ h)
    · rcases List.mem_cons.mp h with h | h
      · exact .inl ⟨h, h4⟩
      · exact .inr (List.mem_cons_of_mem _ h)
    · rcases List.mem_cons.mp h with h | h
      · exact .inr (h ▸ List.mem_cons_self)
      · rcases ih h with h | h
        · exact .inl h
        · exact .inr (List.mem_cons_of_mem _ h)

/-- A write keeps the canonical form. -/
theorem memory_write_wf (m : Memory) (a : Nat) (b : Byte) (h : Memory.wf m = true) :
    Memory.wf (m.write a b) = true := by
  induction m with
  | nil =>
    unfold Memory.write
    split_ifs with hb
    · exact memory_wf_nil
    · rw [memory_wf_cons]; exact ⟨by simp, hb, memory_wf_nil⟩
  | cons c m ih =>
    obtain ⟨k, v⟩ := c
    have h0 := h
    rw [memory_wf_cons] at h
    obtain ⟨hk, hv, hm⟩ := h
    unfold Memory.write
    split_ifs with h1 h2 h3 h4
    · exact h0
    · rw [memory_wf_cons]
      refine ⟨?_, h2, h0⟩
      simp only [List.mem_cons, forall_eq_or_imp]
      exact ⟨h1, fun c hc => lt_trans h1 (hk c hc)⟩
    · exact hm
    · rw [memory_wf_cons]; exact ⟨fun c hc => by have := hk c hc; omega, h4, hm⟩
    · rw [memory_wf_cons]
      refine ⟨fun c hc => ?_, hv, ih hm⟩
      rcases memory_mem_write m a b c hc with ⟨rfl, -⟩ | hc
      · simp only; omega
      · exact hk c hc

/-- A write below `n` lists nothing at or above `n`. -/
theorem memory_write_below (m : Memory) (a : Nat) (b : Byte) (n : Nat) (h : Memory.below m n = true) (ha : a < n) :
    Memory.below (m.write a b) n = true := by
  simp only [Memory.below, List.all_eq_true, decide_eq_true_eq] at *
  intro c hc
  rcases memory_mem_write m a b c hc with ⟨rfl, -⟩ | hc
  · exact ha
  · exact h c hc

/-- A filtered memory is canonical. -/
theorem memory_filter_wf (m : Memory) (p : Host.Cell → Bool) (h : Memory.wf m = true) :
    Memory.wf (m.filter p) = true := by
  rw [memory_wf_iff] at *
  exact ⟨h.1.filter p, fun c hc => h.2 c (List.mem_filter.mp hc).1⟩

/-- Reading a memory filtered by address. -/
theorem memory_read_filter (m : Memory) (p : Nat → Bool) (a : Nat) :
    Memory.read (m.filter (fun c => p c.1)) a = if p a then m.read a else 0xFF#8 := by
  induction m with
  | nil => simp
  | cons c m ih =>
    obtain ⟨k, v⟩ := c
    rw [List.filter_cons, memory_read_cons]
    by_cases hk : k = a
    · subst hk
      cases hp : p k <;> simp_all [memory_read_cons]
    · cases hp : p k <;> simp_all [memory_read_cons]

/-- Reading two memories joined: the first wins where it lists the address. -/
theorem memory_read_append (m n : Memory) (a : Nat) :
    Memory.read (m ++ n) a = if m.any (fun c => c.1 == a) then m.read a else n.read a := by
  induction m with
  | nil => simp
  | cons c m ih =>
    obtain ⟨k, v⟩ := c
    rw [List.cons_append, memory_read_cons, memory_read_cons, ih]
    by_cases hk : k = a <;> simp [hk]

/-- A slice reads as the memory inside the region and as 0xFF outside. -/
theorem memory_read_slice (m : Memory) (off len a : Nat) :
    (m.slice off len).read a = if off ≤ a ∧ a < off + len then m.read a else 0xFF#8 := by
  have := memory_read_filter m (fun k => decide (off ≤ k) && decide (k < off + len)) a
  simpa [Memory.slice] using this

theorem memory_slice_wf (m : Memory) (off len : Nat) (h : Memory.wf m = true) :
    Memory.wf (m.slice off len) = true := memory_filter_wf m _ h

theorem memory_slice_inside (m : Memory) (off len : Nat) : Memory.inside (m.slice off len) off len = true := by
  simp only [Memory.inside, Memory.slice, List.all_eq_true]
  intro c hc
  exact (List.mem_filter.mp hc).2

/-- The bytes of a slice are the bytes of the memory. -/
theorem memory_slice_bytes (m : Memory) (off len : Nat) : (m.slice off len).bytes off len = m.bytes off len := by
  unfold Memory.bytes
  refine List.map_congr_left (fun i hi => ?_)
  rw [memory_read_slice, if_pos]
  have := List.mem_range.mp hi
  omega

/-- Reading after a region has been replaced. -/
theorem memory_read_splice (m : Memory) (off len : Nat) (d : Memory) (a : Nat)
    (hd : Memory.inside d off len = true) :
    (m.splice off len d).read a = if off ≤ a ∧ a < off + len then d.read a else m.read a := by
  simp only [Memory.inside, List.all_eq_true, Bool.and_eq_true, decide_eq_true_eq] at hd
  unfold Memory.splice
  have lo := memory_read_filter m (fun k => decide (k < off)) a
  have hi := memory_read_filter m (fun k => decide (off + len ≤ k)) a
  rw [List.append_assoc, memory_read_append, memory_read_append, lo, hi]
  by_cases h1 : a < off
  · have hda : (d.any fun c => c.1 == a) = false := by
      simp only [List.any_eq_false, beq_iff_eq]; intro c hc; have := hd c hc; omega
    rw [hda, if_neg (show ¬(off ≤ a ∧ a < off + len) by omega)]
    simp only [decide_eq_true h1, if_true, Bool.false_eq_true, if_false,
      decide_eq_false (show ¬(off + len ≤ a) by omega)]
    split_ifs with h2
    · rfl
    · refine (memory_read_unlisted m a (fun c hc e => h2 ?_)).symm
      exact List.any_eq_true.mpr ⟨c, List.mem_filter.mpr ⟨hc, by simp; omega⟩, by simp [e]⟩
  · have hlo : ((m.filter fun c => decide (c.1 < off)).any fun c => c.1 == a) = false := by
      simp only [List.any_eq_false, beq_iff_eq, List.mem_filter, decide_eq_true_eq]; intro c hc; omega
    rw [hlo, if_neg (by simp)]
    by_cases h2 : a < off + len
    · rw [if_pos (show off ≤ a ∧ a < off + len by omega), decide_eq_false (show ¬(off + len ≤ a) by omega)]
      simp only [Bool.false_eq_true, if_false]
      split_ifs with h3
      · rfl
      · refine (memory_read_unlisted d a (fun c hc e => h3 ?_)).symm
        exact List.any_eq_true.mpr ⟨c, hc, by simp [e]⟩
    · rw [if_neg (show ¬(off ≤ a ∧ a < off + len) by omega), decide_eq_true (show off + len ≤ a by omega)]
      have hda : (d.any fun c => c.1 == a) = false := by
        simp only [List.any_eq_false, beq_iff_eq]; intro c hc; have := hd c hc; omega
      rw [hda]
      simp

/-- Replacing a region by canonical data keeps the canonical form. -/
theorem memory_splice_wf (m : Memory) (off len : Nat) (d : Memory) (h : Memory.wf m = true)
    (hd : Memory.wf d = true) (hi : Memory.inside d off len = true) : Memory.wf (m.splice off len d) = true := by
  simp only [Memory.inside, List.all_eq_true, Bool.and_eq_true, decide_eq_true_eq] at hi
  rw [memory_wf_iff] at *
  refine ⟨?_, ?_⟩
  · unfold Memory.splice
    rw [List.pairwise_append, List.pairwise_append]
    refine ⟨⟨h.1.filter _, hd.1, ?_⟩, h.1.filter _, ?_⟩
    · intro x hx y hy
      have := (List.mem_filter.mp hx).2; have := hi y hy
      simp only [decide_eq_true_eq] at *; omega
    · intro x hx y hy
      have h2 := (List.mem_filter.mp hy).2
      rcases List.mem_append.mp hx with hx | hx
      · have := (List.mem_filter.mp hx).2; simp only [decide_eq_true_eq] at *; omega
      · have := hi x hx; simp only [decide_eq_true_eq] at *; omega
  · intro c hc
    unfold Memory.splice at hc
    simp only [List.mem_append, List.mem_filter] at hc
    rcases hc with (hc | hc) | hc
    · exact h.2 c hc.1
    · exact hd.2 c hc
    · exact h.2 c hc.1

/-- A splice of data inside a region below `n` lists nothing at or above `n`. -/
theorem memory_splice_below (m : Memory) (off len : Nat) (d : Memory) (n : Nat) (h : Memory.below m n = true)
    (hi : Memory.inside d off len = true) (hn : off + len ≤ n) : Memory.below (m.splice off len d) n = true := by
  simp only [Memory.below, Memory.inside, List.all_eq_true, Bool.and_eq_true, decide_eq_true_eq] at *
  intro c hc
  unfold Memory.splice at hc
  simp only [List.mem_append, List.mem_filter] at hc
  rcases hc with (hc | hc) | hc
  · exact h c hc.1
  · have := hi c hc; omega
  · exact h c hc.1

/-- An erased region reads as 0xFF, the rest as before. -/
theorem memory_read_fillErased (m : Memory) (off len a : Nat) :
    (m.fillErased off len).read a = if off ≤ a ∧ a < off + len then 0xFF#8 else m.read a := by
  unfold Memory.fillErased
  rw [memory_read_splice m off len [] a (by rfl)]
  rfl

theorem memory_fillErased_wf (m : Memory) (off len : Nat) (h : Memory.wf m = true) :
    Memory.wf (m.fillErased off len) = true :=
  memory_splice_wf m off len [] h memory_wf_nil (by rfl)

theorem memory_fillErased_below (m : Memory) (off len n : Nat) (h : Memory.below m n = true) :
    Memory.below (m.fillErased off len) n = true := by
  simp only [Memory.below, List.all_eq_true, decide_eq_true_eq] at *
  intro c hc
  unfold Memory.fillErased Memory.splice at hc
  simp only [List.append_nil, List.mem_append, List.mem_filter] at hc
  rcases hc with hc | hc
  · exact h c hc.1
  · exact h c hc.1

/-- Two canonical memories that read alike everywhere are equal. -/
theorem memory_ext (m n : Memory) (hm : Memory.wf m = true) (hn : Memory.wf n = true)
    (h : ∀ a, m.read a = n.read a) : m = n := by
  induction m generalizing n with
  | nil =>
    cases n with
    | nil => rfl
    | cons c n =>
      obtain ⟨k, v⟩ := c
      have := h k
      rw [memory_wf_cons] at hn
      simp [memory_read_cons] at this
      exact absurd this.symm hn.2.1
  | cons c m ih =>
    obtain ⟨k, v⟩ := c
    rw [memory_wf_cons] at hm
    cases n with
    | nil =>
      have := h k
      simp [memory_read_cons] at this
      exact absurd this hm.2.1
    | cons d n =>
      obtain ⟨k', v'⟩ := d
      rw [memory_wf_cons] at hn
      have hkk : k = k' := by
        rcases lt_trichotomy k k' with hlt | heq | hgt
        · have e := h k
          rw [memory_read_cons, if_pos rfl, memory_read_cons, if_neg (by omega),
            memory_read_unlisted n k (fun c hc => by have := hn.1 c hc; omega)] at e
          exact absurd e hm.2.1
        · exact heq
        · have e := h k'
          rw [memory_read_cons, if_neg (by omega), memory_read_cons, if_pos rfl,
            memory_read_unlisted m k' (fun c hc => by have := hm.1 c hc; omega)] at e
          exact absurd e.symm hn.2.1
      subst hkk
      have hv : v = v' := by simpa [memory_read_cons] using h k
      subst hv
      congr 1
      refine ih n hm.2.2 hn.2.2 (fun a => ?_)
      by_cases ha : k = a
      · subst ha
        rw [memory_read_unlisted m k (fun c hc => by have := hm.1 c hc; omega),
          memory_read_unlisted n k (fun c hc => by have := hn.1 c hc; omega)]
      · simpa [memory_read_cons, ha] using h a

end Sys2Proof.Machine
end

