-- ==== Sys2Proof/Laws/PerInstr.lean ====
section
/-! SUPPORT. A family of statements about each instruction as syntax: a well-formed instruction is encoded in its own space
(30_encoding R80), a register operation inside the window, a flash command with its opcode first. -/

namespace Sys2Proof.Laws.EncodesInItsSpace

open Sys2Proof

/-- The register operations and reserved offsets. -/
def inHostSpace : Instr → Bool
  | .w32Cr _ _ | .r32Cr _ | .w32Sr _ _ | .r32Sr _ | .w32Fcr _ _ | .r32Fcr _ | .w32Dlr _ _ | .r32Dlr _
  | .w32Ccr _ _ | .r32Ccr _ | .w32Ar _ _ | .r32Ar _ | .w8Dr _ _ | .r8Dr _ | .w32Psmkr _ _ | .r32Psmkr _
  | .w32Psmar _ _ | .r32Psmar _ | .w32Pir _ _ | .r32Pir _
  | .reserved04 _ _ _ | .reserved1C _ _ _ | .reserved30 _ _ _ => true
  | .rsten | .rst | .wren | .wrdi | .wrreg _ | .rdsr _ | .rdfsr _ | .rdcfg _ | .fread _ | .rdid _ | .pp _
  | .sse _ | .be _ | .esus | .eres | .dslp | .wake | .qen | .unknown _ => false

/-- A code in the right space. -/
def fits (c : Cfg) (host : Bool) : Code → Prop
  | .access a => host = true ∧ a.off < c.regWindowLen
  | .frame bs => host = false ∧ bs ≠ []

/-- The statement of the family. -/
def Statement (i : Instr) : Prop :=
  ∀ c : Cfg, c.shapeOk = true → WellFormed c i = true → fits c (inHostSpace i) (encode c i)

theorem ofRegister (c : Cfg) (r : Reg) (h : c.shapeOk = true) : c.offset r < c.regWindowLen :=
  ((shapeOk_tables c h).2.2.2 r).2

theorem w32Cr (w : Nat) (v : Word) : Statement (.w32Cr w v) := fun c h _ => ⟨rfl, ofRegister c .cr h⟩

theorem r32Cr (w : Nat) : Statement (.r32Cr w) := fun c h _ => ⟨rfl, ofRegister c .cr h⟩

theorem w32Sr (w : Nat) (v : Word) : Statement (.w32Sr w v) := fun c h _ => ⟨rfl, ofRegister c .sr h⟩

theorem r32Sr (w : Nat) : Statement (.r32Sr w) := fun c h _ => ⟨rfl, ofRegister c .sr h⟩

theorem w32Fcr (w : Nat) (v : Word) : Statement (.w32Fcr w v) := fun c h _ => ⟨rfl, ofRegister c .fcr h⟩

theorem r32Fcr (w : Nat) : Statement (.r32Fcr w) := fun c h _ => ⟨rfl, ofRegister c .fcr h⟩

theorem w32Dlr (w : Nat) (v : Word) : Statement (.w32Dlr w v) := fun c h _ => ⟨rfl, ofRegister c .dlr h⟩

theorem r32Dlr (w : Nat) : Statement (.r32Dlr w) := fun c h _ => ⟨rfl, ofRegister c .dlr h⟩

theorem w32Ccr (w : Nat) (v : Word) : Statement (.w32Ccr w v) := fun c h _ => ⟨rfl, ofRegister c .ccr h⟩

theorem r32Ccr (w : Nat) : Statement (.r32Ccr w) := fun c h _ => ⟨rfl, ofRegister c .ccr h⟩

theorem w32Ar (w : Nat) (v : Word) : Statement (.w32Ar w v) := fun c h _ => ⟨rfl, ofRegister c .ar h⟩

theorem r32Ar (w : Nat) : Statement (.r32Ar w) := fun c h _ => ⟨rfl, ofRegister c .ar h⟩

theorem w8Dr (w : Nat) (v : Word) : Statement (.w8Dr w v) := fun c h _ => ⟨rfl, ofRegister c .dr h⟩

theorem r8Dr (w : Nat) : Statement (.r8Dr w) := fun c h _ => ⟨rfl, ofRegister c .dr h⟩

theorem w32Psmkr (w : Nat) (v : Word) : Statement (.w32Psmkr w v) := fun c h _ => ⟨rfl, ofRegister c .psmkr h⟩

theorem r32Psmkr (w : Nat) : Statement (.r32Psmkr w) := fun c h _ => ⟨rfl, ofRegister c .psmkr h⟩

theorem w32Psmar (w : Nat) (v : Word) : Statement (.w32Psmar w v) := fun c h _ => ⟨rfl, ofRegister c .psmar h⟩

theorem r32Psmar (w : Nat) : Statement (.r32Psmar w) := fun c h _ => ⟨rfl, ofRegister c .psmar h⟩

theorem w32Pir (w : Nat) (v : Word) : Statement (.w32Pir w v) := fun c h _ => ⟨rfl, ofRegister c .pir h⟩

theorem r32Pir (w : Nat) : Statement (.r32Pir w) := fun c h _ => ⟨rfl, ofRegister c .pir h⟩

theorem reserved04 (a : Access) (off w : Nat) : Statement (.reserved04 a off w) := fun c _ hw => by
  simp only [WellFormed, Bool.and_eq_true, reservedOffset, decide_eq_true_eq] at hw
  exact ⟨rfl, by show off < c.regWindowLen; omega⟩

theorem reserved1C (a : Access) (off w : Nat) : Statement (.reserved1C a off w) := fun c _ hw => by
  simp only [WellFormed, Bool.and_eq_true, reservedOffset, decide_eq_true_eq] at hw
  exact ⟨rfl, by show off < c.regWindowLen; omega⟩

theorem reserved30 (a : Access) (off w : Nat) : Statement (.reserved30 a off w) := fun c _ hw => by
  simp only [WellFormed, Bool.and_eq_true, reservedOffset, decide_eq_true_eq] at hw
  exact ⟨rfl, by show off < c.regWindowLen; omega⟩

theorem rsten : Statement .rsten := fun _ _ _ => ⟨rfl, List.cons_ne_nil _ _⟩

theorem rst : Statement .rst := fun _ _ _ => ⟨rfl, List.cons_ne_nil _ _⟩

theorem wren : Statement .wren := fun _ _ _ => ⟨rfl, List.cons_ne_nil _ _⟩

theorem wrdi : Statement .wrdi := fun _ _ _ => ⟨rfl, List.cons_ne_nil _ _⟩

theorem wrreg (ops : List Byte) : Statement (.wrreg ops) := fun _ _ _ => ⟨rfl, List.cons_ne_nil _ _⟩

theorem rdsr (ops : List Byte) : Statement (.rdsr ops) := fun _ _ _ => ⟨rfl, List.cons_ne_nil _ _⟩

theorem rdfsr (ops : List Byte) : Statement (.rdfsr ops) := fun _ _ _ => ⟨rfl, List.cons_ne_nil _ _⟩

theorem rdcfg (ops : List Byte) : Statement (.rdcfg ops) := fun _ _ _ => ⟨rfl, List.cons_ne_nil _ _⟩

theorem fread (ops : List Byte) : Statement (.fread ops) := fun _ _ _ => ⟨rfl, List.cons_ne_nil _ _⟩

theorem rdid (ops : List Byte) : Statement (.rdid ops) := fun _ _ _ => ⟨rfl, List.cons_ne_nil _ _⟩

theorem pp (ops : List Byte) : Statement (.pp ops) := fun _ _ _ => ⟨rfl, List.cons_ne_nil _ _⟩

theorem sse (ops : List Byte) : Statement (.sse ops) := fun _ _ _ => ⟨rfl, List.cons_ne_nil _ _⟩

theorem be (ops : List Byte) : Statement (.be ops) := fun _ _ _ => ⟨rfl, List.cons_ne_nil _ _⟩

theorem esus : Statement .esus := fun _ _ _ => ⟨rfl, List.cons_ne_nil _ _⟩

theorem eres : Statement .eres := fun _ _ _ => ⟨rfl, List.cons_ne_nil _ _⟩

theorem dslp : Statement .dslp := fun _ _ _ => ⟨rfl, List.cons_ne_nil _ _⟩

theorem wake : Statement .wake := fun _ _ _ => ⟨rfl, List.cons_ne_nil _ _⟩

theorem qen : Statement .qen := fun _ _ _ => ⟨rfl, List.cons_ne_nil _ _⟩

theorem unknown (b : Byte) : Statement (.unknown b) := fun _ _ _ => ⟨rfl, List.cons_ne_nil _ _⟩

end Sys2Proof.Laws.EncodesInItsSpace
end

