-- ==== Sys2Proof/Laws/Registers.lean ====
section
/-! SUPPORT. All that the common checks of a register operation can do (41 R120), and all a read of an UNSPECIFIED value can. -/

namespace Sys2Proof.Machine

/-- A register write that passes the checks runs the register's own rule. -/
theorem regWrite_passes (r : Reg) (w : Nat) (body : State → State) (s : State) (hw : w = regWidth r)
    (hb : lockedByBusy r = false ∨ s.h.busy = false) : regWrite r w body s = body s := by
  unfold regWrite
  rw [if_neg (by simpa using hw), if_neg]
  rcases hb with h | h <;> simp [h]

/-- A register write of the wrong width. -/
theorem regWrite_width (r : Reg) (w : Nat) (body : State → State) (s : State) (hw : w ≠ regWidth r) :
    regWrite r w body s = raise (.accessWidth (s.cfg.offset r) w) s := if_pos hw

/-- A write of a configuration register while a transaction is in flight. -/
theorem regWrite_busy (r : Reg) (w : Nat) (body : State → State) (s : State) (hw : w = regWidth r)
    (hl : lockedByBusy r = true) (hb : s.h.busy = true) :
    regWrite r w body s = raise (.hostBusyWrite (s.cfg.offset r)) s := by
  unfold regWrite
  rw [if_neg (by simpa using hw), if_pos (by simp [hl, hb])]

/-- All a register write can do. -/
theorem regWrite_cases (r : Reg) (w : Nat) (body : State → State) (s : State) :
    (w ≠ regWidth r ∧ regWrite r w body s = raise (.accessWidth (s.cfg.offset r) w) s) ∨
    (w = regWidth r ∧ lockedByBusy r = true ∧ s.h.busy = true ∧
      regWrite r w body s = raise (.hostBusyWrite (s.cfg.offset r)) s) ∨
    (w = regWidth r ∧ (lockedByBusy r = true → s.h.busy = false) ∧ regWrite r w body s = body s) := by
  by_cases hw : w = regWidth r
  · cases hl : lockedByBusy r
    · exact .inr (.inr ⟨hw, by simp, regWrite_passes r w body s hw (.inl hl)⟩)
    · cases hb : s.h.busy
      · exact .inr (.inr ⟨hw, by simp, regWrite_passes r w body s hw (.inr hb)⟩)
      · exact .inr (.inl ⟨hw, rfl, rfl, regWrite_busy r w body s hw hl hb⟩)
  · exact .inl ⟨hw, regWrite_width r w body s hw⟩

/-- A register read of the right width runs the register's own rule. -/
theorem regRead_passes (r : Reg) (w : Nat) (body : State → State) (s : State) (hw : w = regWidth r) :
    regRead r w body s = body s := if_neg (by simpa using hw)

/-- A register read of the wrong width. -/
theorem regRead_width (r : Reg) (w : Nat) (body : State → State) (s : State) (hw : w ≠ regWidth r) :
    regRead r w body s = readUnspecified w (raise (.accessWidth (s.cfg.offset r) w) s) := if_pos hw

/-- All a register read can do. -/
theorem regRead_cases (r : Reg) (w : Nat) (body : State → State) (s : State) :
    (w ≠ regWidth r ∧ regRead r w body s = readUnspecified w (raise (.accessWidth (s.cfg.offset r) w) s)) ∨
    (w = regWidth r ∧ regRead r w body s = body s) := by
  by_cases hw : w = regWidth r
  · exact .inr ⟨hw, regRead_passes r w body s hw⟩
  · exact .inl ⟨hw, regRead_width r w body s hw⟩

/-- An UNSPECIFIED value fits its width, whatever it is. -/
theorem readUnspecified_bound (w : Nat) (s : State) : (readUnspecified w s).rdata < 2 ^ (8 * w) := BitVec.isLt _

end Sys2Proof.Machine
end

