-- ==== Sys2Proof/Laws/Sequencer.lean ====
section
/-! SUPPORT. What each part of the sequencer does to the host controller, the link and the rest of the state. -/

namespace Sys2Proof.Machine

/-! ### The device does not see the host controller -/

/-- An exchange answers the same whatever the host controller holds, and leaves it as it is. -/
theorem xfer_mapH (g : HostCtl → HostCtl) (b : Byte) (s : State) :
    xfer b (s.mapH g) = ((xfer b s).1, (xfer b s).2.mapH g) := by
  have h := xfer_outer (g s.h) s.l s.inbox b s
  have e : outer (g s.h) s.l s.inbox s = s.mapH g := rfl
  rw [e] at h
  rw [h, ← xfer_l]
  simp only [outer, State.mapH, xfer_h, ← xfer_inbox b s]

theorem xferAll_mapH (g : HostCtl → HostCtl) (bs : List Byte) (s : State) :
    xferAll bs (s.mapH g) = (xferAll bs s).mapH g := by
  induction bs generalizing s with
  | nil => rfl
  | cons b bs ih => rw [xferAll_cons, xfer_mapH, ih, xferAll_cons]

theorem replies_mapH (g : HostCtl → HostCtl) (bs : List Byte) (s : State) : replies bs (s.mapH g) = replies bs s := by
  induction bs generalizing s with
  | nil => rfl
  | cons b bs ih => simp only [replies, xfer_mapH, ih]

theorem flushDirty_mapH (g : HostCtl → HostCtl) (s : State) : flushDirty (s.mapH g) = (flushDirty s).mapH g := by
  have d := deviceOnly_flushDirty (DeviceOnly.refl s)
  have h := flushDirty_outer (g s.h) s.l s.inbox s
  have e : outer (g s.h) s.l s.inbox s = s.mapH g := rfl
  rw [e] at h
  rw [h, ← d.h, ← d.l, ← d.inbox]
  rfl

theorem setCS_mapH (level : Bool) (g : HostCtl → HostCtl) (s : State) :
    setCS level (s.mapH g) = (setCS level s).mapH g := by
  cases level
  · have : deviceDeselect (traced false (s.mapH g)) = (deviceDeselect (traced false s)).mapH g := by
      unfold deviceDeselect
      exact congrArg (fun t => State.mapF t _) (flushDirty_mapH g (traced false s))
    rw [setCS_false, this]
    rfl
  · rfl

/-! ### What a run of the sequencer keeps -/

/-- Configuration, inputs, the last read value and the free-value counter are kept; diagnostics and trace are only appended. -/
structure Kept (s t : State) : Prop where
  cfg : t.cfg = s.cfg
  inbox : t.inbox = s.inbox
  rdata : t.rdata = s.rdata
  draws : t.draws = s.draws
  diag : s.diag <+: t.diag
  trace : s.l.trace <+: t.l.trace

theorem Kept.refl (s : State) : Kept s s := ⟨rfl, rfl, rfl, rfl, List.prefix_refl _, List.prefix_refl _⟩

theorem Kept.trans {s t u : State} (a : Kept s t) (b : Kept t u) : Kept s u :=
  ⟨b.cfg.trans a.cfg, b.inbox.trans a.inbox, b.rdata.trans a.rdata, b.draws.trans a.draws, a.diag.trans b.diag,
    a.trace.trans b.trace⟩

theorem kept_mapH (g : HostCtl → HostCtl) (s : State) : Kept s (s.mapH g) :=
  ⟨rfl, rfl, rfl, rfl, List.prefix_refl _, List.prefix_refl _⟩

theorem kept_raise (d : Diagnostic) (s : State) : Kept s (raise d s) :=
  ⟨rfl, rfl, rfl, rfl, List.prefix_append _ _, List.prefix_refl _⟩

theorem kept_xfer (b : Byte) (s : State) : Kept s (xfer b s).2 :=
  ⟨xfer_cfg b s, xfer_inbox b s, xfer_rdata b s, xfer_draws b s, xfer_diag b s, by rw [xfer_trace]; exact List.prefix_append _ _⟩

theorem kept_xferAll (bs : List Byte) (s : State) : Kept s (xferAll bs s) := by
  induction bs generalizing s with
  | nil => exact Kept.refl s
  | cons b bs ih => exact (kept_xfer b s).trans (ih _)

theorem kept_setCS (level : Bool) (s : State) : Kept s (setCS level s) :=
  ⟨setCS_cfg level s, setCS_inbox level s, setCS_rdata level s, setCS_draws level s, setCS_diag level s,
    by rw [setCS_trace]; exact List.prefix_append _ _⟩

/-! ### Header and burst -/

theorem kept_header (s : State) : Kept s (header s) :=
  ((kept_mapH _ s).trans (kept_setCS true _)).trans (kept_xferAll _ _)

@[simp] theorem header_h (s : State) : (header s).h = { s.h with busy := true } := by simp [header]
@[simp] theorem header_cfg (s : State) : (header s).cfg = s.cfg := (kept_header s).cfg
@[simp] theorem header_cs (s : State) : (header s).l.cs = true := by simp [header]

/-- The header's frame opens with an assertion and carries the header's bytes. -/
theorem header_trace (s : State) :
    ∃ ins : List Byte, ins.length = (headerBytes s.cfg s.h.ccr s.h.ar).length ∧
      (header s).l.trace = s.l.trace ++ [.cs true] ++ List.zipWith LinkEvent.xfer (headerBytes s.cfg s.h.ccr s.h.ar) ins := by
  refine ⟨replies (headerBytes s.cfg s.h.ccr s.h.ar) (setCS true (s.mapH (fun h => { h with busy := true }))), by simp, ?_⟩
  unfold header
  rw [xferAll_trace, setCS_trace]
  rfl

/-- The burst is a run of filler exchanges whose replies go to the FIFO. -/
theorem burst_eq (n : Nat) (s : State) :
    burst n s = (xferAll (List.replicate n s.cfg.fillerByte) s).mapH
      (fun h => { h with fifo := h.fifo ++ replies (List.replicate n s.cfg.fillerByte) s }) := by
  induction n generalizing s with
  | zero => simp [burst, replies, State.mapH]
  | succ n ih =>
    simp only [burst]
    rw [ih]
    simp only [mapH_cfg, xfer_cfg, List.replicate_succ, xferAll_mapH, replies_mapH, xferAll_cons, replies]
    simp [State.mapH]

theorem kept_burst (n : Nat) (s : State) : Kept s (burst n s) := by
  rw [burst_eq]
  exact (kept_xferAll _ s).trans (kept_mapH _ _)

/-! ### Polling -/

theorem kept_pollExchange (s : State) : Kept s (pollExchange s).2 := kept_xferAll _ s

@[simp] theorem pollExchange_h (s : State) : (pollExchange s).2.h = s.h := by simp [pollExchange]
@[simp] theorem pollExchange_cs (s : State) : (pollExchange s).2.l.cs = s.l.cs := by simp [pollExchange]

@[simp] theorem pollExchange_cfg (s : State) : (pollExchange s).2.cfg = s.cfg := by simp [pollExchange]

/-- What a further iteration starts from: the instruction byte sent again after the exchanges of the one before (42 R158). -/
def pollResent (s : State) : State := (xfer (ccrInstruction s.cfg s.h.ccr) (pollExchange s).2).2

@[simp] theorem pollResent_h (s : State) : (pollResent s).h = s.h := by simp [pollResent]
@[simp] theorem pollResent_cfg (s : State) : (pollResent s).cfg = s.cfg := by simp [pollResent]
@[simp] theorem pollResent_cs (s : State) : (pollResent s).l.cs = s.l.cs := by simp [pollResent]

theorem kept_pollResent (s : State) : Kept s (pollResent s) := (kept_pollExchange s).trans (kept_xfer _ _)

/-- The response of an iteration matches. -/
def pollHit (s : State) : Bool := pollMatches (pollExchange s).1 s.h.psmkr s.h.psmar

/-- The last allowed iteration: status-match or timeout (42 R158). -/
theorem pollLoop_zero (s : State) :
    pollLoop 0 s = if pollHit s then pollMatched (pollExchange s).2 else pollTimedOut (pollExchange s).2 := by
  have e : pollMatches (pollExchange s).1 (pollExchange s).2.h.psmkr (pollExchange s).2.h.psmar = pollHit s := by
    simp [pollHit]
  rw [← e]
  rfl

/-- An iteration with more allowed: status-match, or the instruction byte again and the next iteration (42 R158). -/
theorem pollLoop_succ (n : Nat) (s : State) :
    pollLoop (n + 1) s = if pollHit s then pollMatched (pollExchange s).2 else pollLoop n (pollResent s) := by
  have e : pollMatches (pollExchange s).1 (pollExchange s).2.h.psmkr (pollExchange s).2.h.psmar = pollHit s := by
    simp [pollHit]
  have r : (xfer (ccrInstruction (pollExchange s).2.cfg (pollExchange s).2.h.ccr) (pollExchange s).2).2 = pollResent s := by
    simp [pollResent]
  rw [← e, ← r]
  rfl

/-- The polling loop raises status-match or timeout, one of the two, and changes nothing else of the host controller. -/
theorem pollLoop_h (n : Nat) (s : State) :
    (pollLoop n s).h = { s.h with smf := true } ∨ (pollLoop n s).h = { s.h with tof := true } := by
  induction n generalizing s with
  | zero =>
    rw [pollLoop_zero]
    split
    · left; simp [pollMatched]
    · right; simp [pollTimedOut]
  | succ n ih =>
    rw [pollLoop_succ]
    split
    · left; simp [pollMatched]
    · simpa using ih (pollResent s)

theorem kept_pollLoop (n : Nat) (s : State) : Kept s (pollLoop n s) := by
  induction n generalizing s with
  | zero =>
    rw [pollLoop_zero]
    split <;> exact (kept_pollExchange s).trans (kept_mapH _ _)
  | succ n ih =>
    rw [pollLoop_succ]
    split
    · exact (kept_pollExchange s).trans (kept_mapH _ _)
    · exact (kept_pollResent s).trans (ih _)

@[simp] theorem pollLoop_cs (n : Nat) (s : State) : (pollLoop n s).l.cs = s.l.cs := by
  induction n generalizing s with
  | zero =>
    rw [pollLoop_zero]
    split <;> simp [pollMatched, pollTimedOut]
  | succ n ih =>
    rw [pollLoop_succ]
    split
    · simp [pollMatched]
    · rw [ih]; simp

/-! ### The data phase -/

theorem kept_dataPhase (s : State) : Kept s (dataPhase s) := by
  unfold dataPhase
  split
  · exact (kept_setCS false s).trans (kept_mapH _ _)
  · exact (kept_setCS false s).trans (kept_mapH _ _)
  · exact kept_mapH _ _
  · exact (kept_burst _ s).trans (kept_setCS false _)
  · exact ((kept_pollLoop _ s).trans (kept_setCS false _)).trans (kept_mapH _ _)
  · exact Kept.refl s

theorem kept_execute (s : State) : Kept s (execute s).2 := by
  unfold execute
  split
  · exact kept_raise _ s
  · exact (kept_header s).trans (kept_dataPhase _)

theorem kept_sendDataByte (b : Byte) (s : State) : Kept s (sendDataByte b s) := by
  have h1 : Kept s ((xfer b s).2.mapH (fun h => { h with txLeft := h.txLeft - 1 })) := (kept_xfer b s).trans (kept_mapH _ _)
  unfold sendDataByte
  simp only
  split
  · exact (h1.trans (kept_mapH _ _)).trans (kept_setCS false _)
  · exact h1

/-- What a data byte sent does to the host controller (42 R161). -/
theorem sendDataByte_h (b : Byte) (s : State) :
    (sendDataByte b s).h = if s.h.txLeft - 1 = 0 then { s.h with txLeft := 0, tcf := true, busy := false }
      else { s.h with txLeft := s.h.txLeft - 1 } := by
  unfold sendDataByte
  simp only [mapH_h, xfer_h]
  split
  · next h => simp [complete, h]
  · simp

/-- What the data phase of an indirect write without data, or an indirect read without data, does to the host controller. -/
theorem endWithoutData_h (s : State) : (endWithoutData s).h = { s.h with tcf := true, busy := false } := by
  simp [endWithoutData, complete]

/-- What the data phase of an indirect read does to the host controller: the replies enter the FIFO. -/
theorem readBurst_h (s : State) :
    (readBurst s).h = { s.h with fifo := s.h.fifo ++ replies (List.replicate (dataLength s.h.dlr) s.cfg.fillerByte) s } := by
  simp [readBurst, burst_eq]

/-- Every polling budget of a configuration R10 allows is at least 1. -/
theorem pollBudget_pos (c : Cfg) (p : Word) (h : c.shapeOk = true) : 1 ≤ pollBudget c p := by
  unfold pollBudget
  split
  · next q hq => exact shapeOk_budgets c h q (List.mem_of_find?_eq_some hq)
  · omega

/-- What auto-polling does to the host controller: one of its two flags is raised and busy drops. -/
theorem autoPoll_h (s : State) :
    (autoPoll s).h = { s.h with smf := true, busy := false } ∨ (autoPoll s).h = { s.h with tof := true, busy := false } := by
  unfold autoPoll
  simp only [mapH_h, setCS_h]
  rcases pollLoop_h (pollBudget s.cfg s.h.pir - 1) s with h | h
  · left; rw [h]
  · right; rw [h]

end Sys2Proof.Machine
end

