-- ==== Sys2Proof/Laws/Transaction.lean ====
section
/-! SUPPORT. What a transaction is, said once for each mode: which trigger belongs to which mode, and each data phase as the frame of
its bytes followed by one update of the host controller. -/

namespace Sys2Proof.Machine

/-! ### Updates of the host controller -/

/-- An update of the host controller is a constant one at each state. -/
theorem mapH_const (s : State) (g : HostCtl → HostCtl) : s.mapH g = s.mapH (fun _ => g s.h) := rfl

theorem mapH_mapH (s : State) (g k : HostCtl → HostCtl) : (s.mapH g).mapH k = s.mapH (fun h => k (g h)) := rfl

/-! ### Start triggers (42 R150) -/

/-- A CCR trigger has no address phase, and polls or has no data phase. -/
theorem trigger_onCCR {c : Cfg} {ccr : Word} (h : startTrigger c ccr = .onCCR) :
    addressPhase c ccr = false ∧
      (functionalMode c ccr = .autoPolling ∨ (functionalMode c ccr ≠ .memoryMapped ∧ dataPhasePresent c ccr = false)) := by
  revert h
  unfold startTrigger
  cases functionalMode c ccr <;> cases addressPhase c ccr <;> cases dataPhasePresent c ccr <;> simp [triggerTable]

/-- An AR trigger has an address phase, and an indirect write among them has no data phase. -/
theorem trigger_onAR {c : Cfg} {ccr : Word} (h : startTrigger c ccr = .onAR) :
    addressPhase c ccr = true ∧ functionalMode c ccr ≠ .memoryMapped ∧
      (functionalMode c ccr = .indirectWrite → dataPhasePresent c ccr = false) := by
  revert h
  unfold startTrigger
  cases functionalMode c ccr <;> cases addressPhase c ccr <;> cases dataPhasePresent c ccr <;> simp [triggerTable]

/-- A DR trigger is an indirect write with data and no address phase. -/
theorem trigger_onDR {c : Cfg} {ccr : Word} (h : startTrigger c ccr = .onDR) :
    addressPhase c ccr = false ∧ functionalMode c ccr = .indirectWrite ∧ dataPhasePresent c ccr = true := by
  revert h
  unfold startTrigger
  cases functionalMode c ccr <;> cases addressPhase c ccr <;> cases dataPhasePresent c ccr <;> simp [triggerTable]

/-! ### `Execute` by mode (42 R152) -/

theorem execute_refused (s : State) (h : alternateBytes s.cfg s.h.ccr = true) :
    execute s = (false, raise (.alternateBytesUnsupported s.h.ccr) s) := by
  unfold execute
  rw [if_pos h]

/-- A transaction that starts runs the data phase of its configuration. -/
theorem execute_starts (s : State) (h : alternateBytes s.cfg s.h.ccr = false) : execute s = (true, dataPhase (header s)) := by
  unfold execute
  rw [if_neg (by simp [h])]

theorem execute_without_data (s : State) (h : alternateBytes s.cfg s.h.ccr = false) (hd : dataPhasePresent s.cfg s.h.ccr = false)
    (hm : functionalMode s.cfg s.h.ccr = .indirectWrite ∨ functionalMode s.cfg s.h.ccr = .indirectRead) :
    execute s = (true, endWithoutData (header s)) := by
  rw [execute_starts s h]
  unfold dataPhase
  rw [header_h, header_cfg]
  dsimp only
  rw [hd]
  rcases hm with h | h <;> rw [h]

theorem execute_read (s : State) (h : alternateBytes s.cfg s.h.ccr = false) (hd : dataPhasePresent s.cfg s.h.ccr = true)
    (hm : functionalMode s.cfg s.h.ccr = .indirectRead) : execute s = (true, readBurst (header s)) := by
  rw [execute_starts s h]
  unfold dataPhase
  rw [header_h, header_cfg]
  dsimp only
  rw [hd, hm]

theorem execute_write (s : State) (h : alternateBytes s.cfg s.h.ccr = false) (hd : dataPhasePresent s.cfg s.h.ccr = true)
    (hm : functionalMode s.cfg s.h.ccr = .indirectWrite) : execute s = (true, openWrite (header s)) := by
  rw [execute_starts s h]
  unfold dataPhase
  rw [header_h, header_cfg]
  dsimp only
  rw [hd, hm]

theorem execute_poll (s : State) (h : alternateBytes s.cfg s.h.ccr = false) (hm : functionalMode s.cfg s.h.ccr = .autoPolling) :
    execute s = (true, autoPoll (header s)) := by
  rw [execute_starts s h]
  unfold dataPhase
  rw [header_h, header_cfg]
  dsimp only
  rw [hm]

/-! ### Data phases as frames -/

/-- The header is the exchange of its bytes after an assertion, with busy set (42 R153). -/
theorem header_eq (s : State) :
    header s = (xferAll (headerBytes s.cfg s.h.ccr s.h.ar) (setCS true s)).mapH (fun h => { h with busy := true }) := by
  unfold header
  rw [setCS_mapH, xferAll_mapH]

/-- A transaction without data phase is the frame of its header (42 R157). -/
theorem endWithoutData_header (s : State) :
    endWithoutData (header s) = (setCS false (xferAll (headerBytes s.cfg s.h.ccr s.h.ar) (setCS true s))).mapH
      (fun _ => { s.h with tcf := true, busy := false }) := by
  unfold endWithoutData
  rw [header_eq, setCS_mapH, mapH_mapH, mapH_const]
  simp [complete]

/-- An indirect read with data is the frame of its header and fillers, the fillers' replies in the FIFO (42 R156). -/
theorem readBurst_header (s : State) (hf : s.h.fifo = []) :
    readBurst (header s) =
      (setCS false (xferAll (headerBytes s.cfg s.h.ccr s.h.ar ++ List.replicate (dataLength s.h.dlr) s.cfg.fillerByte)
        (setCS true s))).mapH
      (fun _ => { s.h with
        busy := true
        fifo := replies (List.replicate (dataLength s.h.dlr) s.cfg.fillerByte)
          (xferAll (headerBytes s.cfg s.h.ccr s.h.ar) (setCS true s)) }) := by
  unfold readBurst
  rw [burst_eq]
  simp only [header_h, header_cfg]
  rw [header_eq, xferAll_mapH, replies_mapH, mapH_mapH, setCS_mapH, xferAll_append, mapH_const]
  simp [hf]

/-- An indirect write with data leaves the frame of its header open (42 R155). -/
theorem openWrite_header (s : State) :
    openWrite (header s) = (xferAll (headerBytes s.cfg s.h.ccr s.h.ar) (setCS true s)).mapH
      (fun _ => { s.h with busy := true, txLeft := dataLength s.h.dlr }) := by
  unfold openWrite
  rw [header_eq, mapH_mapH, mapH_const]
  simp

/-! ### Data bytes (41 R134, 42 R161) -/

theorem sendDataByte_more (b : Byte) (s : State) (h : 1 < s.h.txLeft) :
    sendDataByte b s = (xfer b s).2.mapH (fun h => { h with txLeft := h.txLeft - 1 }) := by
  unfold sendDataByte
  dsimp only
  rw [if_neg]
  simp only [mapH_h, xfer_h]
  omega

theorem sendDataByte_last (b : Byte) (s : State) (h : s.h.txLeft = 1) :
    sendDataByte b s = (setCS false (xfer b s).2).mapH (fun h => { h with txLeft := 0, tcf := true, busy := false }) := by
  unfold sendDataByte
  dsimp only
  rw [if_pos (by simp [h]), mapH_mapH, setCS_mapH, mapH_const,
    mapH_const (setCS false (xfer b s).2) (fun h => { h with txLeft := 0, tcf := true, busy := false })]
  simp [complete, h]

/-- With an indirect write in flight a data write sends its byte. -/
theorem dataWrite_open (b : Byte) (s : State) (hm : functionalMode s.cfg s.h.ccr = .indirectWrite) (ht : 0 < s.h.txLeft) :
    dataWrite b s = sendDataByte b s := by
  unfold dataWrite
  rw [if_neg (by simp [hm]), if_neg (by omega)]

/-- With none in flight and the Data trigger the first byte starts the transaction. -/
theorem dataWrite_starts (b : Byte) (s : State) (ht : startTrigger s.cfg s.h.ccr = .onDR) (hx : s.h.txLeft = 0)
    (ha : alternateBytes s.cfg s.h.ccr = false) : dataWrite b s = sendDataByte b (openWrite (header s)) := by
  obtain ⟨-, hm, hd⟩ := trigger_onDR ht
  unfold dataWrite
  rw [if_neg (by simp [hm]), if_pos hx, if_neg (by simp [ht]), execute_write s ha hd hm]
  rfl

/-! ### `W8 DR` (41 R134, 40 R114) -/

/-- What a refused byte write has in common: the right width, an open indirect write, the device deselected. -/
theorem sendsDeselected_iff (w : Nat) (s : State) : sendsDeselected w s = true ↔
    w = regWidth .dr ∧ functionalMode s.cfg s.h.ccr = .indirectWrite ∧ 0 < s.h.txLeft ∧ s.l.cs = false := by
  simp [sendsDeselected, and_assoc]

theorem execW8Dr_refused {w : Nat} {s : State} (v : Word) (h : sendsDeselected w s = true) :
    execW8Dr w v s = .refused .chipSelectDeasserted := if_pos h

theorem execW8Dr_runs {w : Nat} {s : State} (v : Word) (h : sendsDeselected w s = false) :
    execW8Dr w v s = .next (regWrite .dr w (dataWrite (v.setWidth 8)) s) := if_neg (by simp [h])

/-- With no indirect write open, or the device selected, or another width, a write to DR is not refused. -/
theorem sendsDeselected_false {w : Nat} {s : State}
    (h : w ≠ regWidth .dr ∨ functionalMode s.cfg s.h.ccr ≠ .indirectWrite ∨ s.h.txLeft = 0 ∨ s.l.cs = true) :
    sendsDeselected w s = false := by
  rw [Bool.eq_false_iff, ne_eq, sendsDeselected_iff]
  rintro ⟨h1, h2, h3, h4⟩
  rcases h with h | h | h | h
  · exact h h1
  · exact h h2
  · omega
  · simp [h] at h4

/-- All a byte write that goes on can do. -/
theorem execW8Dr_next {w : Nat} {v : Word} {s t : State} (e : execW8Dr w v s = .next t) :
    sendsDeselected w s = false ∧ t = regWrite .dr w (dataWrite (v.setWidth 8)) s := by
  cases h : sendsDeselected w s
  · rw [execW8Dr_runs v h] at e
    cases e
    exact ⟨rfl, rfl⟩
  · rw [execW8Dr_refused v h] at e
    cases e

end Sys2Proof.Machine
end

