-- ==== Sys2Proof/Laws/Step.lean ====
section
/-! SUPPORT. What a step is made of: a property that every part of a step keeps is kept by every step, whatever the input. -/

namespace Sys2Proof.Machine

/-- A property that each part of a step keeps: taking inputs, any update of the host controller, a diagnostic, a returned value, one
exchange, a change of chip-select, system reset, the snapshot hook, a write-back step. -/
structure Closed (P : State → Prop) : Prop where
  inbox : ∀ s is, P s → P (s.withInbox is)
  host : ∀ s g, P s → P (s.mapH g)
  raised : ∀ s d, P s → P (raise d s)
  value : ∀ s v n, P s → P { s with rdata := v, draws := n }
  exchange : ∀ s b, P s → P (xfer b s).2
  select : ∀ s level, P s → P (setCS level s)
  reset : ∀ s, P s → P (systemReset s)
  snapshot : ∀ s, P s → P (beforeSnapshot s)
  drain : ∀ s, P s → P (writeBackStep s)

variable {P : State → Prop}

theorem Closed.xferAll (c : Closed P) (bs : List Byte) (s : State) (h : P s) : P (xferAll bs s) := by
  induction bs generalizing s with
  | nil => exact h
  | cons b bs ih => exact ih _ (c.exchange s b h)

theorem Closed.burst (c : Closed P) (n : Nat) (s : State) (h : P s) : P (burst n s) := by
  rw [burst_eq]
  exact c.host _ _ (c.xferAll _ s h)

theorem Closed.pollExchange (c : Closed P) (s : State) (h : P s) : P (pollExchange s).2 := c.xferAll _ s h

theorem Closed.pollLoop (c : Closed P) (n : Nat) (s : State) (h : P s) : P (pollLoop n s) := by
  induction n generalizing s with
  | zero =>
    rw [pollLoop_zero]
    split <;> exact c.host _ _ (c.pollExchange s h)
  | succ n ih =>
    rw [pollLoop_succ]
    split
    · exact c.host _ _ (c.pollExchange s h)
    · exact ih _ (c.exchange _ _ (c.pollExchange s h))

theorem Closed.execute (c : Closed P) (s : State) (h : P s) : P (execute s).2 := by
  unfold Machine.execute
  split
  · exact c.raised _ _ h
  · have hh : P (header s) := c.xferAll _ _ (c.select _ _ (c.host _ _ h))
    simp only [dataPhase]
    split
    · exact c.host _ _ (c.select _ _ hh)
    · exact c.host _ _ (c.select _ _ hh)
    · exact c.host _ _ hh
    · exact c.select _ _ (c.burst _ _ hh)
    · exact c.host _ _ (c.select _ _ (c.pollLoop _ _ hh))
    · exact hh

theorem Closed.sendDataByte (c : Closed P) (b : Byte) (s : State) (h : P s) : P (sendDataByte b s) := by
  have h1 := c.host _ (fun h => { h with txLeft := h.txLeft - 1 }) (c.exchange s b h)
  simp only [Machine.sendDataByte]
  split
  · exact c.select _ _ (c.host _ _ h1)
  · exact h1

theorem Closed.refused (c : Closed P) (a : Access) (w : Nat) (s : State) (h : P s) : P (refusedAccess a w s) := by
  cases a
  · exact c.value _ _ _ h
  · exact h

theorem Closed.regWrite (c : Closed P) (r : Reg) (w : Nat) (body : State → State) (s : State) (h : P s) (hb : P (body s)) :
    P (regWrite r w body s) := by
  unfold Machine.regWrite
  split
  · exact c.raised _ _ h
  · split
    · exact c.raised _ _ h
    · exact hb

theorem Closed.regRead (c : Closed P) (r : Reg) (w : Nat) (body : State → State) (s : State) (h : P s) (hb : P (body s)) :
    P (regRead r w body s) := by
  unfold Machine.regRead
  split
  · exact c.value _ _ _ (c.raised _ _ h)
  · exact hb

theorem Closed.afterCcrWrite (c : Closed P) (s : State) (h : P s) : P (afterCcrWrite s) := by
  unfold Machine.afterCcrWrite
  split
  · exact c.execute s h
  · exact h
  · exact h
  · exact c.raised _ _ h

theorem Closed.afterArWrite (c : Closed P) (s : State) (h : P s) : P (afterArWrite s) := by
  unfold Machine.afterArWrite
  split
  · exact c.execute s h
  · exact h
  · exact h
  · exact c.raised _ _ h

theorem Closed.dataWrite (c : Closed P) (b : Byte) (s : State) (h : P s) : P (dataWrite b s) := by
  unfold Machine.dataWrite
  split
  · exact c.raised _ _ h
  · split
    · split
      · exact c.raised _ _ h
      · split
        · exact c.sendDataByte b _ (c.execute s h)
        · exact c.execute s h
    · exact c.sendDataByte b s h

theorem Closed.dataRead (c : Closed P) (s : State) (h : P s) : P (dataRead s) := by
  unfold Machine.dataRead
  split
  · exact c.value _ _ _ (c.raised _ _ h)
  · exact c.value _ _ _ (c.host _ _ h)

theorem Closed.exchanged (c : Closed P) (bs : List Byte) {s t : State} (h : P s) (e : Machine.exchange bs s = .next t) : P t := by
  unfold Machine.exchange at e
  split at e
  · cases e
    exact c.xferAll bs s h
  · cases e

/-- Every instruction that goes on keeps the property. -/
theorem Closed.exec (c : Closed P) (i : Instr) {s t : State} (h : P s) (e : exec i s = .next t) : P t := by
  cases i
  case w32Cr w v => cases e; exact c.regWrite _ _ _ s h (c.host _ _ (c.host _ _ h))
  case r32Cr w => cases e; exact c.regRead _ _ _ s h (c.value _ _ _ h)
  case w32Sr w v => cases e; exact c.regWrite _ _ _ s h (c.raised _ _ h)
  case r32Sr w => cases e; exact c.regRead _ _ _ s h (c.value _ _ _ h)
  case w32Fcr w v => cases e; exact c.regWrite _ _ _ s h (c.host _ _ h)
  case r32Fcr w => cases e; exact c.regRead _ _ _ s h (c.value _ _ _ h)
  case w32Dlr w v => cases e; exact c.regWrite _ _ _ s h (c.host _ _ h)
  case r32Dlr w => cases e; exact c.regRead _ _ _ s h (c.value _ _ _ h)
  case w32Ccr w v => cases e; exact c.regWrite _ _ _ s h (c.afterCcrWrite _ (c.host _ _ h))
  case r32Ccr w => cases e; exact c.regRead _ _ _ s h (c.value _ _ _ h)
  case w32Ar w v => cases e; exact c.regWrite _ _ _ s h (c.afterArWrite _ (c.host _ _ h))
  case r32Ar w => cases e; exact c.regRead _ _ _ s h (c.value _ _ _ h)
  case w8Dr w v =>
    rw [(execW8Dr_next e).2]
    exact c.regWrite _ _ _ s h (c.dataWrite _ _ h)
  case r8Dr w => cases e; exact c.regRead _ _ _ s h (c.dataRead _ h)
  case w32Psmkr w v => cases e; exact c.regWrite _ _ _ s h (c.host _ _ h)
  case r32Psmkr w => cases e; exact c.regRead _ _ _ s h (c.value _ _ _ h)
  case w32Psmar w v => cases e; exact c.regWrite _ _ _ s h (c.host _ _ h)
  case r32Psmar w => cases e; exact c.regRead _ _ _ s h (c.value _ _ _ h)
  case w32Pir w v => cases e; exact c.regWrite _ _ _ s h (c.host _ _ h)
  case r32Pir w => cases e; exact c.regRead _ _ _ s h (c.value _ _ _ h)
  case reserved04 a off w => cases e; exact c.refused _ _ _ (c.raised _ _ h)
  case reserved1C a off w => cases e; exact c.refused _ _ _ (c.raised _ _ h)
  case reserved30 a off w => cases e; exact c.refused _ _ _ (c.raised _ _ h)
  all_goals exact c.exchanged _ h e

/-- What a step that goes on is: an instruction run with the next input taken and the rest of a frame put back, one byte exchanged, a
refused access, a platform action, or nothing. -/
inductive StepShape (s t : State) : Prop
  | idle (h : t = s)
  | ran (i : Instr) (is : List Input) (h : exec i (s.withInbox is) = .next t)
  | byte (b : Byte) (is : List Input) (h : exchange [b] (s.withInbox is) = .next t)
  | window (a : BusAccess) (is : List Input) (h : t = mmapAccess a (s.withInbox is))
  | taken (is : List Input) (h : t = s.withInbox is)
  | selected (level : Bool) (is : List Input) (h : s.inbox = .select level :: is) (h' : t = setCS level (s.withInbox is))
  | reset (is : List Input) (h : t = systemReset (s.withInbox is))
  | snapshot (is : List Input) (h : t = beforeSnapshot (s.withInbox is))
  | drained (is : List Input) (h : t = writeBackStep (s.withInbox is))

theorem pushFrame_withInbox (bs : List Byte) (is : List Input) (s : State) :
    ∃ js, pushFrame bs (s.withInbox is) = s.withInbox js := by
  unfold pushFrame
  split
  · exact ⟨is, rfl⟩
  · exact ⟨_, rfl⟩

theorem rejectedInput_next {e : DecodeError} {s t : State} (h : rejectedInput e s = .next t) : t = s := by
  cases e
  · cases h
  · cases h; rfl

theorem fetchAccess_shape (a : RegAccess) (is : List Input) {s t : State}
    (e : (match fetchAccess a (s.withInbox is) with | .run i s' => exec i s' | .done o => o) = .next t) : StepShape s t := by
  unfold fetchAccess at e
  rcases hd : decodeAccess (s.withInbox is).cfg a with err | i <;> rw [hd] at e
  · exact .taken is (rejectedInput_next e)
  · exact .ran i is e

theorem fetchFrame_shape (bs : List Byte) (is : List Input) {s t : State}
    (e : (match fetchFrame bs (s.withInbox is) with | .run i s' => exec i s' | .done o => o) = .next t) : StepShape s t := by
  rcases bs with _ | ⟨b, rest⟩
  · exact .taken is (by cases e; rfl)
  · by_cases hp : s.f.pstate = .idle
    · have hf : fetchFrame (b :: rest) (s.withInbox is) =
          (match decodeFrame (s.withInbox is).cfg (b :: rest) with
            | .ok (i, more) => .run i (pushFrame more (s.withInbox is))
            | .error e => .done (rejectedInput e (s.withInbox is))) := if_pos hp
      rw [hf] at e
      rcases hd : decodeFrame (s.withInbox is).cfg (b :: rest) with err | ⟨i, more⟩ <;> rw [hd] at e
      · exact .taken is (rejectedInput_next e)
      · obtain ⟨js, hj⟩ := pushFrame_withInbox more is s
        exact .ran i js (by rw [← hj]; exact e)
    · have hf : fetchFrame (b :: rest) (s.withInbox is) = .done (exchange [b] (pushFrame rest (s.withInbox is))) := if_neg hp
      rw [hf] at e
      obtain ⟨js, hj⟩ := pushFrame_withInbox rest is s
      exact .byte b js (by rw [← hj]; exact e)

/-- Every step that goes on has one of the shapes. -/
theorem step_shape {s t : State} (e : step s = .next t) : StepShape s t := by
  unfold step fetch at e
  rcases hi : s.inbox with _ | ⟨a, is⟩
  · rw [hi] at e
    cases e
    exact .idle rfl
  · rw [hi] at e
    cases a
    case code c =>
      cases c
      · exact fetchAccess_shape _ is e
      · exact fetchFrame_shape _ is e
    case bus a =>
      simp only [fetchBus] at e
      split at e
      · next i s' he =>
        split at he
        · cases he
        · split at he
          · exact fetchAccess_shape { acc := a.acc, off := a.addr - s.cfg.regBase, width := a.width } is (by
              show (match fetchAccess { acc := a.acc, off := a.addr - (s.withInbox is).cfg.regBase, width := a.width }
                (s.withInbox is) with | .run i s' => exec i s' | .done o => o) = _
              rw [he]; exact e)
          · cases he
      · next o he =>
        split at he
        · cases he
          cases e
          exact .window a is rfl
        · split at he
          · exact fetchAccess_shape { acc := a.acc, off := a.addr - s.cfg.regBase, width := a.width } is (by
              show (match fetchAccess { acc := a.acc, off := a.addr - (s.withInbox is).cfg.regBase, width := a.width }
                (s.withInbox is) with | .run i s' => exec i s' | .done o => o) = _
              rw [he]; exact e)
          · cases he
            cases e
    case select level => cases e; exact .selected level is hi rfl
    case systemReset => cases e; exact .reset is rfl
    case snapshot => cases e; exact .snapshot is rfl
    case writeBack => cases e; exact .drained is rfl

/-- A property that every part of a step keeps is kept by every step. -/
theorem Closed.step (c : Closed P) {s t : State} (h : P s) (e : step s = .next t) : P t := by
  cases step_shape e
  case idle h' => rw [h']; exact h
  case ran i is h' => exact c.exec i (c.inbox s is h) h'
  case byte b is h' => exact c.exchanged [b] (c.inbox s is h) h'
  case window a is h' => rw [h']; exact c.refused _ _ _ (c.raised _ _ (c.inbox s is h))
  case taken is h' => rw [h']; exact c.inbox s is h
  case selected level is h1 h' => rw [h']; exact c.select _ _ (c.inbox s is h)
  case reset is h' => rw [h']; exact c.reset _ (c.inbox s is h)
  case snapshot is h' => rw [h']; exact c.snapshot _ (c.inbox s is h)
  case drained is h' => rw [h']; exact c.drain _ (c.inbox s is h)

end Sys2Proof.Machine
end

