-- ==== Sys2Proof/Laws/Storage.lean ====
section
/-! SUPPORT. All that an erase, a program byte, a flush, a mark and a write-back step can do. -/

namespace Sys2Proof.Machine

/-! ### Erase (43 R202) -/

theorem erase_protected (n : Nat) (s : State) (h : s.f.sr.getLsbD s.cfg.srWelBit = false) : erase n s = s :=
  if_pos (by show (!s.f.sr.getLsbD s.cfg.srWelBit) = true; rw [h]; rfl)

theorem erase_outside (n : Nat) (s : State) (h : s.f.sr.getLsbD s.cfg.srWelBit = true) (hc : s.cfg.capacity ≤ alignedBase s.f.acc.toNat n) :
    erase n s = raise (.eraseOutOfBounds s.f.acc.toNat) s := by
  unfold erase
  dsimp only
  rw [if_neg (by show ¬(!s.f.sr.getLsbD s.cfg.srWelBit) = true; rw [h]; simp), if_pos hc]

theorem erase_inside (n : Nat) (s : State) (h : s.f.sr.getLsbD s.cfg.srWelBit = true) (hc : alignedBase s.f.acc.toNat n < s.cfg.capacity) :
    erase n s = (writeAsync (alignedBase s.f.acc.toNat n) n
      (s.mapF (fun f => { f with storage := f.storage.fillErased (alignedBase s.f.acc.toNat n) n }))).mapF (setBusy s.cfg) := by
  unfold erase
  dsimp only
  rw [if_neg (by show ¬(!s.f.sr.getLsbD s.cfg.srWelBit) = true; rw [h]; simp), if_neg (by omega)]
  rfl

/-- All an erase can do. -/
theorem erase_cases (n : Nat) (s : State) :
    (s.f.sr.getLsbD s.cfg.srWelBit = false ∧ erase n s = s) ∨
    (s.f.sr.getLsbD s.cfg.srWelBit = true ∧ s.cfg.capacity ≤ alignedBase s.f.acc.toNat n ∧
      erase n s = raise (.eraseOutOfBounds s.f.acc.toNat) s) ∨
    (s.f.sr.getLsbD s.cfg.srWelBit = true ∧ alignedBase s.f.acc.toNat n < s.cfg.capacity ∧
      erase n s = (writeAsync (alignedBase s.f.acc.toNat n) n
        (s.mapF (fun f => { f with storage := f.storage.fillErased (alignedBase s.f.acc.toNat n) n }))).mapF (setBusy s.cfg)) := by
  cases h : s.f.sr.getLsbD s.cfg.srWelBit
  · exact .inl ⟨rfl, erase_protected n s h⟩
  · by_cases hc : s.cfg.capacity ≤ alignedBase s.f.acc.toNat n
    · exact .inr (.inl ⟨rfl, hc, erase_outside n s h hc⟩)
    · exact .inr (.inr ⟨rfl, by omega, erase_inside n s h (by omega)⟩)

/-- A queued write with a backing. -/
theorem writeAsync_backing (off len : Nat) (s : State) (h : s.cfg.hasBacking = true) :
    writeAsync off len s =
      s.mapB (fun b => { b with queue := b.queue ++ [{ off := off, len := len, data := s.f.storage.slice off len }] }) :=
  if_pos h

/-- Without a backing nothing is queued. -/
theorem writeAsync_volatile (off len : Nat) (s : State) (h : s.cfg.hasBacking = false) : writeAsync off len s = s :=
  if_neg (by simp [h])

theorem writeAsync_f (off len : Nat) (s : State) : (writeAsync off len s).f = s.f := by
  unfold writeAsync
  split <;> rfl

theorem writeAsync_image (off len : Nat) (s : State) : (writeAsync off len s).b.image = s.b.image := by
  unfold writeAsync
  split <;> rfl

theorem writeAsync_diag (off len : Nat) (s : State) : (writeAsync off len s).diag = s.diag := by
  unfold writeAsync
  split <;> rfl

/-! ### Program (44 R220) -/

theorem programByte_protected (b : Byte) (s : State) (h : s.f.sr.getLsbD s.cfg.srWelBit = false) :
    programByte b s = s.mapF (fun f => { f with cur := f.cur + 1 }) := by
  unfold programByte
  dsimp only
  rw [if_pos (by show (!s.f.sr.getLsbD s.cfg.srWelBit) = true; rw [h]; rfl)]

theorem programByte_outside (b : Byte) (s : State) (h : s.f.sr.getLsbD s.cfg.srWelBit = true) (hc : s.cfg.capacity ≤ s.f.cur) :
    programByte b s = (raise (.writeOutOfBounds s.f.cur b) s).mapF (fun f => { f with cur := f.cur + 1 }) := by
  unfold programByte
  dsimp only
  rw [if_neg (by show ¬(!s.f.sr.getLsbD s.cfg.srWelBit) = true; rw [h]; simp), if_pos hc]

theorem programByte_inside (b : Byte) (s : State) (h : s.f.sr.getLsbD s.cfg.srWelBit = true) (hc : s.f.cur < s.cfg.capacity) :
    programByte b s =
      (markDirty (s.f.cur / s.cfg.pageSize) (program s.f.cur b s)).mapF (fun f => { f with cur := f.cur + 1 }) := by
  unfold programByte
  dsimp only
  rw [if_neg (by show ¬(!s.f.sr.getLsbD s.cfg.srWelBit) = true; rw [h]; simp), if_neg (by omega)]

/-- All a program byte can do. -/
theorem programByte_cases (b : Byte) (s : State) :
    (s.f.sr.getLsbD s.cfg.srWelBit = false ∧ programByte b s = s.mapF (fun f => { f with cur := f.cur + 1 })) ∨
    (s.f.sr.getLsbD s.cfg.srWelBit = true ∧ s.cfg.capacity ≤ s.f.cur ∧
      programByte b s = (raise (.writeOutOfBounds s.f.cur b) s).mapF (fun f => { f with cur := f.cur + 1 })) ∨
    (s.f.sr.getLsbD s.cfg.srWelBit = true ∧ s.f.cur < s.cfg.capacity ∧
      programByte b s =
        (markDirty (s.f.cur / s.cfg.pageSize) (program s.f.cur b s)).mapF (fun f => { f with cur := f.cur + 1 })) := by
  cases h : s.f.sr.getLsbD s.cfg.srWelBit
  · exact .inl ⟨rfl, programByte_protected b s h⟩
  · by_cases hc : s.cfg.capacity ≤ s.f.cur
    · exact .inr (.inl ⟨rfl, hc, programByte_outside b s h hc⟩)
    · exact .inr (.inr ⟨rfl, by omega, programByte_inside b s h (by omega)⟩)

/-- What a program does to the device: one byte of storage. -/
theorem program_f (a : Nat) (b : Byte) (s : State) :
    (program a b s).f = { s.f with storage := s.f.storage.write a (b &&& s.f.storage.read a) } := by
  unfold program
  dsimp only
  split <;> rfl

theorem program_b (a : Nat) (b : Byte) (s : State) : (program a b s).b = s.b := by
  unfold program
  dsimp only
  split <;> rfl

/-- What a program says: a warning exactly when a bit would be set (44 R221). -/
theorem program_diag (a : Nat) (b : Byte) (s : State) :
    (program a b s).diag = s.diag ++
      (if b &&& ~~~(s.f.storage.read a) = 0#8 then [] else [.bitSetAttempt a (s.f.storage.read a) b]) := by
  unfold program
  dsimp only
  by_cases h : b &&& ~~~(s.f.storage.read a) = 0#8
  · rw [if_neg (by simp [setsBit, h]), if_pos h]
    simp
  · rw [if_pos (by simp [setsBit, h]), if_neg h]
    rfl

/-! ### Flush, mark (44 R229, R230) -/

theorem flushDirty_clean (s : State) (h : s.f.dirty = none) : flushDirty s = s := by
  unfold flushDirty
  rw [h]

theorem flushDirty_dirty (s : State) (q : Nat) (h : s.f.dirty = some q) :
    flushDirty s = (writeAsync (q * s.cfg.pageSize) s.cfg.pageSize s).mapF (fun f => { f with dirty := none }) := by
  unfold flushDirty
  rw [h]

theorem flushDirty_diag (s : State) : (flushDirty s).diag = s.diag := by
  rcases h : s.f.dirty with _ | q
  · rw [flushDirty_clean s h]
  · rw [flushDirty_dirty s q h]
    exact writeAsync_diag _ _ _

/-- Driving chip-select raises nothing (40 R111). -/
theorem setCS_diag_eq (level : Bool) (s : State) : (setCS level s).diag = s.diag := by
  cases level
  · exact flushDirty_diag _
  · rfl

theorem flushDirty_image (s : State) : (flushDirty s).b.image = s.b.image := by
  rcases h : s.f.dirty with _ | q
  · rw [flushDirty_clean s h]
  · rw [flushDirty_dirty s q h]
    exact writeAsync_image _ _ _

theorem markDirty_same (p : Nat) (s : State) (h : s.f.dirty = none ∨ s.f.dirty = some p) :
    markDirty p s = s.mapF (fun f => { f with dirty := some p }) := by
  unfold markDirty
  rcases h with h | h <;> rw [h]
  dsimp only
  rw [if_pos rfl]

theorem markDirty_other (p q : Nat) (s : State) (h : s.f.dirty = some q) (hq : q ≠ p) :
    markDirty p s = (flushDirty s).mapF (fun f => { f with dirty := some p }) := by
  unfold markDirty
  rw [h]
  dsimp only
  rw [if_neg hq]

/-- All a mark can do. -/
theorem markDirty_cases (p : Nat) (s : State) :
    ((s.f.dirty = none ∨ s.f.dirty = some p) ∧ markDirty p s = s.mapF (fun f => { f with dirty := some p })) ∨
    (∃ q, s.f.dirty = some q ∧ q ≠ p ∧ markDirty p s = (flushDirty s).mapF (fun f => { f with dirty := some p })) := by
  rcases h : s.f.dirty with _ | q
  · exact .inl ⟨.inl rfl, markDirty_same p s (.inl h)⟩
  · by_cases hq : q = p
    · subst hq
      exact .inl ⟨.inr rfl, markDirty_same q s (.inr h)⟩
    · exact .inr ⟨q, rfl, hq, markDirty_other p q s h hq⟩

theorem markDirty_f (p : Nat) (s : State) : (markDirty p s).f = { s.f with dirty := some p } := by
  rcases markDirty_cases p s with ⟨-, h⟩ | ⟨q, -, -, h⟩ <;> rw [h]
  · rfl
  · show ({ (flushDirty s).f with dirty := some p } : Flash) = _
    rw [flushDirty_f]

theorem markDirty_diag (p : Nat) (s : State) : (markDirty p s).diag = s.diag := by
  rcases markDirty_cases p s with ⟨-, h⟩ | ⟨q, -, -, h⟩ <;> rw [h]
  · rfl
  · exact flushDirty_diag s

theorem markDirty_image (p : Nat) (s : State) : (markDirty p s).b.image = s.b.image := by
  rcases markDirty_cases p s with ⟨-, h⟩ | ⟨q, -, -, h⟩ <;> rw [h]
  · rfl
  · exact flushDirty_image s

/-- The bytes queued by a flush are the page as it stands. -/
theorem pendingWrite_slice_bytes (m : Memory) (off len : Nat) :
    PendingWrite.bytes { off := off, len := len, data := m.slice off len } = m.bytes off len :=
  memory_slice_bytes m off len

/-- After a fill, the region's own bytes are unlisted. -/
theorem fillErased_slice (m : Memory) (off n : Nat) : (m.fillErased off n).slice off n = [] := by
  unfold Memory.fillErased Memory.splice Memory.slice
  rw [List.filter_eq_nil_iff]
  intro c hc
  simp only [List.append_nil, List.mem_append, List.mem_filter, decide_eq_true_eq] at hc
  simp only [Bool.and_eq_true, decide_eq_true_eq]
  omega

/-! ### Write-back (44 R233) -/

theorem writeBackStep_empty (s : State) (h : s.b.queue = []) : writeBackStep s = s := by
  unfold writeBackStep
  rw [h]

theorem writeBackStep_oldest (s : State) (p : PendingWrite) (q : List PendingWrite) (h : s.b.queue = p :: q) :
    writeBackStep s = s.mapB (fun b => { b with image := b.image.splice p.off p.len p.data, queue := q }) := by
  unfold writeBackStep
  rw [h]

/-! ### Sizes (00_scope R10) and the memory after construction -/

/-- A configuration R10 allows has no size 0, and page, subsector and block divide the capacity. -/
theorem shapeOk_sizes {c : Cfg} (h : c.shapeOk = true) :
    0 < c.capacity ∧ 0 < c.pageSize ∧ 0 < c.subsectorSize ∧ 0 < c.blockSize ∧
      c.pageSize ∣ c.capacity ∧ c.subsectorSize ∣ c.capacity ∧ c.blockSize ∣ c.capacity := by
  obtain ⟨hp, hs, hb, db, ds, dp⟩ := shapeOk_divides c h
  exact ⟨(Sys2Proof.shapeOk_sizes c h).1, hp, hs, hb, dp, ds, db⟩

/-- An aligned region that starts inside lies inside. -/
theorem region_fits {c n a : Nat} (hc : n ∣ c) (h : a < c) (ha : n ∣ a) : a + n ≤ c := by
  obtain ⟨k, rfl⟩ := hc
  obtain ⟨j, rfl⟩ := ha
  have hj : j < k := Nat.lt_of_mul_lt_mul_left h
  calc n * j + n = n * (j + 1) := by ring
    _ ≤ n * k := Nat.mul_le_mul_left n hj

theorem alignedBase_dvd (a n : Nat) : n ∣ alignedBase a n := Nat.dvd_sub_mod a

/-- The memories after reset are in canonical form. -/
theorem reset_memory_wf : Memory.wf State.reset.f.storage = true ∧ Memory.wf State.reset.b.image = true := ⟨rfl, rfl⟩

end Sys2Proof.Machine
end

