-- ==== Sys2Proof/Tests/Slice0.lean ====
section
/-! SUPPORT. The model's own tests: ill-formed terms the checks refuse, words written out from the spec's encodings, one step of each
instruction on a small state (expected results from spec/95_test_vectors.md or worked by hand from the rule named), and for each
statement with hypotheses a state and operands that meet them. -/

open Sys2Proof Sys2Proof.Machine

namespace Sys2Proof.Tests

/-! ### Helpers -/

/-- A field of the next state, where there is one. -/
def got {α : Type} (g : State → α) : Host.Outcome State Fault Refusal → Option α
  | .next t => some (g t)
  | .fault _ => none
  | .refused _ => none

/-- Right after construction with the device selected. -/
def sel : State := State.reset.mapL (fun l => { l with cs := true })

/-- As `sel`, with other device fields. -/
def selF (g : Flash → Flash) : State := sel.mapF g

/-- Right after construction with other host fields. -/
def hostH (g : HostCtl → HostCtl) : State := State.reset.mapH g

/-- With these inputs pending. -/
def pending (is : List Input) (s : State) : State := s.withInbox is

/-- A small capacity, to reach the end of storage (F23, F28, T7). -/
def smallCfg : Cfg := { Cfg.default with capacity := 0x10000 }

/-- Selected and in Idle, with the small capacity. -/
def small (g : Flash → Flash) : State := ((State.construct smallCfg).mapL (fun l => { l with cs := true })).mapF g

theorem sel_ready (g : Flash → Flash) (h : (g sel.f).pstate = .idle) : readyForOpcode (selF g) :=
  ⟨by show Cfg.default.shapeOk = true; decide, rfl, h⟩

theorem small_ready (g : Flash → Flash) (h : (g (State.construct smallCfg).f).pstate = .idle) : readyForOpcode (small g) :=
  ⟨by show smallCfg.shapeOk = true; decide, rfl, h⟩

/-! ### WellFormed refuses -/

/-- A width that is not the register's is no matter of form: 41 R120 check 2 answers it. -/
theorem test_wf_any_width :
    [Instr.w32Cr 0 1#32, .r8Dr 0, .r8Dr 4, .reserved04 .read 0x04 0].all (WellFormed Cfg.default) = true := by decide
theorem test_wf_reserved_at_register : WellFormed Cfg.default (.reserved04 .read 0x08 4) = false := by decide
theorem test_wf_reserved_outside_window : WellFormed Cfg.default (.reserved30 .read 0x34 4) = false := by decide
theorem test_wf_reserved04_range : WellFormed Cfg.default (.reserved04 .read 0x1C 4) = false := by decide
theorem test_wf_reserved1C_range : WellFormed Cfg.default (.reserved1C .read 0x30 4) = false := by decide
theorem test_wf_reserved30_range : WellFormed Cfg.default (.reserved30 .read 0x1C 4) = false := by decide
theorem test_wf_wrreg_two_operands : WellFormed Cfg.default (.wrreg [1#8, 2#8]) = false := by decide
theorem test_wf_register_read_two_operands :
    [Instr.rdsr [0#8, 0#8], .rdfsr [0#8, 0#8], .rdcfg [0#8, 0#8]].any (WellFormed Cfg.default) = false := by decide
theorem test_wf_four_operands :
    [Instr.sse [0#8, 0#8, 0#8, 0#8], .be [0#8, 0#8, 0#8, 0#8], .rdid [0#8, 0#8, 0#8, 0#8]].any (WellFormed Cfg.default) = false := by
  decide
theorem test_wf_unknown_is_opcode : WellFormed Cfg.default (.unknown 0x06#8) = false := by decide
theorem test_wf_accepts :
    [Instr.w32Cr 4 1#32, .r8Dr 1, .reserved1C (.write 0#32) 0x1C 4, .pp [], .unknown 0xEB#8].all (WellFormed Cfg.default) = true := by
  decide

/-! ### Decoding: words written out from 20_memory R51 (offset, direction) and 30_encoding R90 (opcode byte) -/

theorem test_decode_w32Cr :
    decode Cfg.default (.access { acc := .write 0x5A#32, off := 0x00, width := 4 }) = .ok (.w32Cr 4 0x5A#32, []) := rfl
theorem test_decode_r32Cr : decode Cfg.default (.access { acc := .read, off := 0x00, width := 4 }) = .ok (.r32Cr 4, []) := rfl
theorem test_decode_w32Sr :
    decode Cfg.default (.access { acc := .write 0x5A#32, off := 0x08, width := 4 }) = .ok (.w32Sr 4 0x5A#32, []) := rfl
theorem test_decode_r32Sr : decode Cfg.default (.access { acc := .read, off := 0x08, width := 4 }) = .ok (.r32Sr 4, []) := rfl
theorem test_decode_w32Fcr :
    decode Cfg.default (.access { acc := .write 0x5A#32, off := 0x0C, width := 4 }) = .ok (.w32Fcr 4 0x5A#32, []) := rfl
theorem test_decode_r32Fcr : decode Cfg.default (.access { acc := .read, off := 0x0C, width := 4 }) = .ok (.r32Fcr 4, []) := rfl
theorem test_decode_w32Dlr :
    decode Cfg.default (.access { acc := .write 0x5A#32, off := 0x10, width := 4 }) = .ok (.w32Dlr 4 0x5A#32, []) := rfl
theorem test_decode_r32Dlr : decode Cfg.default (.access { acc := .read, off := 0x10, width := 4 }) = .ok (.r32Dlr 4, []) := rfl
theorem test_decode_w32Ccr :
    decode Cfg.default (.access { acc := .write 0x5A#32, off := 0x14, width := 4 }) = .ok (.w32Ccr 4 0x5A#32, []) := rfl
theorem test_decode_r32Ccr : decode Cfg.default (.access { acc := .read, off := 0x14, width := 4 }) = .ok (.r32Ccr 4, []) := rfl
theorem test_decode_w32Ar :
    decode Cfg.default (.access { acc := .write 0x5A#32, off := 0x18, width := 4 }) = .ok (.w32Ar 4 0x5A#32, []) := rfl
theorem test_decode_r32Ar : decode Cfg.default (.access { acc := .read, off := 0x18, width := 4 }) = .ok (.r32Ar 4, []) := rfl
theorem test_decode_w8Dr :
    decode Cfg.default (.access { acc := .write 0x5A#32, off := 0x20, width := 1 }) = .ok (.w8Dr 1 0x5A#32, []) := rfl
theorem test_decode_r8Dr : decode Cfg.default (.access { acc := .read, off := 0x20, width := 1 }) = .ok (.r8Dr 1, []) := rfl
theorem test_decode_w32Psmkr :
    decode Cfg.default (.access { acc := .write 0x5A#32, off := 0x24, width := 4 }) = .ok (.w32Psmkr 4 0x5A#32, []) := rfl
theorem test_decode_r32Psmkr : decode Cfg.default (.access { acc := .read, off := 0x24, width := 4 }) = .ok (.r32Psmkr 4, []) := rfl
theorem test_decode_w32Psmar :
    decode Cfg.default (.access { acc := .write 0x5A#32, off := 0x28, width := 4 }) = .ok (.w32Psmar 4 0x5A#32, []) := rfl
theorem test_decode_r32Psmar : decode Cfg.default (.access { acc := .read, off := 0x28, width := 4 }) = .ok (.r32Psmar 4, []) := rfl
theorem test_decode_w32Pir :
    decode Cfg.default (.access { acc := .write 0x5A#32, off := 0x2C, width := 4 }) = .ok (.w32Pir 4 0x5A#32, []) := rfl
theorem test_decode_r32Pir : decode Cfg.default (.access { acc := .read, off := 0x2C, width := 4 }) = .ok (.r32Pir 4, []) := rfl
theorem test_decode_reserved04 :
    decode Cfg.default (.access { acc := .read, off := 0x04, width := 4 }) = .ok (.reserved04 .read 0x04 4, []) := rfl
theorem test_decode_reserved1C :
    decode Cfg.default (.access { acc := .read, off := 0x1C, width := 4 }) = .ok (.reserved1C .read 0x1C 4, []) := rfl
theorem test_decode_reserved30 :
    decode Cfg.default (.access { acc := .read, off := 0x30, width := 4 }) = .ok (.reserved30 .read 0x30 4, []) := rfl
theorem test_decode_rsten : decode Cfg.default (.frame [0b01100110#8, 0x11#8]) = .ok (.rsten, [0x11#8]) := rfl
theorem test_decode_rst : decode Cfg.default (.frame [0b10011001#8, 0x11#8]) = .ok (.rst, [0x11#8]) := rfl
theorem test_decode_wren : decode Cfg.default (.frame [0b00000110#8, 0x11#8]) = .ok (.wren, [0x11#8]) := rfl
theorem test_decode_wrdi : decode Cfg.default (.frame [0b00000100#8, 0x11#8]) = .ok (.wrdi, [0x11#8]) := rfl
theorem test_decode_esus : decode Cfg.default (.frame [0b01110101#8, 0x11#8]) = .ok (.esus, [0x11#8]) := rfl
theorem test_decode_eres : decode Cfg.default (.frame [0b01111010#8, 0x11#8]) = .ok (.eres, [0x11#8]) := rfl
theorem test_decode_dslp : decode Cfg.default (.frame [0b10111001#8, 0x11#8]) = .ok (.dslp, [0x11#8]) := rfl
theorem test_decode_wake : decode Cfg.default (.frame [0b10101011#8, 0x11#8]) = .ok (.wake, [0x11#8]) := rfl
theorem test_decode_qen : decode Cfg.default (.frame [0b00110101#8, 0x11#8]) = .ok (.qen, [0x11#8]) := rfl
theorem test_decode_wrreg : decode Cfg.default (.frame [0b01100001#8, 0x12#8, 0x11#8]) = .ok (.wrreg [0x12#8], [0x11#8]) := rfl
theorem test_decode_rdsr : decode Cfg.default (.frame [0b00000101#8, 0x12#8, 0x11#8]) = .ok (.rdsr [0x12#8], [0x11#8]) := rfl
theorem test_decode_rdfsr : decode Cfg.default (.frame [0b01110000#8, 0x12#8, 0x11#8]) = .ok (.rdfsr [0x12#8], [0x11#8]) := rfl
theorem test_decode_rdcfg : decode Cfg.default (.frame [0b01100101#8, 0x12#8, 0x11#8]) = .ok (.rdcfg [0x12#8], [0x11#8]) := rfl
theorem test_decode_rdid : decode Cfg.default (.frame [0b10011111#8, 0x12#8, 0x34#8, 0x56#8, 0x11#8]) = .ok (.rdid [0x12#8, 0x34#8, 0x56#8], [0x11#8]) :=
  rfl
theorem test_decode_sse : decode Cfg.default (.frame [0b00100000#8, 0x12#8, 0x34#8, 0x56#8, 0x11#8]) = .ok (.sse [0x12#8, 0x34#8, 0x56#8], [0x11#8]) :=
  rfl
theorem test_decode_be : decode Cfg.default (.frame [0b11011000#8, 0x12#8, 0x34#8, 0x56#8, 0x11#8]) = .ok (.be [0x12#8, 0x34#8, 0x56#8], [0x11#8]) :=
  rfl
theorem test_decode_fread :
    decode Cfg.default (.frame [0b00001011#8, 0x12#8, 0x34#8, 0x56#8, 0x11#8]) = .ok (.fread [0x12#8, 0x34#8, 0x56#8, 0x11#8], []) :=
  rfl
theorem test_decode_pp :
    decode Cfg.default (.frame [0b00000010#8, 0x12#8, 0x34#8, 0x56#8, 0x11#8]) = .ok (.pp [0x12#8, 0x34#8, 0x56#8, 0x11#8], []) :=
  rfl
theorem test_decode_unknown : decode Cfg.default (.frame [0b00000011#8, 0x06#8]) = .ok (.unknown 0x03#8, [0x06#8]) := rfl
theorem test_decode_outside_window :
    decode Cfg.default (.access { acc := .read, off := 0x34, width := 4 }) = .error (.offsetOutsideWindow 0x34) := rfl
theorem test_decode_table_word : decodeTableWord 8 0x9F = some (.rdid [0#8, 0#8, 0#8]) := by decide
theorem test_decode_table_register : decodeTableWord 8 0x14 = some (.w32Ccr 4 0#32) := by decide

/-! ### One step of each instruction -/

/-- H1. -/
theorem test_w32Cr :
    got (fun t => (t.h.en, t.h.apms, t.h.pmm, t.h.tcf, t.l.trace))
      (exec (.w32Cr 4 0x00C00003#32) State.reset) = some (true, true, true, true, []) := by decide
/-- H1. -/
theorem test_r32Cr :
    got (fun t => t.rdata)
      (exec (.r32Cr 4) (hostH (fun h => { h with en := true, apms := true, pmm := true }))) = some 0x00C00001 := by decide
/-- H7. -/
theorem test_w32Sr :
    got (fun t => (t.h, t.diag)) (exec (.w32Sr 4 0xFF#32) State.reset) = some (HostCtl.reset, [.writeReadOnly 0x08]) := by decide
/-- H2, its start state. -/
theorem test_r32Sr :
    got (fun t => t.rdata) (exec (.r32Sr 4) (hostH (fun h => { h with tcf := true, smf := true }))) = some 0x0A := by decide
/-- H2. -/
theorem test_w32Fcr :
    got (fun t => (t.h.tcf, t.h.smf))
      (exec (.w32Fcr 4 0x02#32) (hostH (fun h => { h with tcf := true, smf := true }))) = some (false, true) := by decide
/-- H2. -/
theorem test_r32Fcr :
    got (fun t => t.rdata) (exec (.r32Fcr 4) ((hostH (fun h => { h with tcf := true })).returning 7)) = some 0 := by decide
/-- H3. -/
theorem test_w32Dlr :
    got (fun t => (t.h.dlr, t.diag)) (exec (.w32Dlr 4 0xFFFFFFFF#32) State.reset) = some (0xFFFFFFFF#32, []) := by decide
/-- R129. -/
theorem test_r32Dlr :
    got (fun t => t.rdata) (exec (.r32Dlr 4) (hostH (fun h => { h with dlr := 0x12345678#32 }))) = some 0x12345678 := by decide
/-- H17, its first transaction. -/
theorem test_w32Ccr_runs :
    got (fun t => (t.l.trace, t.h.tcf, t.h.busy, t.f.sr))
      (exec (.w32Ccr 4 0x00000106#32) State.reset) =
      some ([.cs true, .xfer 0x06#8 0#8, .cs false], true, false, 0x02#8) := by decide
/-- Q17. -/
theorem test_w32Ccr_polls :
    got (fun t => (t.l.trace, t.h.smf, t.h.tcf))
      (exec (.w32Ccr 4 0x0900019F#32) (hostH (fun h => { h with psmkr := 0x00FFFFFF#32, psmar := 0x0018BA20#32 }))) = some
      ([.cs true, .xfer 0x9F#8 0#8, .xfer 0#8 0x20#8, .xfer 0#8 0xBA#8, .xfer 0#8 0x18#8, .xfer 0#8 0#8, .cs false], true, false) := by
  decide
/-- Q8. -/
theorem test_r32Ccr :
    got (fun t => t.rdata) (exec (.r32Ccr 4) (hostH (fun h => { h with ccr := 0x00004106#32 }))) = some 0x4106 := by decide
/-- Q1, k = 2. -/
theorem test_w32Ar_runs :
    got (fun t => (t.h.ar, t.l.trace))
      (exec (.w32Ar 4 0x89123456#32) (hostH (fun h => { h with ccr := 0x000025AB#32 }))) = some
      (0x89123456#32, [.cs true, .xfer 0xAB#8 0#8, .xfer 0x12#8 0#8, .xfer 0x34#8 0#8, .xfer 0x56#8 0#8, .cs false]) := by decide
/-- Q7. -/
theorem test_w32Ar_quirk :
    got (fun t => (t.h.fifo, t.h.busy, t.diag.length, t.l.trace.length))
      (exec (.w32Ar 4 0x123456#32) (hostH (fun h => { h with ccr := 0x051825EB#32 }))) = some ([0#8], true, 6, 8) := by decide
/-- H4. -/
theorem test_r32Ar :
    got (fun t => t.rdata) (exec (.r32Ar 4) (hostH (fun h => { h with ar := 0xDEADBEEF#32 }))) = some 0xDEADBEEF := by decide
/-- S6, first row. -/
theorem test_w8Dr_starts :
    got (fun t => (t.h.txLeft, t.h.busy, t.l.cs, t.l.trace))
      (exec (.w8Dr 1 0x00#32) (hostH (fun h => { h with dlr := 2#32, ccr := 0x01000102#32 }))) = some
      (2, true, true, [.cs true, .xfer 0x02#8 0#8, .xfer 0#8 0#8]) := by decide
/-- S6, instance N = 0. -/
theorem test_w8Dr_completes :
    got (fun t => (t.h.tcf, t.h.busy, t.l.cs, t.f.cfgReg))
      (exec (.w8Dr 1 0x5A#32) (hostH (fun h => { h with ccr := 0x01000161#32 }))) = some (true, false, false, 0x5A#8) := by decide
/-- H16, first read. -/
theorem test_r8Dr_pops :
    got (fun t => (t.rdata, t.h.fifo, t.h.busy, t.h.tcf))
      (exec (.r8Dr 1)
        (hostH (fun h => { h with fifo := [0xA0#8, 0xA1#8], busy := true }))) = some (0xA0, [0xA1#8], true, false) := by decide
/-- H16, second read. -/
theorem test_r8Dr_drains :
    got (fun t => (t.rdata, t.h.fifo, t.h.busy, t.h.tcf))
      (exec (.r8Dr 1) (hostH (fun h => { h with fifo := [0xA1#8], busy := true }))) = some (0xA1, [], false, true) := by decide
/-- H3. -/
theorem test_w32Psmkr :
    got (fun t => t.h.psmkr) (exec (.w32Psmkr 4 0xA5A5A5A5#32) State.reset) = some 0xA5A5A5A5#32 := by decide
/-- H3. -/
theorem test_r32Psmkr :
    got (fun t => t.rdata)
      (exec (.r32Psmkr 4) (hostH (fun h => { h with psmkr := 0xA5A5A5A5#32 }))) = some 0xA5A5A5A5 := by decide
/-- H3. -/
theorem test_w32Psmar :
    got (fun t => t.h.psmar) (exec (.w32Psmar 4 0x5A5A5A5A#32) State.reset) = some 0x5A5A5A5A#32 := by decide
/-- H3. -/
theorem test_r32Psmar :
    got (fun t => t.rdata)
      (exec (.r32Psmar 4) (hostH (fun h => { h with psmar := 0x5A5A5A5A#32 }))) = some 0x5A5A5A5A := by decide
/-- H3. -/
theorem test_w32Pir :
    got (fun t => t.h.pir) (exec (.w32Pir 4 0x12345678#32) State.reset) = some 0x5678#32 := by decide
/-- H3. -/
theorem test_r32Pir :
    got (fun t => t.rdata) (exec (.r32Pir 4) (hostH (fun h => { h with pir := 0x5678#32 }))) = some 0x5678 := by decide
/-- H8. -/
theorem test_reserved04 :
    got (fun t => (t.h, t.diag))
      (exec (.reserved04 (.write 1#32) 0x04 4) State.reset) = some (HostCtl.reset, [.reservedOffset 0x04]) := by decide
/-- H8. -/
theorem test_reserved1C :
    got (fun t => (t.draws, t.diag)) (exec (.reserved1C .read 0x1C 4) State.reset) = some (1, [.reservedOffset 0x1C]) := by decide
/-- H8. -/
theorem test_reserved30 :
    got (fun t => (t.h, t.diag))
      (exec (.reserved30 (.write 0#32) 0x30 4) State.reset) = some (HostCtl.reset, [.reservedOffset 0x30]) := by decide
/-- F1. -/
theorem test_rsten :
    got (fun t => (t.f.resetArmed, t.f.cmd)) (exec .rsten sel) = some (true, 0x66#8) := by decide
/-- F2, the second frame. -/
theorem test_rst_armed :
    got (fun t => ((t.f.sr, t.f.fsr, t.f.cfgReg), (t.f.cur, t.f.cmd, t.f.resetArmed), t.diag))
      (exec .rst
        (selF (fun f => { f with sr := 3#8, srClear := 1#8, fsr := 0x40#8, cfgReg := 0x5A#8, cur := 0x1234, resetArmed := true }))) = some
      ((0#8, 0#8, 0#8), (0, 0#8, false), []) := by decide
/-- F4, the last frame. -/
theorem test_rst_unarmed :
    got (fun t => (t.f.sr, t.f.cmd, t.diag))
      (exec .rst (selF (fun f => { f with sr := 2#8 }))) = some (2#8, 0x99#8, [.unarmedReset]) := by decide
/-- F8. -/
theorem test_wren :
    got (fun t => t.f.sr) (exec .wren sel) = some 0x02#8 := by decide
/-- F9. -/
theorem test_wrdi :
    got (fun t => t.f.sr) (exec .wrdi (selF (fun f => { f with sr := 3#8 }))) = some 0x01#8 := by decide
/-- F10. -/
theorem test_wrreg :
    got (fun t => (t.f.cfgReg, t.f.pstate)) (exec (.wrreg [0x5A#8]) sel) = some (0x5A#8, .idle) := by decide
/-- F11. -/
theorem test_wrreg_truncated :
    got (fun t => (t.f.cfgReg, t.f.cmd)) (exec (.wrreg []) sel) = some (0#8, 0x61#8) := by decide
/-- F13, the first frame. -/
theorem test_rdsr :
    got (fun t => (t.l.trace, t.f.sr, t.f.srClear))
      (exec (.rdsr [0#8]) (selF (fun f => { f with sr := 3#8, srClear := 1#8 }))) = some
      ([.xfer 0x05#8 0#8, .xfer 0#8 3#8], 2#8, 0#8) := by decide
/-- F14. -/
theorem test_rdsr_no_exchange :
    got (fun t => (t.f.sr, t.f.srClear))
      (exec (.rdsr []) (selF (fun f => { f with sr := 3#8, srClear := 1#8 }))) = some (3#8, 1#8) := by decide
/-- F16. -/
theorem test_rdfsr :
    got (fun t => t.l.trace)
      (exec (.rdfsr [0#8]) (selF (fun f => { f with fsr := 0x40#8 }))) = some [.xfer 0x70#8 0#8, .xfer 0#8 0x40#8] := by decide
/-- F10. -/
theorem test_rdcfg :
    got (fun t => t.l.trace)
      (exec (.rdcfg [0#8]) (selF (fun f => { f with cfgReg := 0x5A#8 }))) = some [.xfer 0x65#8 0#8, .xfer 0#8 0x5A#8] := by decide
/-- F21. -/
theorem test_fread :
    got (fun t => (t.l.trace.drop 12, t.f.cur))
      (exec (.fread ([0#8, 0x10#8, 0#8] ++ List.replicate 8 0x55#8 ++ [0#8, 0#8]))

        (selF (fun f => { f with storage := [(0x1000, 0xA0#8), (0x1001, 0xA1#8)] }))) =
      some ([.xfer 0#8 0xA0#8, .xfer 0#8 0xA1#8], 0x1002) := by decide
/-- F23. -/
theorem test_fread_wraps :
    got (fun t => (t.l.trace.drop 12, t.f.cur)) (exec (.fread ([1#8, 0xFF#8, 0xFF#8] ++ List.replicate 8 0#8 ++ [0#8, 0#8, 0#8]))
      (small (fun f => { f with storage := [(0, 0x88#8), (1, 0x99#8), (0xFFFF, 0x77#8)] }))) = some
      ([.xfer 0#8 0x77#8, .xfer 0#8 0x88#8, .xfer 0#8 0x99#8], 2) := by decide
/-- S5. -/
theorem test_rdid :
    got (fun t => (t.l.trace, t.f.pstate)) (exec (.rdid [0#8, 0#8, 0#8]) sel) = some
      ([.xfer 0x9F#8 0#8, .xfer 0#8 0x20#8, .xfer 0#8 0xBA#8, .xfer 0#8 0x18#8], .idle) := by decide
/-- P1, step 5 (from sr = 0x02). -/
theorem test_pp :
    got (fun t => ((t.f.storage, t.f.sr, t.f.srClear), (t.f.cur, t.f.dirty), t.diag))
      (exec (.pp [0#8, 0x20#8, 0#8, 0xFF#8, 0#8, 0xFF#8])
      (selF (fun f => { f with sr := 2#8, storage := [(0x2000, 0#8), (0x2002, 0xAA#8)] }))) = some
      (([(0x2000, 0#8), (0x2001, 0#8), (0x2002, 0xAA#8)], 3#8, 1#8), (0x2003, some 32),
        [.bitSetAttempt 0x2000 0#8 0xFF#8, .bitSetAttempt 0x2002 0xAA#8 0xFF#8]) := by decide
/-- T1. -/
theorem test_pp_crosses_page :
    got (fun t => (t.f.storage, t.f.dirty, t.b.queue.map (fun p => (p.off, p.len)), t.f.cur))
      (exec (.pp [0#8, 0x20#8, 0xFF#8, 1#8, 2#8]) (selF (fun f => { f with sr := 2#8 }))) = some
      ([(0x20FF, 1#8), (0x2100, 2#8)], some 33, [(0x2000, 256)], 0x2101) := by decide
/-- S2, with two bytes just outside the region. -/
theorem test_sse :
    got (fun t => (t.f.storage, t.f.sr, t.f.srClear, t.b.queue))
      (exec (.sse [0#8, 0x3A#8, 0xBC#8])
        (selF (fun f => { f with sr := 2#8, storage := [(0x2FFF, 1#8), (0x3000, 0x11#8), (0x3FFF, 0x11#8), (0x4000, 2#8)] }))) = some
      ([(0x2FFF, 1#8), (0x4000, 2#8)], 3#8, 1#8, [{ off := 0x3000, len := 4096, data := [] }]) := by decide
/-- F29. -/
theorem test_sse_last :
    got (fun t => (t.f.sr, t.b.queue.map (fun p => (p.off, p.len))))
      (exec (.sse [0#8, 0xFF#8, 0xFF#8]) (small (fun f => { f with sr := 2#8 }))) = some (3#8, [(0xF000, 4096)]) := by decide
/-- S3. -/
theorem test_be :
    got (fun t => (t.f.storage, t.f.sr, t.b.queue.map (fun p => (p.off, p.len))))
      (exec (.be [1#8, 0x23#8, 0x45#8])
        (selF (fun f => { f with sr := 2#8, storage := [(0xFFFF, 0x12#8), (0x10000, 0#8), (0x1FFFF, 0#8), (0x20000, 0x34#8)] }))) = some
      ([(0xFFFF, 0x12#8), (0x20000, 0x34#8)], 3#8, [(0x10000, 65536)]) := by decide
/-- F28. -/
theorem test_be_out_of_bounds :
    got (fun t => (t.f.sr, t.b.queue, t.diag))
      (exec (.be [1#8, 0#8, 0#8])
        (small (fun f => { f with sr := 2#8 }))) = some (2#8, [], [.eraseOutOfBounds 0x10000]) := by decide
/-- F16. -/
theorem test_esus :
    got (fun t => t.f.fsr) (exec .esus sel) = some 0x40#8 := by decide
/-- F16. -/
theorem test_eres :
    got (fun t => t.f.fsr) (exec .eres (selF (fun f => { f with fsr := 0x40#8 }))) = some 0#8 := by decide
/-- F17. -/
theorem test_dslp :
    got (fun t => (t.f, t.diag))
      (exec .dslp (selF (fun f => { f with sr := 3#8 }))) = some ({ sel.f with cmd := 0xB9#8, sr := 3#8 }, []) := by decide
/-- F18. -/
theorem test_wake :
    got (fun t => (t.f, t.diag))
      (exec .wake (selF (fun f => { f with sr := 3#8 }))) = some ({ sel.f with cmd := 0xAB#8, sr := 3#8 }, []) := by decide
/-- F18. -/
theorem test_qen :
    got (fun t => (t.f, t.diag))
      (exec .qen (selF (fun f => { f with sr := 3#8 }))) = some ({ sel.f with cmd := 0x35#8, sr := 3#8 }, []) := by decide
/-- F19 and F5. -/
theorem test_unknown :
    got (fun t => (t.f, t.diag))
      (exec (.unknown 0xEB#8)
        (selF (fun f => { f with resetArmed := true }))) = some ({ sel.f with cmd := 0xEB#8 }, [.unknownOpcode 0xEB#8]) := by decide

/-! ### Steps and platform actions -/

/-- 20_memory R51. -/
theorem test_step_bus_write :
    got (fun t => (t.h.pir, t.inbox))
      (step (pending [.bus { acc := .write 0x12345678#32, addr := 0x2C, width := 4 }, .snapshot] State.reset)) =
      some (0x5678#32, [.snapshot]) := by decide
/-- Code 9 of 95_test_vectors 2.5. -/
theorem test_step_mmap :
    got (fun t => (t.h, t.diag))
      (step (pending [.bus { acc := .write 1#32, addr := 0x1000010, width := 2 }] State.reset)) =
      some (HostCtl.reset, [.mmapWindowAccess 0x1000010]) := by decide
/-- H9. -/
theorem test_step_width :
    got (fun t => (t.h.ccr, t.diag, t.l.trace))
      (step (pending [.bus { acc := .write 6#32, addr := 0x14, width := 1 }] State.reset)) =
      some (0#32, [.accessWidth 0x14 1], []) := by decide
/-- 20_memory R54, R120 check 2: a width of 0 is any other width. -/
theorem test_step_width_zero :
    got (fun t => (t.h, t.diag))
      (step (pending [.bus { acc := .write 6#32, addr := 0x14, width := 0 }] State.reset)) =
      some (HostCtl.reset, [.accessWidth 0x14 0]) := by decide
/-- F12, its first command. -/
theorem test_step_frame :
    got (fun t => (t.f.cfgReg, t.inbox))
      (step (pending [.code (.frame [0x61#8, 0x5A#8, 0x06#8])] sel)) = some (0x5A#8, [.code (.frame [0x06#8])]) := by decide
/-- F7 and 40 R110: in Writing an opcode byte is data. -/
theorem test_step_data_byte :
    got (fun t => (t.f.storage, t.f.sr))
      (step (pending [.code (.frame [0x06#8])]
        (selF (fun f => { f with pstate := .writing, sr := 3#8, cur := 5 })))) = some ([(5, 0x06#8)], 3#8) := by decide
/-- Z2. -/
theorem test_step_reset :
    got (fun t => (t.h, t.f.dirty, t.b.queue.map (fun p => p.off)))
      (step (pending [.systemReset]
        (selF (fun f => { f with pstate := .writing, sr := 3#8, cur := 0x4001, dirty := some 64, storage := [(0x4000, 0xF0#8)] })))) = some
      (HostCtl.reset, none, [0x4000]) := by decide
/-- T2. -/
theorem test_step_snapshot :
    got (fun t => (t.f.dirty, t.f.pstate, t.b.queue.map (fun p => (p.off, p.len))))
      (step (pending [.snapshot]
        (selF (fun f => { f with pstate := .writing, dirty := some 33 })))) = some (none, .writing, [(0x2100, 256)]) := by decide
/-- 44 R233. -/
theorem test_step_write_back :
    got (fun t => t.b)
      (step (pending [.writeBack] { sel with b := { image := [(1, 5#8), (300, 6#8)], queue := [{ off := 0, len := 256, data := [(2, 7#8)] }] } })) =
      some { image := [(2, 7#8), (300, 6#8)], queue := [] } := by decide
/-- 40 R114. -/
theorem test_deselected_refused : exec .wren State.reset = .refused .chipSelectDeasserted := rfl
/-- 40 R114, 92 D44: an open indirect write into which a device-level `CS-` was driven. -/
theorem test_w8Dr_deselected_refused :
    exec (.w8Dr 1 0x5A#32) (hostH (fun h => { h with ccr := 0x01000102#32, txLeft := 2, busy := true })) =
      .refused .chipSelectDeasserted := rfl
/-- The next step runs the instruction of a table word. -/
theorem test_fetch_word : got (fun t => t.f.sr) (step (State.reset.withFetchWord 8 0x06)) = some 0x02#8 := by decide
theorem test_fetch_register : got (fun t => t.diag) (step (State.reset.withFetchWord 8 0x08)) = some [.writeReadOnly 0x08] := by
  decide

/-! ### Another layout (00_scope R8, R9: every name is a parameter) -/

/-- Every parameter that the tests above leave at its default. -/
def otherCfg : Cfg := { Cfg.default with
  bits := { Cfg.default.bits with crEn := 3, crAbort := 4, crApms := 5, crPmm := 6, srTcf := 9, srBusy := 31, dlr := 4, pir := 8,
                                  instruction := 24, fmode := 0, admode := 2, adsize := 4, dmode := 6, imode := 8, abmode := 10,
                                  absize := 12, dcyc := 14 }
  pollResponseBytes := 2
  pollBudgets := [(0, 3)]
  dlrBits := 8
  pirBits := 4
  addrBytes := 2
  srBusyBit := 7
  srWelBit := 6
  fsrEsBit := 0 }

/-- Selected and in Idle under that layout, or with other host fields. -/
def other (g : Flash → Flash) (k : HostCtl → HostCtl) : State :=
  (((State.construct otherCfg).mapL (fun l => { l with cs := true })).mapF g).mapH k

theorem test_other_config : cfgOk otherCfg = true ∧ otherCfg.layoutOk = true := by decide
/-- 30 R82, R121: enable and abort at bits 3 and 4. -/
theorem test_other_control_write :
    got (fun t => (t.h.en, t.h.apms, t.h.tcf)) (exec (.w32Cr 4 0x18#32) (other id id)) = some (true, false, true) := by decide
/-- 30 R83, R124: transfer-complete at bit 9, busy at bit 31. -/
theorem test_other_status_read :
    got (fun t => t.rdata) (exec (.r32Sr 4) (other id (fun h => { h with tcf := true, busy := true }))) = some 0x80000200 := by decide
/-- 30 R85: Data-Length is bits 11 to 4. -/
theorem test_other_data_length : got (fun t => t.h.dlr) (exec (.w32Dlr 4 0xABCD#32) (other id id)) = some 0xBC#32 := by decide
/-- 30 R88, R139: Interval is bits 11 to 8. -/
theorem test_other_interval_read : got (fun t => t.rdata) (exec (.r32Pir 4) (other id (fun h => { h with pir := 5#32 }))) = some 0x500 := by
  decide
/-- 43 R183, R194: write-enabled at bit 6, erase-suspended at bit 0. -/
theorem test_other_latches :
    got (fun t => t.f.sr) (exec .wren (other id id)) = some 0x40#8 ∧ got (fun t => t.f.fsr) (exec .esus (other id id)) = some 0x01#8 := by
  decide
/-- 43 R191: an address of two bytes; busy is bit 7. -/
theorem test_other_page_program :
    got (fun t => (t.f.storage, t.f.sr, t.f.srClear)) (exec (.pp [0x20#8, 0x01#8, 0x0F#8]) (other (fun f => { f with sr := 0x40#8 }) id)) =
      some ([(0x2001, 0x0F#8)], 0xC0#8, 0x80#8) := by decide
/-- 42 R158: two response bytes, a budget of 3 for Interval 0, auto-polling at bits 1 and 0 and the instruction in the top byte. -/
theorem test_other_polling :
    got (fun t => (t.h.smf, t.h.tof, t.l.trace.length))
      (exec (.w32Ccr 4 0x05000002#32) (other id (fun h => { h with psmkr := 1#32, psmar := 1#32 }))) = some (false, true, 11) := by decide

/-! ### For each statement with hypotheses, a state and operands that meet them -/

theorem test_witness_decode_of_encode :
    Cfg.default.shapeOk = true ∧ WellFormed Cfg.default (.fread [0#8, 0x10#8, 0#8]) = true ∧
    WellFormed Cfg.default (.reserved30 (.write 0#32) 0x33 1) = true := by decide
theorem test_witness_encode_of_decode :
    decode Cfg.default (.access { acc := .read, off := 0x33, width := 1 }) = .ok (.reserved30 .read 0x33 1, []) ∧
    decode Cfg.default (.frame [0x05#8, 0#8, 0x06#8]) = .ok (.rdsr [0#8], [0x06#8]) := ⟨rfl, rfl⟩
theorem test_witness_step_runs_access :
    (pending [.code (.access { acc := .read, off := 0x08, width := 4 })] State.reset).inbox =
      .code (.access { acc := .read, off := 0x08, width := 4 }) :: [] ∧
    decodeAccess State.reset.cfg { acc := .read, off := 0x08, width := 4 } = .ok (.r32Sr 4) := ⟨rfl, rfl⟩
theorem test_witness_step_runs_frame :
    (pending [.code (.frame [0x06#8, 0x04#8])] sel).inbox = .code (.frame [0x06#8, 0x04#8]) :: [] ∧ sel.f.pstate = .idle ∧
    decodeFrame sel.cfg [0x06#8, 0x04#8] = .ok (.wren, [0x04#8]) := ⟨rfl, rfl, rfl⟩
theorem test_witness_step_outside_idle :
    (pending [.code (.frame [0x06#8])] (selF (fun f => { f with pstate := .writing }))).inbox = .code (.frame (0x06#8 :: [])) :: [] ∧
    (selF (fun f => { f with pstate := .writing })).f.pstate ≠ .idle := by decide
theorem test_witness_frame_byte_by_byte :
    (pending [.code (.frame [0x06#8, 0x04#8])] sel).l.cs = true ∧
    (pending [.code (.frame [0x06#8, 0x04#8])] sel).inbox = .code (.frame [0x06#8, 0x04#8]) :: [] := ⟨rfl, rfl⟩
theorem test_witness_platform_inputs :
    (pending [] sel).inbox = [] ∧ (pending [.select true] sel).inbox = .select true :: [] ∧
    (pending [.systemReset] sel).inbox = .systemReset :: [] ∧ (pending [.snapshot] sel).inbox = .snapshot :: [] ∧
    (pending [.writeBack] sel).inbox = .writeBack :: [] := ⟨rfl, rfl, rfl, rfl, rfl⟩
/-- The first and the last byte of the register window, and the first address after it. -/
theorem test_witness_bus_access :
    (pending [.bus { acc := .read, addr := 0x33, width := 0 }] State.reset).inbox = .bus { acc := .read, addr := 0x33, width := 0 } :: [] ∧
    (∀ x ∈ [0x00, 0x33, 0x34], ¬ (Cfg.default.mmapBase ≤ x ∧ x < Cfg.default.mmapBase + Cfg.default.mmapLen)) ∧
    (∀ x ∈ [0x00, 0x33], Cfg.default.regBase ≤ x ∧ x < Cfg.default.regBase + Cfg.default.regWindowLen) ∧
    decodeAccess Cfg.default { acc := .read, off := 0x33 - Cfg.default.regBase, width := 1 } = .ok (.reserved30 .read 0x33 1) ∧
    ¬ (Cfg.default.regBase ≤ 0x34 ∧ 0x34 < Cfg.default.regBase + Cfg.default.regWindowLen) :=
  ⟨rfl, by decide, by decide, rfl, by decide⟩
/-- The first and the last byte of the memory-mapped window. -/
theorem test_witness_mmap :
    ∀ x ∈ [0x1000000, 0x1FFFFFF], Cfg.default.mmapBase ≤ x ∧ x < Cfg.default.mmapBase + Cfg.default.mmapLen := by decide
theorem test_witness_control_write : (0x00C00001#32).getLsbD 1 = false ∧ (0x00C00003#32).getLsbD 1 = true := by decide
theorem test_witness_idle_host : State.reset.h.busy = false := rfl
theorem test_witness_wrong_width :
    (0 : Nat) ≠ (if Reg.cr = .dr then 1 else 4) ∧ (5 : Nat) ≠ (if Reg.pir = .dr then 1 else 4) ∧
    (4 : Nat) ≠ (if Reg.dr = .dr then 1 else 4) := by decide
theorem test_witness_busy_write :
    (hostH (fun h => { h with busy := true })).h.busy = true ∧ Reg.dlr ∈ [Reg.dlr, .ccr, .ar, .psmkr, .psmar, .pir] ∧
    Reg.pir ∈ [Reg.dlr, .ccr, .ar, .psmkr, .psmar, .pir] := by decide
theorem test_witness_gate_nothing :
    (∀ w, Instr.w32Sr 4 0#32 ≠ .r32Cr w) ∧ (∀ w v, Instr.w32Sr 4 0#32 ≠ .w32Cr w v) :=
  ⟨fun _ h => (by cases h), fun _ _ h => (by cases h)⟩
theorem test_witness_trigger_fields :
    (3 : Nat) = (0x0D002500#32).toNat / 2 ^ Cfg.default.bits.fmode % 4 ∧
    true = decide ((0x0D002500#32).toNat / 2 ^ Cfg.default.bits.admode % 4 ≠ 0) ∧
    true = decide ((0x0D002500#32).toNat / 2 ^ Cfg.default.bits.dmode % 4 ≠ 0) ∧
    (0 : Nat) = (0x00000100#32).toNat / 2 ^ Cfg.default.bits.fmode % 4 := by decide
theorem test_witness_header_fields :
    (0xAB : Nat) = (0x007C35AB#32).toNat / 2 ^ Cfg.default.bits.instruction % 256 ∧
    (31 : Nat) = (0x007C35AB#32).toNat / 2 ^ Cfg.default.bits.dcyc % 32 ∧
    (4 : Nat) = (if (0x007C35AB#32).toNat / 2 ^ Cfg.default.bits.admode % 4 = 0 then 0
      else (0x007C35AB#32).toNat / 2 ^ Cfg.default.bits.adsize % 4 + 1) ∧
    (31 : Nat) = (if 0xAB = Cfg.default.quirkInstruction.toNat ∧ 31 = Cfg.default.quirkDcyc then Cfg.default.quirkBytes else 31) ∧
    (1 : Nat) = (if 0xEB = Cfg.default.quirkInstruction.toNat ∧ 6 = Cfg.default.quirkDcyc then Cfg.default.quirkBytes else 6) := by
  decide
/-- One value for each clause (S9, Q8, Q10, Q11). -/
theorem test_witness_configuration_write :
    startTrigger Cfg.default (0x00002500#32 &&& ccrMask Cfg.default) = .onAR ∧ startTrigger Cfg.default (0x01000100#32 &&& ccrMask Cfg.default) = .onDR ∧
    startTrigger Cfg.default (0x0C000100#32 &&& ccrMask Cfg.default) = .conflict ∧
    startTrigger Cfg.default (hostH (fun h => { h with ccr := 0x00000100#32 })).h.ccr = .onCCR ∧
    startTrigger Cfg.default (hostH (fun h => { h with ccr := 0x01002500#32 })).h.ccr = .conflict ∧
    (startTrigger Cfg.default (0x00004106#32 &&& ccrMask Cfg.default) = .onCCR ∧ alternateBytes Cfg.default (0x00004106#32 &&& ccrMask Cfg.default) = true) ∧
    (startTrigger Cfg.default (hostH (fun h => { h with ccr := 0x00006520#32 })).h.ccr = .onAR ∧ alternateBytes Cfg.default 0x00006520#32 = true) ∧
    (startTrigger Cfg.default (hostH (fun h => { h with ccr := 0x01010102#32 })).h.ccr = .onDR ∧ alternateBytes Cfg.default 0x01010102#32 = true ∧
      State.reset.h.txLeft = 0) := by decide
theorem test_witness_without_data :
    (startTrigger Cfg.default (0x00000106#32 &&& ccrMask Cfg.default) = .onCCR ∧ functionalMode Cfg.default (0x00000106#32 &&& ccrMask Cfg.default) ≠ .autoPolling ∧
      alternateBytes Cfg.default (0x00000106#32 &&& ccrMask Cfg.default) = false) ∧
    (startTrigger Cfg.default 0x00002520#32 = .onAR ∧ functionalMode Cfg.default 0x00002520#32 ≠ .autoPolling ∧ dataPhasePresent Cfg.default 0x00002520#32 = false ∧
      alternateBytes Cfg.default 0x00002520#32 = false) := by decide
/-- Fast-Read with three address bytes and eight dummy cycles (P2 of 95_test_vectors). -/
theorem test_witness_indirect_read :
    (hostH (fun h => { h with ccr := 0x0520250B#32 })).h.busy = false ∧ (hostH (fun h => { h with ccr := 0x0520250B#32 })).h.fifo = [] ∧
    startTrigger Cfg.default 0x0520250B#32 = .onAR ∧ functionalMode Cfg.default 0x0520250B#32 = .indirectRead ∧ addressPhase Cfg.default 0x0520250B#32 = true ∧
    dataPhasePresent Cfg.default 0x0520250B#32 = true ∧ alternateBytes Cfg.default 0x0520250B#32 = false := by decide
theorem test_witness_fast_read :
    Cfg.default.shapeOk = true ∧ State.reset.f.pstate = .idle ∧
    ccrInstruction Cfg.default 0x0520250B#32 = Cfg.default.ops.fread ∧
    addressSize Cfg.default 0x0520250B#32 = Cfg.default.addrBytes ∧ dummyBytes Cfg.default 0x0520250B#32 = Cfg.default.fastReadDummy := by
  decide
theorem test_witness_data_read :
    (hostH (fun h => { h with fifo := [0xA0#8] })).h.fifo = 0xA0#8 :: [] ∧ State.reset.h.fifo = [] := ⟨rfl, rfl⟩
theorem test_witness_no_transaction :
    functionalMode Cfg.default (hostH (fun h => { h with ccr := 0x0500250B#32 })).h.ccr ≠ .indirectWrite ∧
    (State.reset.h.txLeft = 0 ∧ startTrigger Cfg.default State.reset.h.ccr ≠ .onDR) := by decide
/-- More than one byte outstanding, the last one, and a deselected device. -/
theorem test_witness_data_write :
    functionalMode Cfg.default (hostH (fun h => { h with ccr := 0x01000102#32, txLeft := 2 })).h.ccr = .indirectWrite ∧
    1 < (sel.mapH (fun h => { h with ccr := 0x01000102#32, txLeft := 2 })).h.txLeft ∧
    (sel.mapH (fun h => { h with ccr := 0x01000102#32, txLeft := 1 })).h.txLeft = 1 ∧ sel.l.cs = true ∧
    (hostH (fun h => { h with ccr := 0x01000102#32, txLeft := 2 })).l.cs = false := by decide

/-- An idle host with a latched configuration and Data-Length 2. -/
def ready : HostCtl := { HostCtl.reset with ccr := 0x01000102#32, dlr := 2#32 }

theorem ready_inv : HostInv Cfg.default ready :=
  ⟨by decide, by decide, by decide, by decide, by decide, by decide, by decide, by decide⟩

/-- Two bytes are the most that leave the transaction open, three complete it. -/
theorem test_witness_data_length :
    HostInv Cfg.default ready ∧ ready.tcf = false ∧ ready.busy = false ∧ startTrigger Cfg.default ready.ccr = .onDR ∧ alternateBytes Cfg.default ready.ccr = false ∧
    (1 ≤ [0#8, 0x10#8].length ∧ [0#8, 0x10#8].length ≤ ready.dlr.toNat) ∧
    [0#8, 0x10#8, 0#8].length = ready.dlr.toNat + 1 :=
  ⟨ready_inv, rfl, rfl, by decide, by decide, by decide, by decide⟩
theorem test_witness_auto_polling :
    (startTrigger Cfg.default (0x09000105#32 &&& ccrMask Cfg.default) = .onCCR ∧ functionalMode Cfg.default (0x09000105#32 &&& ccrMask Cfg.default) = .autoPolling ∧
      alternateBytes Cfg.default (0x09000105#32 &&& ccrMask Cfg.default) = false) ∧
    (startTrigger Cfg.default 0x08000505#32 = .onAR ∧ functionalMode Cfg.default 0x08000505#32 = .autoPolling ∧ alternateBytes Cfg.default 0x08000505#32 = false) := by
  decide

/-- The device busy after an erase, polled for busy clear. -/
def busyDevice : State :=
  (hostH (fun h => { h with psmkr := 1#32, psmar := 0#32, pir := 1#32 })).mapF (fun f => { f with sr := 3#8, srClear := 1#8 })

/-- Q16's and P3's own configuration value. -/
theorem test_witness_polling_busy :
    busyDevice.cfg.shapeOk = true ∧ busyDevice.h.busy = false ∧ busyDevice.f.pstate = .idle ∧ 0 = busyDevice.cfg.srBusyBit ∧
    busyDevice.f.sr.getLsbD 0 = true ∧ busyDevice.f.srClear = 1#8 <<< 0 ∧ busyDevice.h.psmkr = 1#32 <<< 0 ∧
    busyDevice.h.psmar = 0#32 ∧ 2 ≤ pollBudget busyDevice.cfg busyDevice.h.pir ∧ 1 ≤ busyDevice.cfg.pollResponseBytes ∧
    0x09000105#32 = 0x09000105#32 &&& ccrMask busyDevice.cfg ∧ startTrigger busyDevice.cfg 0x09000105#32 = .onCCR ∧
    functionalMode busyDevice.cfg 0x09000105#32 = .autoPolling ∧ alternateBytes busyDevice.cfg 0x09000105#32 = false ∧
    ccrInstruction busyDevice.cfg 0x09000105#32 = busyDevice.cfg.ops.rdsr ∧ dummyBytes busyDevice.cfg 0x09000105#32 = 0 := by decide
theorem test_witness_exchange :
    sel.l.cs = true ∧ FlashCmd.pp ∉ [FlashCmd.rsten, .rst, .wren, .wrdi, .esus, .eres, .dslp, .wake, .qen] ∧
    FlashCmd.wren ∈ [FlashCmd.rsten, .rst, .wren, .wrdi, .esus, .eres, .dslp, .wake, .qen] ∧ State.reset.l.cs = false := by decide
theorem test_witness_ready_for_opcode : readyForOpcode sel := sel_ready id rfl
theorem test_witness_reset :
    (readyForOpcode (selF (fun f => { f with resetArmed := true })) ∧ (selF (fun f => { f with resetArmed := true })).f.resetArmed = true) ∧
    (readyForOpcode sel ∧ sel.f.resetArmed = false) := ⟨⟨sel_ready _ rfl, rfl⟩, sel_ready id rfl, rfl⟩
theorem test_witness_unknown : readyForOpcode sel ∧ ∀ k : FlashCmd, sel.cfg.opByte k ≠ 0xEB#8 :=
  ⟨sel_ready id rfl, fun k => by cases k <;> decide⟩
theorem test_witness_fast_read_device :
    readyForOpcode sel ∧ [0xFF#8, 0xFF#8, 0xFF#8] ≠ [] ∧ [0xFF#8, 0xFF#8, 0xFF#8].length = sel.cfg.addrBytes ∧
    (List.replicate 8 0#8).length = sel.cfg.fastReadDummy := ⟨sel_ready id rfl, by decide, rfl, rfl⟩
/-- The second byte programmed is the last byte of storage, the third is out of bounds. -/
theorem test_witness_page_program :
    readyForOpcode (small (fun f => { f with sr := 2#8, storage := [(0xFFFE, 0xF0#8)] })) ∧
    Memory.wf (small (fun f => { f with sr := 2#8, storage := [(0xFFFE, 0xF0#8)] })).f.storage = true ∧
    (small (fun f => { f with sr := 2#8, storage := [(0xFFFE, 0xF0#8)] })).f.sr.getLsbD smallCfg.srWelBit = true ∧
    [0x00#8, 0xFF#8, 0xFE#8] ≠ [] ∧ [0x00#8, 0xFF#8, 0xFE#8].length = smallCfg.addrBytes ∧
    0xFFFE = addressOf [0x00#8, 0xFF#8, 0xFE#8] ∧ 2 = smallCfg.capacity - 0xFFFE ∧ 256 = smallCfg.pageSize ∧
    smallCfg.hasBacking = true ∧ (small id).f.dirty = none :=
  ⟨small_ready _ rfl, by decide, by decide, by decide, rfl, by decide, by decide, rfl, rfl, rfl⟩
/-- The example of 44 R223. -/
theorem test_pp_out_of_bounds :
    got (fun t => ((t.f.storage, t.f.dirty, t.f.cur), t.diag))
      (exec (.pp [0#8, 0xFF#8, 0xFF#8, 0x0F#8, 0x0E#8]) (small (fun f => { f with sr := 2#8 }))) = some
      (([(0xFFFF, 0x0F#8)], some 255, 0x10001), [.writeOutOfBounds 0x10000 0x0E#8]) := by decide
/-- The first address past storage. -/
theorem test_witness_program_out_of_bounds :
    (small (fun f => { f with pstate := .writing, sr := 3#8, cur := 0x10000 })).f.pstate = .writing ∧
    (small (fun f => { f with pstate := .writing, sr := 3#8, cur := 0x10000 })).f.sr.getLsbD smallCfg.srWelBit = true ∧
    smallCfg.capacity ≤ (small (fun f => { f with pstate := .writing, sr := 3#8, cur := 0x10000 })).f.cur := by decide
theorem test_witness_write_protect :
    readyForOpcode sel ∧ sel.f.sr.getLsbD sel.cfg.srWelBit = false ∧ [0#8, 0#8, 0#8] ≠ [] ∧ [0#8, 0#8, 0#8].length = sel.cfg.addrBytes :=
  ⟨sel_ready id rfl, by decide, by decide, rfl⟩
/-- The last subsector and the last block of storage. -/
theorem test_witness_erase :
    readyForOpcode (small (fun f => { f with sr := 2#8 })) ∧
    (small (fun f => { f with sr := 2#8 })).f.sr.getLsbD smallCfg.srWelBit = true ∧
    [0x00#8, 0xFF#8, 0xFF#8].length = smallCfg.addrBytes ∧ 0xFFFF = addressOf [0x00#8, 0xFF#8, 0xFF#8] ∧
    0xFFFF - 0xFFFF % smallCfg.subsectorSize < smallCfg.capacity ∧ 0xFFFF - 0xFFFF % smallCfg.blockSize < smallCfg.capacity ∧
    (small id).cfg.hasBacking = true ∧ (State.construct { smallCfg with hasBacking := false }).cfg.hasBacking = false :=
  ⟨small_ready _ rfl, by decide, rfl, by decide, by decide, by decide, rfl, rfl⟩
/-- The first address past storage. -/
theorem test_witness_erase_out_of_bounds :
    readyForOpcode (small (fun f => { f with sr := 2#8 })) ∧ [0x01#8, 0x00#8, 0x00#8].length = smallCfg.addrBytes ∧
    0x10000 = addressOf [0x01#8, 0x00#8, 0x00#8] ∧
    smallCfg.capacity ≤ 0x10000 - 0x10000 % smallCfg.subsectorSize ∧ smallCfg.capacity ≤ 0x10000 - 0x10000 % smallCfg.blockSize :=
  ⟨small_ready _ rfl, rfl, by decide, by decide, by decide⟩
/-- One byte short of each format. -/
theorem test_witness_truncated :
    readyForOpcode sel ∧ [0#8, 0#8].length < formatLength sel.cfg .sse ∧ (List.replicate 10 0#8).length < formatLength sel.cfg .fread ∧
    ([] : List Byte).length < formatLength sel.cfg .rdsr := ⟨sel_ready id rfl, by decide, by decide, by decide⟩
theorem test_witness_deselect :
    State.reset.f.pstate = .idle ∧ State.reset.f.pos = 0 ∧ State.reset.f.acc = 0#24 ∧ State.reset.f.dirty = none := by decide
theorem test_witness_storage_change :
    Memory.wf (selF (fun f => { f with pstate := .writing, sr := 3#8, storage := [(0, 1#8)] })).f.storage = true ∧
    5 = (sel.f.acc.toNat * 256 + (5#8).toNat) % 2 ^ 24 := by decide
/-- A Page-Program whose only data byte has the value of Write-Enable: it is met in Writing. -/
theorem test_witness_latch_protects : sel.f.sr.getLsbD sel.cfg.srWelBit = false ∧
    ∀ pre b post, [0x02#8, 0#8, 0#8, 0#8, 0x06#8] = pre ++ b :: post → (xferAll pre sel).f.pstate = .idle → b ≠ sel.cfg.ops.wren := by
  refine ⟨by decide, fun pre b post h hp => ?_⟩
  rcases pre with _ | ⟨x, pre⟩
  · cases h; decide
  · have hl := congrArg List.length h
    simp only [List.length_cons, List.length_append, List.length_nil] at hl
    have hk : x :: pre = [0x02#8, 0#8, 0#8, 0#8, 0x06#8].take (pre.length + 1) := by rw [h]; simp
    rw [hk] at hp
    have hn : ∀ n < 4, (xferAll ([0x02#8, 0#8, 0#8, 0#8, 0x06#8].take (n + 1)) sel).f.pstate ≠ .idle := by decide
    exact absurd hp (hn pre.length (by omega))
/-- No page dirty, another page dirty, and a byte to program. -/
theorem test_witness_dirty_page :
    sel.f.dirty = none ∧ (selF (fun f => { f with dirty := some 33, pstate := .writing, sr := 3#8, cur := 0x20FF })).f.dirty = some 33 ∧
    (selF (fun f => { f with dirty := some 33, pstate := .writing, sr := 3#8, cur := 0x20FF })).f.pstate = .writing ∧
    (selF (fun f => { f with dirty := some 33, pstate := .writing, sr := 3#8, cur := 0x20FF })).f.sr.getLsbD sel.cfg.srWelBit = true ∧
    0x20FF < sel.cfg.capacity ∧ 33 ≠ 0x20FF / sel.cfg.pageSize ∧
    sel.cfg.hasBacking = true ∧ (State.construct { smallCfg with hasBacking := false }).cfg.hasBacking = false := by decide

/-- A queued write of the last page of the small storage. -/
def queued : PendingWrite := { off := 0xFF00, len := 256, data := [(0xFF00, 1#8), (0xFFFF, 0x0F#8)] }

theorem test_witness_write_back :
    ((small id).mapB (fun b => { b with queue := [queued] })).b.queue = queued :: [] ∧
    Memory.wf ((small id).mapB (fun b => { b with queue := [queued] })).b.image = true ∧ pendingOk smallCfg queued ∧
    (small id).b.queue = [] := ⟨rfl, rfl, ⟨by decide, by decide, by decide⟩, rfl⟩

/-! ### States that meet the invariants -/

/-- In the middle of a Page-Program with one page already queued, the host idle, the device selected, an opcode byte to come. -/
def midProgram : State :=
  { (small (fun f => { f with pstate := .writing, cmd := 0x02#8, pos := 3, cur := 0xFF01, sr := 3#8, srClear := 1#8, fsr := 0x40#8,
                              storage := [(0xFEFF, 2#8), (0xFF00, 1#8)], dirty := some 255 })) with
    b := { image := [], queue := [{ off := 0xFE00, len := 256, data := [(0xFEFF, 2#8)] }] }
    inbox := [.code (.frame [0x06#8])] }

theorem midProgram_config : cfgOk midProgram.cfg = true := by decide

theorem midProgram_core : CoreInv midProgram where
  config := midProgram_config
  layout := by decide
  host := ⟨by decide, by decide, by decide, by decide, by decide, by decide, by decide, by decide⟩
  device := {
    sr_reserved := by decide
    clear_reserved := by decide
    clear_busy := by decide
    fsr_fixed := by decide
    reading_inside := fun h => by cases h
    id_position := fun h => by cases h
    register_command := fun h => by cases h
    collecting := fun h => by cases h
    dirty_writing := fun _ => rfl
    dirty_page := fun p h => by cases h; decide
    storage_wf := by decide
    storage_below := by decide }
  backing := {
    image_wf := rfl
    image_below := rfl
    queue_ok := fun p h => by
      rw [List.mem_singleton.mp h]
      exact ⟨by decide, by decide, by decide⟩ }

theorem midProgram_link : LinkInv midProgram := ⟨fun _ => rfl, fun h => by cases h⟩

theorem midProgram_follows : ImageFollows midProgram := by
  intro _ a ha
  have h0 : a ≠ 0xFF00 := fun h => ha ⟨255, rfl, by subst h; decide, by subst h; decide⟩
  show Memory.read [(0xFEFF, 2#8)] a = Memory.read [(0xFEFF, 2#8), (0xFF00, 1#8)] a
  simp only [Memory.read, if_neg h0.symm]

theorem midProgram_steps : ∃ t, step midProgram = .next t := ⟨_, rfl⟩

theorem test_witness_core_invariant : CoreInv midProgram ∧ ∃ t, step midProgram = .next t := ⟨midProgram_core, midProgram_steps⟩
theorem test_witness_link_invariant :
    CoreInv midProgram ∧ LinkInv midProgram ∧ deselectAllowed midProgram ∧ ∃ t, step midProgram = .next t :=
  ⟨midProgram_core, midProgram_link, fun _ h => (by cases h), midProgram_steps⟩
theorem test_witness_image_follows :
    CoreInv midProgram ∧ ImageFollows midProgram ∧ ∃ t, step midProgram = .next t :=
  ⟨midProgram_core, midProgram_follows, midProgram_steps⟩
theorem test_witness_appends_logs : ∃ t, step midProgram = .next t := midProgram_steps

/-- Deselected with nothing queued, some storage, and the same image. -/
def atRest : State :=
  ((State.construct { smallCfg with initialImage := [(0x10, 0xF0#8)] }).mapF (fun f => { f with sr := 3#8, srClear := 1#8 })).mapH
    (fun h => { h with tcf := true, ccr := 0x00000106#32 })

theorem atRest_config : cfgOk atRest.cfg = true := by decide

theorem atRest_core : CoreInv atRest where
  config := atRest_config
  layout := by decide
  host := ⟨by decide, by decide, by decide, by decide, by decide, by decide, by decide, by decide⟩
  device := {
    sr_reserved := by decide
    clear_reserved := by decide
    clear_busy := by decide
    fsr_fixed := by decide
    reading_inside := fun h => by cases h
    id_position := fun h => by cases h
    register_command := fun h => by cases h
    collecting := fun h => by cases h
    dirty_writing := fun h => absurd rfl h
    dirty_page := fun p h => by cases h
    storage_wf := by decide
    storage_below := by decide }
  backing := { image_wf := by decide, image_below := by decide, queue_ok := fun p h => by cases h }

theorem test_witness_idle_conditions :
    CoreInv atRest ∧ LinkInv atRest ∧ ImageFollows atRest ∧ hostIdle atRest ∧ linkIdle atRest ∧ quiescent atRest ∧
    atRest.cfg.hasBacking = true :=
  ⟨atRest_core, ⟨fun h => absurd h (by decide), fun _ => ⟨rfl, rfl, rfl⟩⟩, fun _ _ _ => rfl, rfl, ⟨rfl, rfl⟩, ⟨⟨rfl, rfl⟩, rfl⟩, rfl⟩
theorem test_witness_construction :
    cfgOk { smallCfg with initialImage := [(0x10, 0xF0#8)] } = true ∧ cfgOk Cfg.default = true ∧ smallCfg.layoutOk = true := by decide
/-- Construction refuses what R10 forbids: a capacity that is no multiple of the block size, an opcode that is the filler, a
polling budget of 0. -/
theorem test_construction_refuses :
    construct { Cfg.default with capacity := 100 } = .refused .badConfiguration ∧
    construct { Cfg.default with fillerByte := 0x06 } = .refused .badConfiguration ∧
    construct { Cfg.default with pollBudgets := [(7, 0)] } = .refused .badConfiguration := ⟨rfl, rfl, rfl⟩

end Sys2Proof.Tests
end

section
/-! SUPPORT. What a step makes of each input, and the statements O5 and O8 about it (00_scope R3 to R5). -/

namespace Sys2Proof.Machine

variable {s : State} {is : List Input}

/-! ### A step, by the input it takes (00_scope R3) -/

/-- What a fetched input comes to: its instruction run, or the outcome it already is. -/
def Fetched.outcome : Fetched → Host.Outcome State Fault Refusal
  | .run i u => exec i u
  | .done o => o

theorem step_eq_outcome (s : State) : step s = (fetch s).outcome := by
  unfold step
  cases fetch s <;> rfl

theorem step_no_input (h : s.inbox = []) : step s = .next s := by
  rw [step_eq_outcome, fetch, h]; rfl

theorem step_access {a : RegAccess} (h : s.inbox = .code (.access a) :: is) :
    step s = (fetchAccess a (s.withInbox is)).outcome := by
  rw [step_eq_outcome, fetch, h]

theorem step_frame {bs : List Byte} (h : s.inbox = .code (.frame bs) :: is) :
    step s = (fetchFrame bs (s.withInbox is)).outcome := by
  rw [step_eq_outcome, fetch, h]

theorem step_bus {a : BusAccess} (h : s.inbox = .bus a :: is) : step s = (fetchBus a (s.withInbox is)).outcome := by
  rw [step_eq_outcome, fetch, h]

theorem step_select {level : Bool} (h : s.inbox = .select level :: is) : step s = .next (setCS level (s.withInbox is)) := by
  rw [step_eq_outcome, fetch, h]; rfl

theorem step_systemReset (h : s.inbox = .systemReset :: is) : step s = .next (systemReset (s.withInbox is)) := by
  rw [step_eq_outcome, fetch, h]; rfl

theorem step_snapshot (h : s.inbox = .snapshot :: is) : step s = .next (beforeSnapshot (s.withInbox is)) := by
  rw [step_eq_outcome, fetch, h]; rfl

theorem step_writeBack (h : s.inbox = .writeBack :: is) : step s = .next (writeBackStep (s.withInbox is)) := by
  rw [step_eq_outcome, fetch, h]; rfl

/-! ### What a register operation or a frame is fetched as (30_encoding R80) -/

theorem fetchAccess_ok {a : RegAccess} {i : Instr} (h : decodeAccess s.cfg a = .ok i) : fetchAccess a s = .run i s := by
  rw [fetchAccess, h]

theorem fetchAccess_error {a : RegAccess} {e : DecodeError} (h : decodeAccess s.cfg a = .error e) :
    fetchAccess a s = .done (rejectedInput e s) := by
  rw [fetchAccess, h]

/-- Every byte taken as an opcode heads a command (30_encoding R97). -/
theorem decodeFrame_cons (c : Cfg) (b : Byte) (bs : List Byte) : ∃ i more, decodeFrame c (b :: bs) = .ok (i, more) := by
  simp only [decodeFrame]
  cases flashCmdOf c b <;> exact ⟨_, _, rfl⟩

/-- In Idle the command at the head of a frame is taken, and the rest of the frame put back. -/
theorem fetchFrame_idle {bs more : List Byte} {i : Instr} (hp : s.f.pstate = .idle) (h : decodeFrame s.cfg bs = .ok (i, more)) :
    fetchFrame bs s = .run i (pushFrame more s) := by
  cases bs with
  | nil => cases h
  | cons b rest => rw [fetchFrame, if_pos hp, h]

/-- Outside Idle one byte is exchanged, and the rest of the frame put back. -/
theorem fetchFrame_not_idle {b : Byte} {rest : List Byte} (hp : s.f.pstate ≠ .idle) :
    fetchFrame (b :: rest) s = .done (exchange [b] (pushFrame rest s)) := by
  rw [fetchFrame, if_neg hp]

/-- The rest of a frame is the next input, unless nothing is left. -/
theorem pushFrame_inbox (bs : List Byte) (is : List Input) (s : State) :
    pushFrame bs (s.withInbox is) = { s with inbox := if bs = [] then is else .code (.frame bs) :: is } := by
  unfold pushFrame
  split <;> rfl

/-- Settles O5: the step's equation for each encoding space, with what the input is fetched as. -/
theorem stepRunsDecodedInstruction : Obligations.StepRunsDecodedInstruction := by
  intro s is i
  constructor
  · intro a hin hdec
    rw [step_access hin, fetchAccess_ok (s := s.withInbox is) hdec]
    rfl
  · intro bs more hin hidle hdec
    rw [step_frame hin, fetchFrame_idle (s := s.withInbox is) hidle hdec, pushFrame_inbox]
    rfl

/-- Settles O8: the step's equation for each input that is no instruction. -/
theorem stepTakesPlatformInputs : Obligations.StepTakesPlatformInputs := fun _ _ =>
  ⟨step_no_input, fun _ => step_select, step_systemReset, step_snapshot, step_writeBack⟩

end Sys2Proof.Machine
end

section
/-! SUPPORT. No outcome depends on the backing (00_scope R5, O53). States that differ in the backing alone are related; every
operation takes related states to related states, by the same branches and with the same replies, so every step does. -/

namespace Sys2Proof.Machine

/-- The states differ in the backing alone. -/
def SameButBacking (s t : State) : Prop := ∃ b, t = withBacking b s

/-- Two answers (a reply or a flag, and the state after it) differ in the backing alone. -/
def SameAnswer {α : Type} (p q : α × State) : Prop := q.1 = p.1 ∧ SameButBacking p.2 q.2

/-- Two outcomes differ in the backing alone: a fault or a refusal is the same one. -/
inductive SameOutcome : Host.Outcome State Fault Refusal → Host.Outcome State Fault Refusal → Prop
  | next {s t : State} (h : SameButBacking s t) : SameOutcome (.next s) (.next t)
  | fault (r : Fault) : SameOutcome (.fault r) (.fault r)
  | refused (r : Refusal) : SameOutcome (.refused r) (.refused r)

variable {s t : State}

theorem SameOutcome.onNext_eq {o p : Host.Outcome State Fault Refusal} (h : SameOutcome o p) (b : Backing) :
    onNext (withBacking b) p = onNext (withBacking b) o := by
  cases h with
  | next h => obtain ⟨c, rfl⟩ := h; rfl
  | fault r => rfl
  | refused r => rfl

/-! ### Updates of one block of the state -/

theorem SameButBacking.refl (s : State) : SameButBacking s s := ⟨s.b, rfl⟩

theorem SameButBacking.cfg (h : SameButBacking s t) : t.cfg = s.cfg := by obtain ⟨b, rfl⟩ := h; rfl

theorem SameButBacking.h (h : SameButBacking s t) : t.h = s.h := by obtain ⟨b, rfl⟩ := h; rfl

theorem SameButBacking.l (h : SameButBacking s t) : t.l = s.l := by obtain ⟨b, rfl⟩ := h; rfl

theorem SameButBacking.f (h : SameButBacking s t) : t.f = s.f := by obtain ⟨b, rfl⟩ := h; rfl

theorem SameButBacking.inbox (h : SameButBacking s t) : t.inbox = s.inbox := by obtain ⟨b, rfl⟩ := h; rfl

theorem sameButBacking_mapH (g : HostCtl → HostCtl) (h : SameButBacking s t) : SameButBacking (s.mapH g) (t.mapH g) := by
  obtain ⟨b, rfl⟩ := h; exact ⟨b, rfl⟩

theorem sameButBacking_mapL (g : Link → Link) (h : SameButBacking s t) : SameButBacking (s.mapL g) (t.mapL g) := by
  obtain ⟨b, rfl⟩ := h; exact ⟨b, rfl⟩

theorem sameButBacking_mapF (g : Flash → Flash) (h : SameButBacking s t) : SameButBacking (s.mapF g) (t.mapF g) := by
  obtain ⟨b, rfl⟩ := h; exact ⟨b, rfl⟩

/-- The backing may be updated on either side, or on one side only. -/
theorem sameButBacking_mapB (g k : Backing → Backing) (h : SameButBacking s t) : SameButBacking (s.mapB g) (t.mapB k) := by
  obtain ⟨b, rfl⟩ := h; exact ⟨k b, rfl⟩

theorem sameButBacking_withInbox (is : List Input) (h : SameButBacking s t) :
    SameButBacking (s.withInbox is) (t.withInbox is) := by
  obtain ⟨b, rfl⟩ := h; exact ⟨b, rfl⟩

theorem sameButBacking_returning (v : Nat) (h : SameButBacking s t) : SameButBacking (s.returning v) (t.returning v) := by
  obtain ⟨b, rfl⟩ := h; exact ⟨b, rfl⟩

theorem sameButBacking_raise (d : Diagnostic) (h : SameButBacking s t) : SameButBacking (raise d s) (raise d t) := by
  obtain ⟨b, rfl⟩ := h; exact ⟨b, rfl⟩

theorem sameButBacking_readUnspecified (w : Nat) (h : SameButBacking s t) :
    SameButBacking (readUnspecified w s) (readUnspecified w t) := by
  obtain ⟨b, rfl⟩ := h; exact ⟨b, rfl⟩

theorem sameButBacking_refusedAccess (a : Access) (w : Nat) (h : SameButBacking s t) :
    SameButBacking (refusedAccess a w s) (refusedAccess a w t) := by
  cases a with
  | read => exact sameButBacking_readUnspecified w h
  | write v => exact h

/-! ### The queue (44 R229 to R233): written blindly -/

theorem sameButBacking_writeAsync (off len : Nat) (h : SameButBacking s t) :
    SameButBacking (writeAsync off len s) (writeAsync off len t) := by
  cases hb : s.cfg.hasBacking
  · rw [writeAsync_volatile off len s hb, writeAsync_volatile off len t (h.cfg ▸ hb)]
    exact h
  · rw [writeAsync_backing off len s hb, writeAsync_backing off len t (h.cfg ▸ hb)]
    exact sameButBacking_mapB _ _ h

theorem sameButBacking_flushDirty (h : SameButBacking s t) : SameButBacking (flushDirty s) (flushDirty t) := by
  cases hd : s.f.dirty with
  | none =>
    rw [flushDirty_clean s hd, flushDirty_clean t (h.f ▸ hd)]
    exact h
  | some q =>
    rw [flushDirty_dirty s q hd, flushDirty_dirty t q (h.f ▸ hd), h.cfg]
    exact sameButBacking_mapF _ (sameButBacking_writeAsync _ _ h)

theorem sameButBacking_markDirty (p : Nat) (h : SameButBacking s t) : SameButBacking (markDirty p s) (markDirty p t) := by
  rcases markDirty_cases p s with ⟨hd, e⟩ | ⟨q, hd, hq, e⟩
  · rw [e, markDirty_same p t (h.f ▸ hd)]
    exact sameButBacking_mapF _ h
  · rw [e, markDirty_other p q t (h.f ▸ hd) hq]
    exact sameButBacking_mapF _ (sameButBacking_flushDirty h)

/-- The write-back agent reads the queue, and writes nothing but the backing. -/
theorem writeBackStep_sameButBacking (s : State) : SameButBacking s (writeBackStep s) := by
  cases hq : s.b.queue with
  | nil => rw [writeBackStep_empty s hq]; exact SameButBacking.refl s
  | cons p q => rw [writeBackStep_oldest s p q hq]; exact ⟨_, rfl⟩

theorem sameButBacking_writeBackStep (h : SameButBacking s t) : SameButBacking (writeBackStep s) (writeBackStep t) := by
  obtain ⟨b, rfl⟩ := h
  obtain ⟨c, hc⟩ := writeBackStep_sameButBacking s
  obtain ⟨d, hd⟩ := writeBackStep_sameButBacking (withBacking b s)
  exact ⟨d, by rw [hc, hd]; rfl⟩

theorem sameButBacking_deviceDeselect (h : SameButBacking s t) : SameButBacking (deviceDeselect s) (deviceDeselect t) :=
  sameButBacking_mapF _ (sameButBacking_flushDirty h)

/-! ### The device (43 R180 to R202, 44 R220 to R227) -/

theorem sameButBacking_erase (n : Nat) (h : SameButBacking s t) : SameButBacking (erase n s) (erase n t) := by
  rcases erase_cases n s with ⟨hw, e⟩ | ⟨hw, hc, e⟩ | ⟨hw, hc, e⟩ <;> obtain ⟨b, rfl⟩ := h
  · rw [e, erase_protected n (withBacking b s) hw]
    exact ⟨b, rfl⟩
  · rw [e, erase_outside n (withBacking b s) hw hc]
    exact ⟨b, rfl⟩
  · rw [e, erase_inside n (withBacking b s) hw hc]
    exact sameButBacking_mapF _ (sameButBacking_writeAsync _ _ ⟨b, rfl⟩)

theorem sameButBacking_program (a : Nat) (d : Byte) (h : SameButBacking s t) :
    SameButBacking (program a d s) (program a d t) := by
  unfold program
  dsimp only
  rw [h.f]
  refine sameButBacking_mapF _ ?_
  split
  · exact sameButBacking_raise _ h
  · exact h

theorem sameButBacking_programByte (d : Byte) (h : SameButBacking s t) :
    SameButBacking (programByte d s) (programByte d t) := by
  rcases programByte_cases d s with ⟨hw, e⟩ | ⟨hw, hc, e⟩ | ⟨hw, hc, e⟩ <;> obtain ⟨b, rfl⟩ := h
  · rw [e, programByte_protected d (withBacking b s) hw]
    exact ⟨b, rfl⟩
  · rw [e, programByte_outside d (withBacking b s) hw hc]
    exact ⟨b, rfl⟩
  · rw [e, programByte_inside d (withBacking b s) hw hc]
    exact sameButBacking_mapF _ (sameButBacking_markDirty _ (sameButBacking_program _ d ⟨b, rfl⟩))

/-- The rule of each opcode: its arm updates the device or raises a diagnostic. -/
theorem sameButBacking_armAs (armed : Bool) (k : FlashCmd) (h : SameButBacking s t) :
    SameButBacking (armAs armed s k) (armAs armed t k) := by
  obtain ⟨b, rfl⟩ := h
  cases k
  case rst => cases armed <;> exact ⟨b, rfl⟩
  all_goals exact ⟨b, rfl⟩

theorem sameButBacking_decodeOpcode (d : Byte) (h : SameButBacking s t) :
    SameButBacking (decodeOpcode d s) (decodeOpcode d t) := by
  have common : SameButBacking (opcodeCommon d s) (opcodeCommon d t) := sameButBacking_mapF _ h
  cases hk : flashCmdOf s.cfg d with
  | none =>
    rw [decodeOpcode_unknown s d hk, decodeOpcode_unknown t d (h.cfg ▸ hk)]
    exact sameButBacking_raise _ common
  | some k =>
    rw [decodeOpcode_of s d k hk, decodeOpcode_of t d k (h.cfg ▸ hk), h.f]
    exact sameButBacking_armAs _ k common

theorem sameButBacking_dispatchPp (h : SameButBacking s t) : SameButBacking (dispatchPp s) (dispatchPp t) := by
  have addressed := sameButBacking_mapF (fun f => { f with cur := f.acc.toNat }) h
  unfold dispatchPp
  dsimp only
  rw [h.cfg, addressed.f]
  refine sameButBacking_mapF _ ?_
  split
  · exact sameButBacking_mapF _ addressed
  · exact addressed

theorem sameButBacking_dispatch (h : SameButBacking s t) : SameButBacking (dispatch s) (dispatch t) := by
  unfold dispatch
  rw [h.cfg, h.f]
  split
  · obtain ⟨b, rfl⟩ := h
    exact ⟨b, rfl⟩
  · exact sameButBacking_dispatchPp h
  · obtain ⟨b, rfl⟩ := h
    exact ⟨b, rfl⟩
  · unfold dispatchSse
    rw [h.cfg]
    exact sameButBacking_mapF _ (sameButBacking_erase _ h)
  · unfold dispatchBe
    rw [h.cfg]
    exact sameButBacking_mapF _ (sameButBacking_erase _ h)
  · exact h

theorem sameButBacking_collect (d : Byte) (h : SameButBacking s t) : SameButBacking (collect d s) (collect d t) := by
  have hc : SameButBacking (collected d s) (collected d t) := by
    obtain ⟨b, rfl⟩ := h
    exact ⟨b, rfl⟩
  by_cases hl : s.f.pos + 1 = collectNeed s.cfg (flashCmdOf s.cfg s.f.cmd)
  · rw [collect_last d s hl, collect_last d t (by rw [h.f, h.cfg]; exact hl)]
    exact sameButBacking_dispatch hc
  · rw [collect_more d s hl, collect_more d t (by rw [h.f, h.cfg]; exact hl)]
    exact hc

theorem sameAnswer_registerByte (h : SameButBacking s t) : SameAnswer (registerByte s) (registerByte t) := by
  obtain ⟨b, rfl⟩ := h
  cases hk : flashCmdOf s.cfg s.f.cmd with
  | none =>
    unfold registerByte
    rw [show flashCmdOf (withBacking b s).cfg (withBacking b s).f.cmd = none from hk, hk]
    exact ⟨rfl, b, rfl⟩
  | some k =>
    rw [registerByte_of s k hk, registerByte_of (withBacking b s) k hk]
    cases k <;> exact ⟨rfl, b, rfl⟩

/-! ### Exchanges and chip-select (40 R110 to R113) -/

theorem sameAnswer_deviceByte (d : Byte) (h : SameButBacking s t) : SameAnswer (deviceByte d s) (deviceByte d t) := by
  unfold deviceByte
  rw [h.f, h.cfg]
  split
  · exact ⟨rfl, sameButBacking_decodeOpcode d h⟩
  · exact ⟨rfl, sameButBacking_collect d h⟩
  · exact ⟨rfl, sameButBacking_programByte d h⟩
  · obtain ⟨b, rfl⟩ := h
    exact ⟨rfl, b, rfl⟩
  · obtain ⟨b, rfl⟩ := h
    exact ⟨rfl, b, rfl⟩
  · exact sameAnswer_registerByte h

theorem sameAnswer_xfer (d : Byte) (h : SameButBacking s t) : SameAnswer (xfer d s) (xfer d t) := by
  obtain ⟨reply, state⟩ := sameAnswer_deviceByte d h
  refine ⟨reply, ?_⟩
  unfold xfer
  dsimp only
  rw [reply]
  exact sameButBacking_mapL _ state

theorem sameButBacking_xferAll (ds : List Byte) (h : SameButBacking s t) : SameButBacking (xferAll ds s) (xferAll ds t) := by
  induction ds generalizing s t with
  | nil => exact h
  | cons d ds ih => exact ih (sameAnswer_xfer d h).2

theorem SameButBacking.replies_eq (h : SameButBacking s t) (ds : List Byte) : replies ds t = replies ds s := by
  induction ds generalizing s t with
  | nil => rfl
  | cons d ds ih =>
    obtain ⟨reply, state⟩ := sameAnswer_xfer d h
    rw [replies, replies, reply, ih state]

theorem sameButBacking_setCS (level : Bool) (h : SameButBacking s t) : SameButBacking (setCS level s) (setCS level t) := by
  have htraced : SameButBacking (traced level s) (traced level t) := sameButBacking_mapL _ h
  cases level
  · rw [setCS_false, setCS_false]
    exact sameButBacking_mapL _ (sameButBacking_deviceDeselect htraced)
  · rw [setCS_true, setCS_true]
    exact sameButBacking_mapL _ htraced

theorem sameOutcome_exchange (ds : List Byte) (h : SameButBacking s t) : SameOutcome (exchange ds s) (exchange ds t) := by
  cases hc : s.l.cs
  · rw [exchange_deselected ds s hc, exchange_deselected ds t (h.l ▸ hc)]
    exact .refused _
  · rw [exchange_selected ds s hc, exchange_selected ds t (h.l ▸ hc)]
    exact .next (sameButBacking_xferAll ds h)

/-! ### The sequencer (42 R152 to R163) -/

theorem sameButBacking_header (h : SameButBacking s t) : SameButBacking (header s) (header t) := by
  unfold header
  rw [h.cfg, h.h]
  exact sameButBacking_xferAll _ (sameButBacking_setCS true (sameButBacking_mapH _ h))

theorem sameButBacking_burst (n : Nat) (h : SameButBacking s t) : SameButBacking (burst n s) (burst n t) := by
  rw [burst_eq, burst_eq, h.cfg, h.replies_eq]
  exact sameButBacking_mapH _ (sameButBacking_xferAll _ h)

theorem sameAnswer_pollExchange (h : SameButBacking s t) : SameAnswer (pollExchange s) (pollExchange t) := by
  unfold pollExchange
  rw [h.cfg, h.replies_eq]
  exact ⟨rfl, sameButBacking_xferAll _ h⟩

theorem SameButBacking.pollHit_eq (h : SameButBacking s t) : pollHit t = pollHit s := by
  unfold pollHit
  rw [(sameAnswer_pollExchange h).1, h.h]

theorem sameButBacking_pollResent (h : SameButBacking s t) : SameButBacking (pollResent s) (pollResent t) := by
  unfold pollResent
  rw [h.cfg, h.h]
  exact (sameAnswer_xfer _ (sameAnswer_pollExchange h).2).2

theorem sameButBacking_pollLoop (n : Nat) (h : SameButBacking s t) : SameButBacking (pollLoop n s) (pollLoop n t) := by
  induction n generalizing s t with
  | zero =>
    rw [pollLoop_zero, pollLoop_zero, h.pollHit_eq]
    split <;> exact sameButBacking_mapH _ (sameAnswer_pollExchange h).2
  | succ n ih =>
    rw [pollLoop_succ, pollLoop_succ, h.pollHit_eq]
    split
    · exact sameButBacking_mapH _ (sameAnswer_pollExchange h).2
    · exact ih (sameButBacking_pollResent h)

theorem sameButBacking_endWithoutData (h : SameButBacking s t) : SameButBacking (endWithoutData s) (endWithoutData t) :=
  sameButBacking_mapH _ (sameButBacking_setCS false h)

theorem sameButBacking_readBurst (h : SameButBacking s t) : SameButBacking (readBurst s) (readBurst t) := by
  unfold readBurst
  rw [h.h]
  exact sameButBacking_setCS false (sameButBacking_burst _ h)

theorem sameButBacking_autoPoll (h : SameButBacking s t) : SameButBacking (autoPoll s) (autoPoll t) := by
  unfold autoPoll
  rw [h.cfg, h.h]
  exact sameButBacking_mapH _ (sameButBacking_setCS false (sameButBacking_pollLoop _ h))

theorem sameButBacking_dataPhase (h : SameButBacking s t) : SameButBacking (dataPhase s) (dataPhase t) := by
  unfold dataPhase
  rw [h.cfg, h.h]
  split
  · exact sameButBacking_endWithoutData h
  · exact sameButBacking_endWithoutData h
  · exact sameButBacking_mapH _ h
  · exact sameButBacking_readBurst h
  · exact sameButBacking_autoPoll h
  · exact h

/-- Whether a transaction starts does not depend on the backing, and neither does what it does. -/
theorem sameAnswer_execute (h : SameButBacking s t) : SameAnswer (execute s) (execute t) := by
  unfold execute
  rw [h.cfg, h.h]
  split
  · exact ⟨rfl, sameButBacking_raise _ h⟩
  · exact ⟨rfl, sameButBacking_dataPhase (sameButBacking_header h)⟩

theorem sameButBacking_sendDataByte (d : Byte) (h : SameButBacking s t) :
    SameButBacking (sendDataByte d s) (sendDataByte d t) := by
  have sent := sameButBacking_mapH (fun h => { h with txLeft := h.txLeft - 1 }) (sameAnswer_xfer d h).2
  unfold sendDataByte
  dsimp only
  rw [sent.h]
  split
  · exact sameButBacking_setCS false (sameButBacking_mapH _ sent)
  · exact sent

/-! ### Register operations (41 R120 to R139) -/

theorem sameButBacking_regWrite (r : Reg) (w : Nat) {body : State → State} (h : SameButBacking s t)
    (hb : SameButBacking (body s) (body t)) : SameButBacking (regWrite r w body s) (regWrite r w body t) := by
  unfold regWrite
  rw [h.cfg, h.h]
  split
  · exact sameButBacking_raise _ h
  · split
    · exact sameButBacking_raise _ h
    · exact hb

theorem sameButBacking_regRead (r : Reg) (w : Nat) {body : State → State} (h : SameButBacking s t)
    (hb : SameButBacking (body s) (body t)) : SameButBacking (regRead r w body s) (regRead r w body t) := by
  unfold regRead
  rw [h.cfg]
  split
  · exact sameButBacking_readUnspecified w (sameButBacking_raise _ h)
  · exact hb

theorem sameButBacking_afterCcrWrite (h : SameButBacking s t) : SameButBacking (afterCcrWrite s) (afterCcrWrite t) := by
  unfold afterCcrWrite
  rw [h.cfg, h.h]
  split
  · exact (sameAnswer_execute h).2
  · exact h
  · exact h
  · exact sameButBacking_raise _ h

theorem sameButBacking_afterArWrite (h : SameButBacking s t) : SameButBacking (afterArWrite s) (afterArWrite t) := by
  unfold afterArWrite
  rw [h.cfg, h.h]
  split
  · exact (sameAnswer_execute h).2
  · exact h
  · exact h
  · exact sameButBacking_raise _ h

theorem sameButBacking_dataWrite (d : Byte) (h : SameButBacking s t) : SameButBacking (dataWrite d s) (dataWrite d t) := by
  obtain ⟨started, executed⟩ := sameAnswer_execute h
  unfold dataWrite
  rw [h.cfg, h.h, started]
  split
  · exact sameButBacking_raise _ h
  · split
    · split
      · exact sameButBacking_raise _ h
      · split
        · exact sameButBacking_sendDataByte d executed
        · exact executed
    · exact sameButBacking_sendDataByte d h

theorem sameButBacking_dataRead (h : SameButBacking s t) : SameButBacking (dataRead s) (dataRead t) := by
  unfold dataRead
  rw [h.h]
  split
  · exact sameButBacking_readUnspecified 1 (sameButBacking_raise _ h)
  · exact sameButBacking_returning _ (sameButBacking_mapH _ h)

theorem SameButBacking.sendsDeselected_eq (h : SameButBacking s t) (w : Nat) : sendsDeselected w t = sendsDeselected w s := by
  obtain ⟨b, rfl⟩ := h
  rfl

theorem sameOutcome_execW8Dr (w : Nat) (v : Word) (h : SameButBacking s t) :
    SameOutcome (execW8Dr w v s) (execW8Dr w v t) := by
  cases hd : sendsDeselected w s
  · rw [execW8Dr_runs v hd, execW8Dr_runs v (h.sendsDeselected_eq w ▸ hd)]
    exact .next (sameButBacking_regWrite .dr w h (sameButBacking_dataWrite _ h))
  · rw [execW8Dr_refused v hd, execW8Dr_refused v (h.sendsDeselected_eq w ▸ hd)]
    exact .refused _

/-- A register write whose rule updates the host controller alone. -/
theorem sameOutcome_hostWrite (r : Reg) (w : Nat) (g : Cfg → HostCtl → HostCtl) (h : SameButBacking s t) :
    SameOutcome (.next (regWrite r w (fun u => u.mapH (g u.cfg)) s)) (.next (regWrite r w (fun u => u.mapH (g u.cfg)) t)) :=
  .next (sameButBacking_regWrite r w h (by rw [h.cfg]; exact sameButBacking_mapH _ h))

/-- A register read that returns a value of the host controller. -/
theorem sameOutcome_hostRead (r : Reg) (w : Nat) (v : Cfg → HostCtl → Nat) (h : SameButBacking s t) :
    SameOutcome (.next (regRead r w (fun u => u.returning (v u.cfg u.h)) s))
      (.next (regRead r w (fun u => u.returning (v u.cfg u.h)) t)) :=
  .next (sameButBacking_regRead r w h (by rw [h.cfg, h.h]; exact sameButBacking_returning _ h))

theorem sameOutcome_reserved (a : Access) (off w : Nat) (h : SameButBacking s t) :
    SameOutcome (.next (reservedAccess a off w s)) (.next (reservedAccess a off w t)) :=
  .next (sameButBacking_refusedAccess a w (sameButBacking_raise _ h))

theorem sameOutcome_runCommand (k : FlashCmd) (ops : List Byte) (h : SameButBacking s t) :
    SameOutcome (runCommand k ops s) (runCommand k ops t) := by
  unfold runCommand
  rw [h.cfg]
  exact sameOutcome_exchange _ h

/-! ### Instructions -/

theorem sameOutcome_exec (i : Instr) (h : SameButBacking s t) : SameOutcome (exec i s) (exec i t) := by
  cases i
  case w32Cr w v =>
    exact sameOutcome_hostWrite .cr w (fun c h => if crAborts c v then abort (crLatch c v h) else crLatch c v h) h
  case r32Cr w => exact sameOutcome_hostRead .cr w (fun c h => (crValue c h).toNat) h
  case w32Sr w v => exact .next (sameButBacking_regWrite .sr w h (h.cfg ▸ sameButBacking_raise _ h))
  case r32Sr w => exact sameOutcome_hostRead .sr w (fun c h => (srValue c h).toNat) h
  case w32Fcr w v => exact sameOutcome_hostWrite .fcr w (fun c => clearFlags c v) h
  case r32Fcr w => exact sameOutcome_hostRead .fcr w (fun _ _ => 0) h
  case w32Dlr w v => exact sameOutcome_hostWrite .dlr w (fun c h => { h with dlr := fieldWord v c.bits.dlr c.dlrBits }) h
  case r32Dlr w => exact sameOutcome_hostRead .dlr w (fun c h => (h.dlr <<< c.bits.dlr).toNat) h
  case w32Ccr w v =>
    exact .next (sameButBacking_regWrite .ccr w h (sameButBacking_afterCcrWrite (h.cfg ▸ sameButBacking_mapH _ h)))
  case r32Ccr w => exact sameOutcome_hostRead .ccr w (fun _ h => h.ccr.toNat) h
  case w32Ar w v => exact .next (sameButBacking_regWrite .ar w h (sameButBacking_afterArWrite (sameButBacking_mapH _ h)))
  case r32Ar w => exact sameOutcome_hostRead .ar w (fun _ h => h.ar.toNat) h
  case w8Dr w v => exact sameOutcome_execW8Dr w v h
  case r8Dr w => exact .next (sameButBacking_regRead .dr w h (sameButBacking_dataRead h))
  case w32Psmkr w v => exact sameOutcome_hostWrite .psmkr w (fun _ h => { h with psmkr := v }) h
  case r32Psmkr w => exact sameOutcome_hostRead .psmkr w (fun _ h => h.psmkr.toNat) h
  case w32Psmar w v => exact sameOutcome_hostWrite .psmar w (fun _ h => { h with psmar := v }) h
  case r32Psmar w => exact sameOutcome_hostRead .psmar w (fun _ h => h.psmar.toNat) h
  case w32Pir w v => exact sameOutcome_hostWrite .pir w (fun c h => { h with pir := fieldWord v c.bits.pir c.pirBits }) h
  case r32Pir w => exact sameOutcome_hostRead .pir w (fun c h => (h.pir <<< c.bits.pir).toNat) h
  case reserved04 a off w => exact sameOutcome_reserved a off w h
  case reserved1C a off w => exact sameOutcome_reserved a off w h
  case reserved30 a off w => exact sameOutcome_reserved a off w h
  case unknown d => exact sameOutcome_exchange [d] h
  all_goals exact sameOutcome_runCommand _ _ h

/-! ### Inputs -/

theorem sameButBacking_systemReset (h : SameButBacking s t) : SameButBacking (systemReset s) (systemReset t) := by
  unfold systemReset
  rw [h.cfg]
  exact sameButBacking_mapF _ (sameButBacking_mapH _ (sameButBacking_setCS false h))

theorem sameOutcome_rejectedInput (e : DecodeError) (h : SameButBacking s t) :
    SameOutcome (rejectedInput e s) (rejectedInput e t) := by
  unfold rejectedInput
  rw [h.cfg]
  cases e with
  | offsetOutsideWindow off => exact .fault _
  | emptyFrame => exact .next h

theorem sameButBacking_pushFrame (ds : List Byte) (h : SameButBacking s t) :
    SameButBacking (pushFrame ds s) (pushFrame ds t) := by
  unfold pushFrame
  rw [h.inbox]
  split
  · exact h
  · exact sameButBacking_withInbox _ h

theorem sameOutcome_fetchAccess (a : RegAccess) (h : SameButBacking s t) :
    SameOutcome (fetchAccess a s).outcome (fetchAccess a t).outcome := by
  cases hd : decodeAccess s.cfg a with
  | error e =>
    rw [fetchAccess_error hd, fetchAccess_error (h.cfg ▸ hd)]
    exact sameOutcome_rejectedInput e h
  | ok i =>
    rw [fetchAccess_ok hd, fetchAccess_ok (h.cfg ▸ hd)]
    exact sameOutcome_exec i h

theorem sameOutcome_fetchFrame (ds : List Byte) (h : SameButBacking s t) :
    SameOutcome (fetchFrame ds s).outcome (fetchFrame ds t).outcome := by
  cases ds with
  | nil => exact .next h
  | cons d rest =>
    by_cases hp : s.f.pstate = .idle
    · obtain ⟨i, more, hd⟩ := decodeFrame_cons s.cfg d rest
      rw [fetchFrame_idle hp hd, fetchFrame_idle (h.f ▸ hp) (h.cfg ▸ hd)]
      exact sameOutcome_exec i (sameButBacking_pushFrame more h)
    · rw [fetchFrame_not_idle hp, fetchFrame_not_idle (h.f ▸ hp)]
      exact sameOutcome_exchange [d] (sameButBacking_pushFrame rest h)

theorem sameOutcome_fetchBus (a : BusAccess) (h : SameButBacking s t) :
    SameOutcome (fetchBus a s).outcome (fetchBus a t).outcome := by
  unfold fetchBus
  rw [h.cfg]
  split
  · exact .next (sameButBacking_refusedAccess a.acc a.width (sameButBacking_raise _ h))
  · split
    · exact sameOutcome_fetchAccess _ h
    · exact .fault _

/-- Every step takes states that differ in the backing alone to outcomes that do, whatever the input. -/
theorem sameOutcome_step (h : SameButBacking s t) : SameOutcome (step s) (step t) := by
  cases hi : s.inbox with
  | nil =>
    rw [step_no_input hi, step_no_input (h.inbox ▸ hi)]
    exact .next h
  | cons input is =>
    have taken : SameButBacking (s.withInbox is) (t.withInbox is) := sameButBacking_withInbox is h
    have hj : t.inbox = input :: is := h.inbox.trans hi
    cases input with
    | code c =>
      cases c with
      | access a => rw [step_access hi, step_access hj]; exact sameOutcome_fetchAccess a taken
      | frame ds => rw [step_frame hi, step_frame hj]; exact sameOutcome_fetchFrame ds taken
    | bus a => rw [step_bus hi, step_bus hj]; exact sameOutcome_fetchBus a taken
    | select level => rw [step_select hi, step_select hj]; exact .next (sameButBacking_setCS level taken)
    | systemReset => rw [step_systemReset hi, step_systemReset hj]; exact .next (sameButBacking_systemReset taken)
    | snapshot => rw [step_snapshot hi, step_snapshot hj]; exact .next (sameButBacking_flushDirty taken)
    | writeBack => rw [step_writeBack hi, step_writeBack hj]; exact .next (sameButBacking_writeBackStep taken)

/-- Settles O53: the two states differ in the backing alone, so their outcomes do. -/
theorem backingIsNeverRead : Obligations.BackingIsNeverRead := fun _ b =>
  (sameOutcome_step ⟨b, rfl⟩).onNext_eq b

end Sys2Proof.Machine
end

section
/-! SUPPORT. The invariants hold after construction (10_state R46, R47, O56). -/

namespace Sys2Proof.Machine

/-- The host controller's reset values meet its part of the invariant, under every configuration. -/
theorem hostInv_reset (c : Cfg) : HostInv c HostCtl.reset where
  fifo_open h := absurd rfl h
  write_open h := absurd h (Nat.lt_irrefl 0)
  busy_open h := Bool.noConfusion h
  tx_bound := Nat.zero_le _
  ccr_reserved := BitVec.zero_and
  dlr_width := Nat.two_pow_pos _
  pir_width := Nat.two_pow_pos _
  no_error := rfl

/-- The device's reset registers meet its part of the invariant, on canonical storage with no dirty page. -/
theorem deviceInv_resetRegisters {c : Cfg} {f : Flash} (hd : f.dirty = none) (hw : Memory.wf f.storage = true)
    (hb : Memory.below f.storage c.capacity = true) : DeviceInv c (resetRegisters c f) where
  sr_reserved := BitVec.zero_and
  clear_reserved := BitVec.zero_and
  clear_busy h := absurd h (by simp [resetRegisters])
  fsr_fixed := rfl
  reading_inside h := PState.noConfusion h
  id_position h := PState.noConfusion h
  register_command h := PState.noConfusion h
  collecting h := PState.noConfusion h
  dirty_writing h := absurd hd h
  dirty_page p h := absurd (hd.symm.trans h) (by simp)
  storage_wf := hw
  storage_below := hb

/-- The memory construction starts from, storage and image alike, is canonical and inside the capacity (20_memory R72). -/
theorem initialMemory_ok {c : Cfg} (h : cfgOk c = true) :
    Memory.wf (if c.hasBacking then c.initialImage else []) = true ∧
      Memory.below (if c.hasBacking then c.initialImage else []) c.capacity = true := by
  cases hb : c.hasBacking
  · exact ⟨memory_wf_nil, rfl⟩
  · simpa [cfgOk, hb] using (Bool.and_eq_true_iff.mp h).2

theorem construct_coreInv {c : Cfg} (h : cfgOk c = true) (hl : c.layoutOk = true) : CoreInv (State.construct c) :=
  have ⟨hw, hb⟩ := initialMemory_ok h
  { config := h
    layout := hl
    host := hostInv_reset c
    device := deviceInv_resetRegisters (f := (State.construct c).f) rfl hw hb
    backing := { image_wf := hw, image_below := hb, queue_ok := fun _ hp => absurd hp List.not_mem_nil } }

theorem construct_linkInv (c : Cfg) : LinkInv (State.construct c) where
  write_selected h := absurd h (Nat.lt_irrefl 0)
  deselected_idle _ := ⟨rfl, rfl, rfl⟩

/-- Nothing is queued after construction, and storage and image start alike. -/
theorem construct_imageFollows (c : Cfg) : ImageFollows (State.construct c) := fun _ _ _ => rfl

/-- Settles O56: each invariant after construction, and the two checks of the default configuration evaluated. -/
theorem constructionMeetsInvariants : Obligations.ConstructionMeetsInvariants :=
  ⟨fun c h => ⟨construct_coreInv h, construct_linkInv c, construct_imageFollows c⟩, rfl, by decide, by decide⟩

end Sys2Proof.Machine
end

section
/-! SUPPORT. The device's and the backing's part of the core invariant (10_state R46 (c) to (e), R38, R41 to R43; 44 R229), and that
every part of a step keeps it. -/

namespace Sys2Proof.Machine

/-! ### Bits of the device's registers (10_state R36 to R38) -/

theorem getLsbD_bitMask (n i : Nat) : (bitMask n).getLsbD i = (decide (i < 8) && decide (n = i)) := by
  rw [bitMask, ← BitVec.twoPow_eq, BitVec.getLsbD_twoPow]
  by_cases h : n = i <;> simp [h]

/-- No bit outside a mask is set, said bit by bit. -/
theorem reserved_iff (x m : Byte) : x &&& ~~~m = 0#8 ↔ ∀ i, x.getLsbD i = true → m.getLsbD i = true := by
  constructor
  · intro h i hi
    have hbit := congrArg (fun y => BitVec.getLsbD y i) h
    have hlt : i < 8 := BitVec.lt_of_getLsbD hi
    simpa [hi, hlt] using hbit
  · intro h
    apply BitVec.eq_of_getLsbD_eq
    intro i hlt
    have hbit := h i
    cases hx : x.getLsbD i <;> simp_all

theorem or_reserved {x y m : Byte} (hx : x &&& ~~~m = 0#8) (hy : y &&& ~~~m = 0#8) : (x ||| y) &&& ~~~m = 0#8 := by
  simp only [reserved_iff, BitVec.getLsbD_or, Bool.or_eq_true] at *
  exact fun i hi => hi.elim (hx i) (hy i)

theorem and_reserved {x m : Byte} (y : Byte) (hx : x &&& ~~~m = 0#8) : (x &&& y) &&& ~~~m = 0#8 := by
  simp only [reserved_iff, BitVec.getLsbD_and, Bool.and_eq_true] at *
  exact fun i hi => hx i hi.1

theorem busy_reserved (b w : Nat) : bitMask b &&& ~~~(bitMask b ||| bitMask w) = 0#8 := by
  simp +contextual [reserved_iff]

theorem wel_reserved (b w : Nat) : bitMask w &&& ~~~(bitMask b ||| bitMask w) = 0#8 := by
  simp +contextual [reserved_iff]

/-! ### The device's part, by what is updated -/

variable {c : Cfg} {f : Flash}

theorem deviceInv_setWel (h : DeviceInv c f) : DeviceInv c (setWel c f) :=
  { h with
    sr_reserved := or_reserved h.sr_reserved (wel_reserved _ _)
    clear_busy := fun hc => by simp [Flash.busy, setWel, show f.sr.getLsbD c.srBusyBit = true from h.clear_busy hc] }

/-- Clearing the latch leaves busy alone, because they are two bits (log 23). -/
theorem deviceInv_clearWel (hl : c.srBusyBit ≠ c.srWelBit) (h : DeviceInv c f) : DeviceInv c (clearWel c f) :=
  { h with
    sr_reserved := and_reserved _ h.sr_reserved
    clear_busy := fun hc => by
      have hb : f.sr.getLsbD c.srBusyBit = true := h.clear_busy hc
      have hlt : c.srBusyBit < 8 := BitVec.lt_of_getLsbD hb
      simp only [Flash.busy, clearWel, BitVec.getLsbD_and, BitVec.getLsbD_not, getLsbD_bitMask]
      simp [hb, hlt, hl.symm] }

theorem deviceInv_setBusy (h : DeviceInv c f) : DeviceInv c (setBusy c f) :=
  { h with
    sr_reserved := or_reserved h.sr_reserved (busy_reserved _ _)
    clear_reserved := or_reserved h.clear_reserved (by simp)
    clear_busy := fun hc => by
      simp only [setBusy, Flash.busy, BitVec.getLsbD_or, Bool.or_eq_true] at *
      exact hc.imp_left h.clear_busy }

theorem deviceInv_postReadClear (h : DeviceInv c f) : DeviceInv c (postReadClear f) :=
  { h with
    sr_reserved := and_reserved _ h.sr_reserved
    clear_reserved := BitVec.zero_and
    clear_busy := fun hc => by simp [postReadClear] at hc }

theorem deviceInv_setSuspended (h : DeviceInv c f) : DeviceInv c (setSuspended c f) :=
  { h with
    fsr_fixed := by
      rw [← h.fsr_fixed]
      apply BitVec.eq_of_getLsbD_eq
      intro i hi
      simp only [setSuspended, BitVec.getLsbD_and, BitVec.getLsbD_or, BitVec.getLsbD_not]
      cases (bitMask c.fsrEsBit).getLsbD i <;> simp }

theorem deviceInv_clearSuspended (h : DeviceInv c f) : DeviceInv c (clearSuspended c f) :=
  { h with
    fsr_fixed := by
      rw [← h.fsr_fixed]
      show f.fsr &&& _ &&& _ = _
      rw [BitVec.and_assoc, BitVec.and_self] }

/-- A page is dirty in Writing only (44 R229). -/
theorem DeviceInv.clean (h : DeviceInv c f) (hp : f.pstate ≠ .writing) : f.dirty = none :=
  Decidable.by_contra fun hd => hp (h.dirty_writing hd)

/-- What a parser state presumes of the other registers when the parser goes to it. -/
def entryOk (c : Cfg) (f : Flash) : PState → Prop
  | .idle | .writing => True
  | .collectingCommandData => f.pos < collectNeed c (flashCmdOf c f.cmd)
  | .reading => f.cur < c.capacity
  | .readingIdentification => f.pos < 3
  | .readingRegister =>
    flashCmdOf c f.cmd = some .rdsr ∨ flashCmdOf c f.cmd = some .rdfsr ∨ flashCmdOf c f.cmd = some .rdcfg

/-- With no dirty page the parser may go to any state whose presumptions are met. -/
theorem deviceInv_enter (p : PState) (h : DeviceInv c f) (hd : f.dirty = none) (he : entryOk c f p) :
    DeviceInv c { f with pstate := p } :=
  { h with
    reading_inside := fun hp => by cases hp; exact he
    id_position := fun hp => by cases hp; exact he
    register_command := fun hp => by cases hp; exact he
    collecting := fun hp => by cases hp; exact he
    dirty_writing := fun hn => absurd hd hn }

/-- In Idle the invariant asks nothing of the registers that only commands use. -/
theorem deviceInv_idle_registers (h : DeviceInv c f) (hp : f.pstate = .idle) (cmd : Byte) (pos : Nat) (acc : Addr24) (cur : Nat)
    (cfgReg : Byte) (armed : Bool) :
    DeviceInv c { f with cmd := cmd, pos := pos, acc := acc, cur := cur, cfgReg := cfgReg, resetArmed := armed } :=
  { h with
    reading_inside := fun hq => PState.noConfusion (hp.symm.trans hq)
    id_position := fun hq => PState.noConfusion (hp.symm.trans hq)
    register_command := fun hq => PState.noConfusion (hp.symm.trans hq)
    collecting := fun hq => PState.noConfusion (hp.symm.trans hq) }

theorem deviceInv_storage {m : Memory} (h : DeviceInv c f) (hw : Memory.wf m = true) (hb : Memory.below m c.capacity = true) :
    DeviceInv c { f with storage := m } :=
  { h with storage_wf := hw, storage_below := hb }

theorem deviceInv_flushed (h : DeviceInv c f) : DeviceInv c { f with dirty := none } :=
  { h with dirty_writing := fun hd => absurd rfl hd, dirty_page := fun p hp => by cases hp }

theorem deviceInv_marked {p : Nat} (h : DeviceInv c f) (hs : f.pstate = .writing) (hp : p < c.capacity / c.pageSize) :
    DeviceInv c { f with dirty := some p } :=
  { h with dirty_writing := fun _ => hs, dirty_page := fun q hq => by cases hq; exact hp }

/-- In Writing the streaming address is without bound (10_state R35). -/
theorem deviceInv_writing_cur (h : DeviceInv c f) (hs : f.pstate = .writing) (n : Nat) : DeviceInv c { f with cur := n } :=
  { h with reading_inside := fun hq => PState.noConfusion (hs.symm.trans hq) }

/-! ### The whole of it over a state -/

/-- Everything of the core invariant but the host controller's part. -/
structure DeviceSide (s : State) : Prop where
  config : cfgOk s.cfg = true
  layout : s.cfg.layoutOk = true
  device : DeviceInv s.cfg s.f
  backing : BackingInv s.cfg s.b

variable {s t : State}

theorem coreInv_iff (s : State) : CoreInv s ↔ DeviceSide s ∧ HostInv s.cfg s.h :=
  ⟨fun h => ⟨⟨h.config, h.layout, h.device, h.backing⟩, h.host⟩,
    fun ⟨d, h⟩ => ⟨d.config, d.layout, h, d.device, d.backing⟩⟩

theorem DeviceSide.shape (h : DeviceSide s) : s.cfg.shapeOk = true := (Bool.and_eq_true_iff.mp h.config).1

theorem DeviceSide.two_bits (h : DeviceSide s) : s.cfg.srBusyBit ≠ s.cfg.srWelBit :=
  of_decide_eq_true (Bool.and_eq_true_iff.mp h.layout).1

theorem DeviceSide.has_address (h : DeviceSide s) : 1 ≤ s.cfg.addrBytes :=
  of_decide_eq_true (Bool.and_eq_true_iff.mp h.layout).2

/-- Only configuration, device and backing matter. -/
theorem DeviceSide.congr (h : DeviceSide s) (hc : t.cfg = s.cfg) (hf : t.f = s.f) (hb : t.b = s.b) : DeviceSide t :=
  ⟨hc ▸ h.config, hc ▸ h.layout, by rw [hc, hf]; exact h.device, by rw [hc, hb]; exact h.backing⟩

/-- Where configuration and backing stay, the device's part is all there is to show. -/
theorem DeviceSide.update (h : DeviceSide s) (hf : DeviceInv s.cfg t.f) (hc : t.cfg = s.cfg := by rfl) (hb : t.b = s.b := by rfl) :
    DeviceSide t :=
  ⟨hc ▸ h.config, hc ▸ h.layout, hc ▸ hf, by rw [hc, hb]; exact h.backing⟩

theorem DeviceSide.setBusy (h : DeviceSide s) {c : Cfg} (hc : s.cfg = c) : DeviceSide (s.mapF (setBusy c)) := by
  subst hc
  exact h.update (deviceInv_setBusy h.device)

theorem DeviceSide.raise (h : DeviceSide s) (d : Diagnostic) : DeviceSide (raise d s) := h.congr rfl rfl rfl

theorem DeviceSide.toPState (p : PState) (h : DeviceSide s) (hd : s.f.dirty = none) (he : entryOk s.cfg s.f p) :
    DeviceSide (toPState p s) := h.update (deviceInv_enter p h.device hd he)

/-! ### Queue and dirty page (44 R228 to R233) -/

/-- A queued copy of a region inside storage is well formed. -/
theorem DeviceSide.writeAsync {off len : Nat} (h : DeviceSide s) (hfit : off + len ≤ s.cfg.capacity) :
    DeviceSide (writeAsync off len s) := by
  cases hb : s.cfg.hasBacking
  · rw [writeAsync_volatile off len s hb]; exact h
  · rw [writeAsync_backing off len s hb]
    refine ⟨h.config, h.layout, h.device, { h.backing with queue_ok := fun p hp => ?_ }⟩
    rcases List.mem_append.mp hp with hp | hp
    · exact h.backing.queue_ok p hp
    · rw [List.mem_singleton.mp hp]
      exact ⟨memory_slice_wf _ _ _ h.device.storage_wf, memory_slice_inside _ _ _, hfit⟩

/-- The dirty page lies inside storage. -/
theorem DeviceSide.dirty_fits {q : Nat} (h : DeviceSide s) (hq : s.f.dirty = some q) :
    q * s.cfg.pageSize + s.cfg.pageSize ≤ s.cfg.capacity := by
  obtain ⟨-, hp, -, -, hdvd, -, -⟩ := shapeOk_sizes h.shape
  exact region_fits hdvd ((Nat.lt_div_iff_mul_lt_of_dvd hp.ne' hdvd).mp (h.device.dirty_page q hq)) (Nat.dvd_mul_left _ _)

theorem DeviceSide.flushDirty (h : DeviceSide s) : DeviceSide (flushDirty s) := by
  rcases hd : s.f.dirty with _ | q
  · rw [flushDirty_clean s hd]; exact h
  · rw [flushDirty_dirty s q hd]
    have hw := h.writeAsync (h.dirty_fits hd)
    exact hw.update (deviceInv_flushed hw.device)

theorem DeviceSide.markDirty {p : Nat} (h : DeviceSide s) (hs : s.f.pstate = .writing) (hp : p < s.cfg.capacity / s.cfg.pageSize) :
    DeviceSide (markDirty p s) := by
  rcases markDirty_cases p s with ⟨-, e⟩ | ⟨q, -, -, e⟩ <;> rw [e]
  · exact h.update (deviceInv_marked h.device hs hp)
  · have hf := h.flushDirty
    have hc : (Machine.flushDirty s).cfg = s.cfg := (deviceOnly_flushDirty (.refl s)).cfg
    exact hf.update (deviceInv_marked hf.device (by rw [flushDirty_f]; exact hs) (by rw [hc]; exact hp))

theorem DeviceSide.deviceDeselect (h : DeviceSide s) : DeviceSide (deviceDeselect s) := by
  have hf := h.flushDirty
  have hd : (Machine.flushDirty s).f.dirty = none := by rw [flushDirty_f]
  exact hf.update (deviceInv_idle_registers (deviceInv_enter .idle hf.device hd trivial) rfl _ 0 0 _ _ _)

theorem DeviceSide.writeBackStep (h : DeviceSide s) : DeviceSide (writeBackStep s) := by
  rcases hq : s.b.queue with _ | ⟨p, q⟩
  · rw [writeBackStep_empty s hq]; exact h
  · rw [writeBackStep_oldest s p q hq]
    obtain ⟨hw, hi, hfit⟩ := h.backing.queue_ok p (by rw [hq]; exact List.mem_cons_self)
    exact ⟨h.config, h.layout, h.device,
      { image_wf := memory_splice_wf _ _ _ _ h.backing.image_wf hw hi
        image_below := memory_splice_below _ _ _ _ _ h.backing.image_below hi hfit
        queue_ok := fun r hr => h.backing.queue_ok r (by rw [hq]; exact List.mem_cons_of_mem p hr) }⟩

/-! ### Idle: opcodes (43 R180 to R199) -/

/-- The arm of every command, met in Idle after the common part of its opcode byte. -/
theorem DeviceSide.armAs {k : FlashCmd} (armed : Bool) (h : DeviceSide s) (hi : s.f.pstate = .idle) (h0 : s.f.pos = 0)
    (hk : flashCmdOf s.cfg s.f.cmd = some k) : DeviceSide (armAs armed s k) := by
  have hd : s.f.dirty = none := h.device.clean (by simp [hi])
  have ha := h.has_address
  have collect (hn : 0 < collectNeed s.cfg (some k)) : DeviceSide (Machine.toPState .collectingCommandData s) :=
    h.toPState _ hd (by rw [← hk, ← h0] at hn; exact hn)
  cases k with
  | rsten => exact h.update (deviceInv_idle_registers h.device hi _ _ _ _ _ true)
  | rst =>
    cases armed
    · exact h.raise _
    · exact h.update (deviceInv_resetRegisters hd h.device.storage_wf h.device.storage_below)
  | wren => exact h.update (deviceInv_setWel h.device)
  | wrdi => exact h.update (deviceInv_clearWel h.two_bits h.device)
  | wrreg => exact collect Nat.one_pos
  | rdsr => exact h.toPState .readingRegister hd (.inl hk)
  | rdfsr => exact h.toPState .readingRegister hd (.inr (.inl hk))
  | rdcfg => exact h.toPState .readingRegister hd (.inr (.inr hk))
  | fread => exact collect (Nat.lt_of_lt_of_le ha (Nat.le_add_right _ _))
  | rdid => exact h.toPState .readingIdentification hd (show s.f.pos < 3 by omega)
  | pp => exact collect ha
  | sse => exact collect ha
  | be => exact collect ha
  | esus => exact h.update (deviceInv_setSuspended h.device)
  | eres => exact h.update (deviceInv_clearSuspended h.device)
  | dslp => exact h
  | wake => exact h
  | qen => exact h

theorem DeviceSide.decodeOpcode (b : Byte) (h : DeviceSide s) (hi : s.f.pstate = .idle) : DeviceSide (decodeOpcode b s) := by
  have hc : DeviceSide (opcodeCommon b s) := h.update (deviceInv_idle_registers h.device hi b 0 0 _ _ false)
  rcases hk : flashCmdOf s.cfg b with _ | k
  · rw [decodeOpcode_unknown s b hk]; exact hc.raise _
  · rw [decodeOpcode_of s b k hk]; exact hc.armAs _ hi rfl hk

/-! ### CollectingCommandData: dispatch (43 R200 to R202) -/

theorem writeAsync_toPState (off len : Nat) (p : PState) (s : State) :
    writeAsync off len (toPState p s) = toPState p (writeAsync off len s) := by
  unfold writeAsync
  cases hb : s.cfg.hasBacking
  · exact if_neg (by simp [toPState, hb])
  · exact if_pos hb

/-- An erase does not look at the parser state. -/
theorem erase_toPState (n : Nat) (p : PState) (s : State) : erase n (toPState p s) = toPState p (erase n s) := by
  rcases erase_cases n s with ⟨hw, e⟩ | ⟨hw, hc, e⟩ | ⟨hw, hc, e⟩ <;> rw [e]
  · exact erase_protected n (toPState p s) hw
  · exact erase_outside n (toPState p s) hw hc
  · rw [erase_inside n (toPState p s) hw hc]
    exact congrArg (fun t => State.mapF t (setBusy s.cfg)) (writeAsync_toPState (alignedBase s.f.acc.toNat n) n p
      (s.mapF (fun f => { f with storage := f.storage.fillErased (alignedBase s.f.acc.toNat n) n })))

/-- A dispatch sets the parser state, whatever it was. -/
theorem dispatchAs_toPState {k : FlashCmd} (p : PState) (s : State)
    (hk : k = .wrreg ∨ k = .pp ∨ k = .fread ∨ k = .sse ∨ k = .be) : dispatchAs (toPState p s) k = dispatchAs s k := by
  rcases hk with rfl | rfl | rfl | rfl | rfl
  · rfl
  · simp only [dispatchAs, dispatchPp]
    show toPState .writing (if s.f.wel s.cfg then _ else _) = toPState .writing (if s.f.wel s.cfg then _ else _)
    split <;> rfl
  · rfl
  · show toPState .idle (erase s.cfg.subsectorSize (toPState p s)) = _
    rw [erase_toPState]; rfl
  · show toPState .idle (erase s.cfg.blockSize (toPState p s)) = _
    rw [erase_toPState]; rfl

theorem DeviceSide.erase {n : Nat} (h : DeviceSide s) (hn : n ∣ s.cfg.capacity) : DeviceSide (erase n s) := by
  rcases erase_cases n s with ⟨-, e⟩ | ⟨-, -, e⟩ | ⟨-, hc, e⟩ <;> rw [e]
  · exact h
  · exact h.raise _
  · have hs : DeviceSide (s.mapF (fun f => { f with storage := f.storage.fillErased (alignedBase s.f.acc.toNat n) n })) :=
      h.update (deviceInv_storage h.device (memory_fillErased_wf _ _ _ h.device.storage_wf)
        (memory_fillErased_below _ _ _ _ h.device.storage_below))
    have hw := hs.writeAsync (region_fits hn hc (alignedBase_dvd _ _))
    exact hw.setBusy (deviceOnly_writeAsync _ _ (.refl _)).cfg

theorem erase_dirty (n : Nat) (s : State) : (erase n s).f.dirty = s.f.dirty := by
  rcases erase_cases n s with ⟨-, e⟩ | ⟨-, -, e⟩ | ⟨-, -, e⟩ <;> rw [e]
  · rfl
  · rw [mapF_f, writeAsync_f]
    rfl

theorem DeviceSide.eraseThenIdle {n : Nat} (h : DeviceSide s) (hd : s.f.dirty = none) (hn : n ∣ s.cfg.capacity) :
    DeviceSide (Machine.toPState .idle (Machine.erase n s)) :=
  (h.erase hn).toPState .idle ((erase_dirty n s).trans hd) trivial

/-- The dispatch of a collecting command, from Idle: it does not matter that the parser was collecting. -/
theorem DeviceSide.dispatchAs {k : FlashCmd} (h : DeviceSide s) (hi : s.f.pstate = .idle)
    (hk : k = .wrreg ∨ k = .pp ∨ k = .fread ∨ k = .sse ∨ k = .be) : DeviceSide (dispatchAs s k) := by
  have hd : s.f.dirty = none := h.device.clean (by simp [hi])
  obtain ⟨hcap, -, -, -, -, hss, hbl⟩ := shapeOk_sizes h.shape
  have withCur (n : Nat) : DeviceSide (s.mapF (fun f => { f with cur := n })) :=
    h.update (deviceInv_idle_registers h.device hi _ _ _ n _ _)
  rcases hk with rfl | rfl | rfl | rfl | rfl
  · have hr : DeviceSide (s.mapF (fun f => { f with cfgReg := f.acc.setWidth 8 })) :=
      h.update (deviceInv_idle_registers h.device hi _ _ _ _ _ _)
    exact hr.toPState .idle hd trivial
  · have hr := withCur s.f.acc.toNat
    simp only [Machine.dispatchAs, dispatchPp]
    split
    · exact (hr.setBusy rfl).toPState .writing hd trivial
    · exact hr.toPState .writing hd trivial
  · exact (withCur _).toPState .reading hd (Nat.mod_lt _ hcap)
  · exact h.eraseThenIdle hd hss
  · exact h.eraseThenIdle hd hbl

/-- Only the five collecting commands need bytes. -/
theorem collecting_of_need {c : Cfg} {k : Option FlashCmd} (h : 0 < collectNeed c k) :
    ∃ j, k = some j ∧ (j = .wrreg ∨ j = .pp ∨ j = .fread ∨ j = .sse ∨ j = .be) := by
  unfold collectNeed at h
  split at h
  · exact ⟨_, rfl, .inl rfl⟩
  · exact ⟨_, rfl, .inr (.inl rfl)⟩
  · exact ⟨_, rfl, .inr (.inr (.inr (.inl rfl)))⟩
  · exact ⟨_, rfl, .inr (.inr (.inr (.inr rfl)))⟩
  · exact ⟨_, rfl, .inr (.inr (.inl rfl))⟩
  · exact absurd h (Nat.lt_irrefl 0)

theorem toPState_self {p : PState} (h : s.f.pstate = p) : toPState p s = s := by
  subst h
  rfl

theorem DeviceSide.collect (b : Byte) (h : DeviceSide s) (hp : s.f.pstate = .collectingCommandData) : DeviceSide (collect b s) := by
  have hd : s.f.dirty = none := h.device.clean (by simp [hp])
  have hlt := h.device.collecting hp
  have hi : DeviceSide (Machine.toPState .idle (collected b s)) :=
    h.update (deviceInv_idle_registers (deviceInv_enter .idle h.device hd trivial) rfl _ (s.f.pos + 1)
      (collectAcc s.cfg b s.f) _ _ _)
  by_cases hn : s.f.pos + 1 = collectNeed s.cfg (flashCmdOf s.cfg s.f.cmd)
  · obtain ⟨k, hk, hc⟩ := collecting_of_need (Nat.zero_lt_of_lt hlt)
    rw [collect_last b s hn, dispatch_of (collected b s) k hk, ← dispatchAs_toPState .idle (collected b s) hc]
    exact hi.dispatchAs rfl hc
  · have back : Machine.toPState .collectingCommandData (Machine.toPState .idle (collected b s)) = collected b s :=
      toPState_self (s := collected b s) hp
    rw [collect_more b s hn, ← back]
    exact hi.toPState .collectingCommandData hd (Nat.lt_of_le_of_ne hlt hn)

/-! ### The streaming states and the register byte (44 R220 to R227) -/

theorem DeviceSide.program {a : Nat} (b : Byte) (h : DeviceSide s) (ha : a < s.cfg.capacity) : DeviceSide (program a b s) := by
  refine h.update ?_ (deviceOnly_program a b (.refl s)).cfg (program_b a b s)
  rw [program_f]
  exact deviceInv_storage h.device (memory_write_wf _ _ _ h.device.storage_wf)
    (memory_write_below _ _ _ _ h.device.storage_below ha)

theorem DeviceSide.programByte (b : Byte) (h : DeviceSide s) (hp : s.f.pstate = .writing) : DeviceSide (programByte b s) := by
  have advance {u : State} (hu : DeviceSide u) (hup : u.f.pstate = .writing) :
      DeviceSide (u.mapF (fun f => { f with cur := f.cur + 1 })) := hu.update (deviceInv_writing_cur hu.device hup _)
  rcases programByte_cases b s with ⟨-, e⟩ | ⟨-, -, e⟩ | ⟨-, hc, e⟩ <;> rw [e]
  · exact advance h hp
  · exact advance (h.raise _) hp
  · obtain ⟨-, -, -, -, hpage, -, -⟩ := shapeOk_sizes h.shape
    have hcfg : (Machine.program s.f.cur b s).cfg = s.cfg := (deviceOnly_program _ b (.refl s)).cfg
    have hw : (Machine.program s.f.cur b s).f.pstate = .writing := by rw [program_f]; exact hp
    refine advance ((h.program b hc).markDirty hw ?_) (by rw [markDirty_f]; exact hw)
    rw [hcfg]
    exact Nat.div_lt_div_of_lt_of_dvd hpage hc

theorem DeviceSide.readByte (h : DeviceSide s) : DeviceSide (readByte s).2 :=
  h.update { h.device with reading_inside := fun _ => Nat.mod_lt _ (shapeOk_sizes h.shape).1 }

theorem DeviceSide.idByte (h : DeviceSide s) (hp : s.f.pstate = .readingIdentification) : DeviceSide (idByte s).2 := by
  have hd : s.f.dirty = none := h.device.clean (by simp [hp])
  have hlt := h.device.id_position hp
  have hi := deviceInv_idle_registers (deviceInv_enter .idle h.device hd trivial) rfl s.f.cmd (s.f.pos + 1) s.f.acc s.f.cur
    s.f.cfgReg s.f.resetArmed
  refine h.update (deviceInv_enter (if s.f.pos + 1 = 3 then .idle else s.f.pstate) hi hd ?_)
  split
  · trivial
  · rw [hp]
    show s.f.pos + 1 < 3
    omega

/-- All a register byte does to the state: the parser goes to Idle, after the post-read clear where the status register was read. -/
theorem registerByte_cases (s : State) :
    (registerByte s).2 = toPState .idle s ∨ (registerByte s).2 = toPState .idle (s.mapF postReadClear) := by
  unfold registerByte
  split
  · exact .inr rfl
  · exact .inl rfl
  · exact .inl rfl
  · exact .inl rfl

theorem DeviceSide.registerByte (h : DeviceSide s) (hp : s.f.pstate = .readingRegister) : DeviceSide (registerByte s).2 := by
  have hd : s.f.dirty = none := h.device.clean (by simp [hp])
  rcases registerByte_cases s with e | e <;> rw [e]
  · exact h.toPState .idle hd trivial
  · exact (h.update (deviceInv_postReadClear h.device)).toPState .idle hd trivial

/-! ### One exchange, chip-select, platform actions -/

theorem DeviceSide.xfer (b : Byte) (h : DeviceSide s) : DeviceSide (xfer b s).2 := by
  cases hp : s.f.pstate
  case idle => rw [xfer_idle b s hp]; exact (h.decodeOpcode b hp).congr rfl rfl rfl
  case collectingCommandData => rw [xfer_collecting b s hp]; exact (h.collect b hp).congr rfl rfl rfl
  case writing => rw [xfer_writing b s hp]; exact (h.programByte b hp).congr rfl rfl rfl
  case reading => rw [xfer_reading b s hp]; exact h.readByte.congr rfl rfl rfl
  case readingIdentification => rw [xfer_identification b s hp]; exact (h.idByte hp).congr rfl rfl rfl
  case readingRegister => rw [xfer_register b s hp]; exact (h.registerByte hp).congr rfl rfl rfl

theorem DeviceSide.setCS (level : Bool) (h : DeviceSide s) : DeviceSide (setCS level s) := by
  have ht : DeviceSide (traced level s) := h.congr rfl rfl rfl
  cases level
  · exact ht.deviceDeselect.congr rfl rfl rfl
  · exact ht.congr rfl rfl rfl

theorem DeviceSide.systemReset (h : DeviceSide s) : DeviceSide (systemReset s) := by
  have hs := h.setCS false
  have hd : (Machine.setCS false s).f.dirty = none := by rw [setCS_false_flash]
  refine hs.update ?_
  show DeviceInv (Machine.setCS false s).cfg (resetRegisters s.cfg (Machine.setCS false s).f)
  rw [← setCS_cfg false s]
  exact deviceInv_resetRegisters hd hs.device.storage_wf hs.device.storage_below

/-- Every part of a step keeps the device's and the backing's part of the invariant. -/
theorem deviceSide_closed : Closed DeviceSide where
  inbox _ _ h := h.congr rfl rfl rfl
  host _ _ h := h.congr rfl rfl rfl
  raised _ d h := h.raise d
  value _ _ _ h := h.congr rfl rfl rfl
  exchange _ b h := h.xfer b
  select _ level h := h.setCS level
  reset _ h := h.systemReset
  snapshot _ h := h.flushDirty
  drain _ h := h.writeBackStep

end Sys2Proof.Machine
end

section
/-! SUPPORT. What every step keeps (10_state R46): the host controller's and the link's invariants over register operations and
transactions, and the statements O57 and O58. -/

namespace Sys2Proof.Machine

/-! ### The host controller's part, by what is updated -/

variable {c : Cfg} {h : HostCtl}

/-- An idle host has an empty FIFO and nothing outstanding. -/
theorem HostInv.idle (hi : HostInv c h) (hb : h.busy = false) : h.fifo = [] ∧ h.txLeft = 0 := by
  constructor
  · by_contra hf
    exact absurd ((hi.fifo_open hf).1.symm.trans hb) (by simp)
  · by_contra ht
    exact absurd ((hi.write_open (Nat.pos_of_ne_zero ht)).1.symm.trans hb) (by simp)

/-- An open indirect write leaves nothing in the FIFO. -/
theorem HostInv.fifo_of_write (hi : HostInv c h) (ht : 0 < h.txLeft) : h.fifo = [] := by
  by_contra hf
  exact absurd (hi.fifo_open hf).2.1 (Nat.ne_of_gt ht)

/-- A host in an indirect write with nothing outstanding is idle: a busy one would have one of the two open (70 R303). -/
theorem HostInv.idle_of_write_done (hi : HostInv c h) (hm : functionalMode c h.ccr = .indirectWrite) (ht : h.txLeft = 0) :
    h.busy = false := by
  by_contra hb
  rcases hi.busy_open (by simpa using hb) with hf | hp
  · exact absurd (hm.symm.trans (hi.fifo_open hf).2.2) (by simp)
  · omega

/-- A host whose transaction is over, whatever flags it raised: an abort, a completion, the end of a polling loop. -/
theorem hostInv_settled (hi : HostInv c h) {fifo : List Byte} {tx : Nat} (hf : fifo = []) (ht : tx = 0) (tcf smf tof : Bool) :
    HostInv c { h with tcf := tcf, smf := smf, tof := tof, busy := false, fifo := fifo, txLeft := tx } :=
  { hi with
    fifo_open := fun hn => absurd hf hn
    write_open := fun hp => absurd ht (Nat.ne_of_gt hp)
    busy_open := fun hb => Bool.noConfusion hb
    tx_bound := ht ▸ Nat.zero_le _ }

/-- The latches and the flags but transfer-error are free. -/
theorem hostInv_flags (hi : HostInv c h) (en apms pmm tef tcf smf tof : Bool) (he : tef = false) :
    HostInv c { h with en := en, apms := apms, pmm := pmm, tef := tef, tcf := tcf, smf := smf, tof := tof } :=
  { hi with no_error := he }

/-- The configuration registers of an idle host may take any value of their width. -/
theorem hostInv_configured (hi : HostInv c h) (hb : h.busy = false) {dlr ccr ar psmkr psmar pir : Word}
    (hc : ccr &&& ~~~ccrMask c = 0#32) (hd : dlr.toNat < 2 ^ c.dlrBits) (hp : pir.toNat < 2 ^ c.pirBits) :
    HostInv c { h with dlr := dlr, ccr := ccr, ar := ar, psmkr := psmkr, psmar := psmar, pir := pir } :=
  { hi with
    fifo_open := fun hf => absurd (hi.idle hb).1 hf
    write_open := fun ht => absurd (hi.idle hb).2 (Nat.ne_of_gt ht)
    ccr_reserved := hc
    dlr_width := hd
    pir_width := hp }

/-- An idle host opens an indirect write (42 R155). -/
theorem hostInv_open_write (hi : HostInv c h) (hb : h.busy = false) (hm : functionalMode c h.ccr = .indirectWrite) :
    HostInv c { h with busy := true, txLeft := dataLength h.dlr } :=
  { hi with
    fifo_open := fun hf => absurd (hi.idle hb).1 hf
    write_open := fun _ => ⟨rfl, hm⟩
    busy_open := fun _ => .inr (Nat.succ_pos _)
    tx_bound := h.dlr.isLt }

/-- An idle host has received the bytes of an indirect read (42 R156). -/
theorem hostInv_received (hi : HostInv c h) (hb : h.busy = false) (hm : functionalMode c h.ccr = .indirectRead) {bs : List Byte}
    (hbs : bs ≠ []) : HostInv c { h with busy := true, fifo := bs } :=
  { hi with
    fifo_open := fun _ => ⟨rfl, (hi.idle hb).2, hm⟩
    write_open := fun ht => absurd (hi.idle hb).2 (Nat.ne_of_gt ht)
    busy_open := fun _ => .inl hbs }

/-- One data byte of several has been sent (42 R161). -/
theorem hostInv_sent (hi : HostInv c h) (ht : 1 < h.txLeft) : HostInv c { h with txLeft := h.txLeft - 1 } := by
  have hp : 0 < h.txLeft := by omega
  obtain ⟨hb, hm⟩ := hi.write_open hp
  exact { hi with
    fifo_open := fun hf => absurd (hi.fifo_of_write hp) hf
    write_open := fun _ => ⟨hb, hm⟩
    busy_open := fun _ => .inr (Nat.sub_pos_of_lt ht)
    tx_bound := (Nat.sub_le _ _).trans hi.tx_bound }

/-- One byte of several has been popped (41 R135). -/
theorem hostInv_popped (hi : HostInv c h) {b : Byte} {bs : List Byte} (hf : h.fifo = b :: bs) (hbs : bs ≠ []) :
    HostInv c { h with fifo := bs } :=
  have hopen := hi.fifo_open (by rw [hf]; exact List.cons_ne_nil b bs)
  { hi with fifo_open := fun _ => hopen, busy_open := fun _ => .inl hbs }

/-- A field of `n` bits is below `2 ^ n`. -/
theorem fieldWord_lt (v : Word) (lo n : Nat) : (fieldWord v lo n).toNat < 2 ^ n := by
  rw [fieldWord, BitVec.toNat_ofNat]
  exact (Nat.mod_le _ _).trans_lt (Nat.mod_lt _ (Nat.two_pow_pos n))

/-- What is latched into CCR has no reserved bit. -/
theorem ccrLatch_reserved (c : Cfg) (v : Word) : ccrLatch c v &&& ~~~ccrMask c = 0#32 := by
  rw [ccrLatch, BitVec.and_assoc, BitVec.and_not_self]
  exact BitVec.and_zero

/-! ### From state to state -/

/-- The host controller's invariant goes over from one state to the other, and with it the link's. -/
structure Carries (s t : State) : Prop where
  host : HostInv s.cfg s.h → HostInv t.cfg t.h
  link : HostInv s.cfg s.h → LinkInv s → LinkInv t

variable {s t u : State}

theorem Carries.refl (s : State) : Carries s s := ⟨id, fun _ => id⟩

theorem Carries.trans (a : Carries s t) (b : Carries t u) : Carries s u :=
  ⟨fun h => b.host (a.host h), fun h l => b.link (a.host h) (a.link h l)⟩

/-- What the invariants look at is the same. -/
theorem carries_same (hc : t.cfg = s.cfg := by rfl) (hh : t.h = s.h := by rfl) (hl : t.l.cs = s.l.cs := by rfl)
    (hf : t.f = s.f := by rfl) : Carries s t where
  host h := by rw [hc, hh]; exact h
  link _ l := ⟨by rw [hh, hl]; exact l.write_selected, by rw [hl, hf]; exact l.deselected_idle⟩

theorem carries_raise (d : Diagnostic) (s : State) : Carries s (raise d s) := carries_same

theorem carries_returning (v : Nat) (s : State) : Carries s (s.returning v) := carries_same

theorem carries_withInbox (is : List Input) (s : State) : Carries s (s.withInbox is) := carries_same

/-- With the device selected the link's invariant asks nothing of the device. -/
theorem carries_selected (hc : t.cfg = s.cfg) (hh : t.h = s.h) (hl : t.l.cs = true) : Carries s t where
  host h := by rw [hc, hh]; exact h
  link _ _ := ⟨fun _ => hl, fun hn => absurd (hl.symm.trans hn) (by simp)⟩

/-- An update of the host controller that opens no write. -/
theorem carries_mapH (g : HostCtl → HostCtl) (hg : HostInv s.cfg s.h → HostInv s.cfg (g s.h))
    (ht : HostInv s.cfg s.h → 0 < (g s.h).txLeft → 0 < s.h.txLeft) : Carries s (s.mapH g) where
  host := hg
  link h l := ⟨fun hp => l.write_selected (ht h hp), l.deselected_idle⟩

/-- A deselected device is in Idle with position and accumulator cleared (44 R228). -/
theorem setCS_false_linkInv (s : State) (ht : s.h.txLeft = 0) : LinkInv (setCS false s) where
  write_selected hp := absurd ht (by rw [setCS_h] at hp; omega)
  deselected_idle _ := by rw [setCS_false_flash]; exact ⟨rfl, rfl, rfl⟩

/-- A transaction that is over releases chip-select: the host controller's invariant is all there is to show. -/
theorem carries_released (g : HostCtl → HostCtl) (hc : u.cfg = s.cfg)
    (hg : HostInv s.cfg s.h → HostInv s.cfg (g u.h) ∧ (g u.h).txLeft = 0) : Carries s ((setCS false u).mapH g) where
  host h := by
    rw [mapH_cfg, mapH_h, setCS_cfg, setCS_h, hc]
    exact (hg h).1
  link h _ := by
    have ht : ((setCS false u).mapH g).h.txLeft = 0 := by rw [mapH_h, setCS_h]; exact (hg h).2
    have hi : LinkInv (setCS false (u.mapH g)) := setCS_false_linkInv _ (hg h).2
    rw [setCS_mapH] at hi
    exact hi

/-! ### Transactions (42 R152 to R163) -/

/-- A host that was idle is idle again, and has raised flags. -/
theorem hostInv_idle_again (hi : HostInv c h) (hb : h.busy = false) (tcf smf tof : Bool) :
    HostInv c { h with tcf := tcf, smf := smf, tof := tof, busy := false } ∧ h.txLeft = 0 :=
  have ⟨hf, ht⟩ := hi.idle hb
  ⟨hostInv_settled hi hf ht tcf smf tof, ht⟩

theorem carries_endWithoutData (hb : s.h.busy = false) : Carries s (endWithoutData (header s)) := by
  rw [endWithoutData_header]
  exact carries_released (fun _ => { s.h with tcf := true, busy := false }) ((xferAll_cfg _ _).trans (setCS_cfg true s))
    (fun hi => hostInv_idle_again hi hb true s.h.smf s.h.tof)

theorem carries_autoPoll (hb : s.h.busy = false) : Carries s (autoPoll (header s)) := by
  refine carries_released (fun h => { h with busy := false }) ((kept_pollLoop _ _).cfg.trans (header_cfg s)) fun hi => ?_
  rcases pollLoop_h (pollBudget (header s).cfg (header s).h.pir - 1) (header s) with e | e <;> rw [e, header_h]
  · exact hostInv_idle_again hi hb s.h.tcf true s.h.tof
  · exact hostInv_idle_again hi hb s.h.tcf s.h.smf true

theorem carries_openWrite (hb : s.h.busy = false) (hm : functionalMode s.cfg s.h.ccr = .indirectWrite) :
    Carries s (openWrite (header s)) := by
  have hcs : (openWrite (header s)).l.cs = true := header_cs s
  refine ⟨fun hi => ?_, fun _ _ => ⟨fun _ => hcs, fun hn => absurd (hcs.symm.trans hn) (by simp)⟩⟩
  rw [openWrite, mapH_cfg, mapH_h, header_cfg, header_h]
  exact hostInv_open_write (h := s.h) hi hb hm

theorem carries_readBurst (hb : s.h.busy = false) (hm : functionalMode s.cfg s.h.ccr = .indirectRead) :
    Carries s (readBurst (header s)) := by
  have received (hi : HostInv s.cfg s.h) : HostInv s.cfg (readBurst (header s)).h ∧ (readBurst (header s)).h.txLeft = 0 := by
    rw [readBurst_header s (hi.idle hb).1]
    refine ⟨hostInv_received hi hb hm fun hn => ?_, (hi.idle hb).2⟩
    simpa [dataLength] using congrArg List.length hn
  have hcfg : (readBurst (header s)).cfg = s.cfg := by simp [readBurst, burst_eq]
  refine ⟨fun hi => hcfg.symm ▸ (received hi).1, fun hi _ => setCS_false_linkInv _ ?_⟩
  have ht := (received hi).2
  rwa [readBurst, setCS_h] at ht

/-- A transaction of an idle host, whatever its mode: memory-mapped starts none. -/
theorem carries_execute (hb : s.h.busy = false) (hm : functionalMode s.cfg s.h.ccr ≠ .memoryMapped) : Carries s (execute s).2 := by
  cases ha : alternateBytes s.cfg s.h.ccr
  case true => rw [execute_refused s ha]; exact carries_raise _ s
  case false =>
    cases hmode : functionalMode s.cfg s.h.ccr
    case memoryMapped => exact absurd hmode hm
    case autoPolling => rw [execute_poll s ha hmode]; exact carries_autoPoll hb
    case indirectWrite =>
      cases hd : dataPhasePresent s.cfg s.h.ccr
      · rw [execute_without_data s ha hd (.inl hmode)]; exact carries_endWithoutData hb
      · rw [execute_write s ha hd hmode]; exact carries_openWrite hb hmode
    case indirectRead =>
      cases hd : dataPhasePresent s.cfg s.h.ccr
      · rw [execute_without_data s ha hd (.inr hmode)]; exact carries_endWithoutData hb
      · rw [execute_read s ha hd hmode]; exact carries_readBurst hb hmode

/-- A byte sent into an open indirect write (42 R161). -/
theorem carries_sendDataByte (b : Byte) (ht : 0 < s.h.txLeft) : Carries s (sendDataByte b s) := by
  by_cases h1 : s.h.txLeft = 1
  · rw [sendDataByte_last b s h1]
    refine carries_released _ (xfer_cfg b s) fun hi => ?_
    rw [xfer_h]
    exact ⟨hostInv_settled hi (hi.fifo_of_write ht) rfl true _ _, rfl⟩
  · rw [sendDataByte_more b s (by omega)]
    refine ⟨fun hi => ?_, fun _ l => ?_⟩
    · rw [mapH_cfg, mapH_h, xfer_cfg, xfer_h]
      exact hostInv_sent hi (by omega)
    · have hcs : (xfer b s).2.l.cs = true := (xfer_cs b s).trans (l.write_selected ht)
      exact ⟨fun _ => hcs, fun hn => absurd (hcs.symm.trans hn) (by simp)⟩

/-! ### Register operations (41 R120 to R139) -/

theorem carries_refusedAccess (a : Access) (w : Nat) (s : State) : Carries s (refusedAccess a w s) := by
  cases a
  · exact carries_same
  · exact .refl s

theorem carries_reservedAccess (a : Access) (off w : Nat) (s : State) : Carries s (reservedAccess a off w s) :=
  (carries_raise _ s).trans (carries_refusedAccess a w _)

theorem carries_mmapAccess (a : BusAccess) (s : State) : Carries s (mmapAccess a s) :=
  (carries_raise _ s).trans (carries_refusedAccess a.acc a.width _)

theorem carries_regRead (r : Reg) (w : Nat) {body : State → State} (hb : Carries s (body s)) : Carries s (regRead r w body s) := by
  rcases regRead_cases r w body s with ⟨-, e⟩ | ⟨-, e⟩ <;> rw [e]
  · exact carries_same
  · exact hb

/-- A register write runs its rule with the host idle, where the register is locked while it is busy. -/
theorem carries_regWrite (r : Reg) (w : Nat) {body : State → State}
    (hb : (lockedByBusy r = true → s.h.busy = false) → Carries s (body s)) : Carries s (regWrite r w body s) := by
  rcases regWrite_cases r w body s with ⟨-, e⟩ | ⟨-, -, -, e⟩ | ⟨-, hl, e⟩ <;> rw [e]
  · exact carries_same
  · exact carries_same
  · exact hb hl

/-- A configuration register of an idle host is latched. -/
theorem carries_configured (hb : s.h.busy = false) (g : HostCtl → HostCtl) {dlr ccr ar psmkr psmar pir : Word}
    (hg : g s.h = { s.h with dlr := dlr, ccr := ccr, ar := ar, psmkr := psmkr, psmar := psmar, pir := pir })
    (hc : HostInv s.cfg s.h → ccr &&& ~~~ccrMask s.cfg = 0#32) (hd : HostInv s.cfg s.h → dlr.toNat < 2 ^ s.cfg.dlrBits)
    (hp : HostInv s.cfg s.h → pir.toNat < 2 ^ s.cfg.pirBits) : Carries s (s.mapH g) :=
  carries_mapH g (fun hi => by rw [hg]; exact hostInv_configured hi hb (hc hi) (hd hi) (hp hi)) (fun _ ht => by rw [hg] at ht; exact ht)

/-- A Control write sets the latches; with the abort bit it ends the transaction (41 R121, R122). -/
theorem carries_control (v : Word) (s : State) :
    Carries s ((s.mapH (crLatch s.cfg v)).mapH (fun h => if crAborts s.cfg v then abort h else h)) := by
  have latched (hi : HostInv s.cfg s.h) : HostInv s.cfg (crLatch s.cfg v s.h) := hostInv_flags hi _ _ _ _ _ _ _ hi.no_error
  rw [mapH_mapH]
  refine carries_mapH _ (fun hi => ?_) (fun _ ht => ?_)
  · split
    · exact hostInv_settled (latched hi) rfl rfl true _ _
    · exact latched hi
  · split at ht
    · exact absurd ht (Nat.lt_irrefl 0)
    · exact ht

theorem carries_clearFlags (v : Word) (s : State) : Carries s (s.mapH (clearFlags s.cfg v)) :=
  carries_mapH _ (fun hi => hostInv_flags hi _ _ _ _ _ _ _ (by rw [hi.no_error]; rfl)) (fun _ ht => ht)

theorem carries_afterCcrWrite (hb : s.h.busy = false) : Carries s (afterCcrWrite s) := by
  unfold afterCcrWrite
  split
  case h_1 ht =>
    refine carries_execute hb ?_
    rcases (trigger_onCCR ht).2 with hm | ⟨hm, -⟩
    · simp [hm]
    · exact hm
  case h_4 => exact carries_same
  all_goals exact .refl s

theorem carries_afterArWrite (hb : s.h.busy = false) : Carries s (afterArWrite s) := by
  unfold afterArWrite
  split
  case h_1 ht => exact carries_execute hb (trigger_onAR ht).2.1
  case h_4 => exact carries_same
  all_goals exact .refl s

theorem carries_dataWrite (b : Byte) (hi : HostInv s.cfg s.h) : Carries s (dataWrite b s) := by
  by_cases hm : functionalMode s.cfg s.h.ccr = .indirectWrite
  · by_cases ht : s.h.txLeft = 0
    · have hb := hi.idle_of_write_done hm ht
      by_cases hd : startTrigger s.cfg s.h.ccr = .onDR
      · have hx := carries_execute hb (by simp [hm])
        cases ha : alternateBytes s.cfg s.h.ccr
        · rw [execute_write s ha (trigger_onDR hd).2.2 hm] at hx
          rw [dataWrite_starts b s hd ht ha]
          exact hx.trans (carries_sendDataByte b (Nat.succ_pos _))
        · have e : dataWrite b s = (execute s).2 := by
            unfold dataWrite
            rw [if_neg (by simp [hm]), if_pos ht, if_neg (by simp [hd]), if_neg (by rw [execute_refused s ha]; simp)]
          rw [e]
          exact hx
      · unfold dataWrite
        rw [if_neg (by simp [hm]), if_pos ht, if_pos hd]
        exact carries_same
    · rw [dataWrite_open b s hm (Nat.pos_of_ne_zero ht)]
      exact carries_sendDataByte b (Nat.pos_of_ne_zero ht)
  · unfold dataWrite
    rw [if_pos hm]
    exact carries_same

theorem carries_dataRead (s : State) : Carries s (dataRead s) := by
  unfold dataRead
  split
  case h_1 => exact carries_same
  case h_2 b bs hf =>
    refine (carries_mapH _ (fun hi => ?_) (fun _ ht => ?_)).trans (carries_returning _ _)
    · have ht : s.h.txLeft = 0 := (hi.fifo_open (by rw [hf]; exact List.cons_ne_nil b bs)).2.1
      split
      · next hbs => exact hostInv_settled hi hbs ht true _ _
      · next hbs => exact hostInv_popped hi hf hbs
    · split at ht <;> exact ht

theorem carries_exchange (bs : List Byte) (e : exchange bs s = .next t) : Carries s t := by
  cases hcs : s.l.cs
  · rw [exchange_deselected bs s hcs] at e
    cases e
  · rw [exchange_selected bs s hcs] at e
    cases e
    exact carries_selected (xferAll_cfg bs s) (xferAll_h bs s) ((xferAll_cs bs s).trans hcs)

/-- Every instruction that goes on. -/
theorem carries_exec (i : Instr) (hi : HostInv s.cfg s.h) (e : exec i s = .next t) : Carries s t := by
  cases i
  case w32Cr w v => cases e; exact carries_regWrite _ _ fun _ => carries_control v s
  case w32Sr w v => cases e; exact carries_regWrite _ _ fun _ => carries_same
  case w32Fcr w v => cases e; exact carries_regWrite _ _ fun _ => carries_clearFlags v s
  case w32Dlr w v =>
    cases e
    exact carries_regWrite _ _ fun hl => carries_configured (hl rfl) _ rfl HostInv.ccr_reserved (fun _ => fieldWord_lt _ _ _)
      HostInv.pir_width
  case w32Ccr w v =>
    cases e
    exact carries_regWrite _ _ fun hl => (carries_configured (hl rfl) _ rfl (fun _ => ccrLatch_reserved _ v) HostInv.dlr_width
      HostInv.pir_width).trans (carries_afterCcrWrite (hl rfl))
  case w32Ar w v =>
    cases e
    exact carries_regWrite _ _ fun hl => (carries_configured (hl rfl) _ rfl HostInv.ccr_reserved HostInv.dlr_width
      HostInv.pir_width).trans (carries_afterArWrite (hl rfl))
  case w8Dr w v =>
    rw [(execW8Dr_next e).2]
    exact carries_regWrite _ _ fun _ => carries_dataWrite _ hi
  case w32Psmkr w v =>
    cases e
    exact carries_regWrite _ _ fun hl => carries_configured (hl rfl) _ rfl HostInv.ccr_reserved HostInv.dlr_width HostInv.pir_width
  case w32Psmar w v =>
    cases e
    exact carries_regWrite _ _ fun hl => carries_configured (hl rfl) _ rfl HostInv.ccr_reserved HostInv.dlr_width HostInv.pir_width
  case w32Pir w v =>
    cases e
    exact carries_regWrite _ _ fun hl => carries_configured (hl rfl) _ rfl HostInv.ccr_reserved HostInv.dlr_width
      (fun _ => fieldWord_lt _ _ _)
  case r8Dr w => cases e; exact carries_regRead _ _ (carries_dataRead s)
  case r32Cr w => cases e; exact carries_regRead _ _ carries_same
  case r32Sr w => cases e; exact carries_regRead _ _ carries_same
  case r32Fcr w => cases e; exact carries_regRead _ _ carries_same
  case r32Dlr w => cases e; exact carries_regRead _ _ carries_same
  case r32Ccr w => cases e; exact carries_regRead _ _ carries_same
  case r32Ar w => cases e; exact carries_regRead _ _ carries_same
  case r32Psmkr w => cases e; exact carries_regRead _ _ carries_same
  case r32Psmar w => cases e; exact carries_regRead _ _ carries_same
  case r32Pir w => cases e; exact carries_regRead _ _ carries_same
  case reserved04 a off w => cases e; exact carries_reservedAccess a off w s
  case reserved1C a off w => cases e; exact carries_reservedAccess a off w s
  case reserved30 a off w => cases e; exact carries_reservedAccess a off w s
  all_goals exact carries_exchange _ e

/-! ### Steps -/

theorem carries_snapshot (s : State) : Carries s (beforeSnapshot s) := by
  have d := deviceOnly_flushDirty (.refl s)
  refine ⟨fun hi => by rw [beforeSnapshot, d.cfg, d.h]; exact hi, fun _ l => ⟨?_, ?_⟩⟩
  · rw [beforeSnapshot, d.h, d.l]; exact l.write_selected
  · rw [beforeSnapshot, d.l, flushDirty_f]; exact l.deselected_idle

theorem carries_writeBackStep (s : State) : Carries s (writeBackStep s) := by
  unfold writeBackStep
  split <;> exact carries_same

theorem carries_systemReset (s : State) : Carries s (systemReset s) where
  host _ := hostInv_reset _
  link _ _ := ⟨fun ht => absurd ht (Nat.lt_irrefl 0), fun _ => ⟨rfl, rfl, rfl⟩⟩

/-- A deassertion into an open indirect write is the one input that breaks the link's invariant; the host controller's survives
that too. -/
theorem step_carries (hi : HostInv s.cfg s.h) (e : step s = .next t) :
    HostInv t.cfg t.h ∧ (deselectAllowed s → LinkInv s → LinkInv t) := by
  have whole (c : Carries s t) : HostInv t.cfg t.h ∧ (deselectAllowed s → LinkInv s → LinkInv t) :=
    ⟨c.host hi, fun _ => c.link hi⟩
  cases step_shape e
  case idle h => rw [h]; exact ⟨hi, fun _ => id⟩
  case ran i is h => exact whole ((carries_withInbox is s).trans (carries_exec i hi h))
  case byte b is h => exact whole ((carries_withInbox is s).trans (carries_exchange [b] h))
  case window a is h => rw [h] at whole ⊢; exact whole ((carries_withInbox is s).trans (carries_mmapAccess a _))
  case taken is h => rw [h] at whole ⊢; exact whole (carries_withInbox is s)
  case reset is h => rw [h] at whole ⊢; exact whole ((carries_withInbox is s).trans (carries_systemReset _))
  case snapshot is h => rw [h] at whole ⊢; exact whole ((carries_withInbox is s).trans (carries_snapshot _))
  case drained is h => rw [h] at whole ⊢; exact whole ((carries_withInbox is s).trans (carries_writeBackStep _))
  case selected level is hin h =>
    rw [h] at whole ⊢
    cases level
    · exact ⟨by rw [setCS_cfg, setCS_h]; exact hi, fun ha _ => setCS_false_linkInv _ (ha is hin)⟩
    · exact whole (carries_selected (setCS_cfg _ _) (setCS_h _ _) (setCS_cs _ _))

/-- Settles O57: the device's and the backing's part by what a step is made of, the host controller's part by instruction. -/
theorem stepKeepsCoreInvariant : Obligations.StepKeepsCoreInvariant := by
  intro s t hs e
  obtain ⟨hd, hh⟩ := (coreInv_iff s).mp hs
  exact (coreInv_iff t).mpr ⟨deviceSide_closed.step hd e, (step_carries hh e).1⟩

/-- Settles O58: the link's invariant goes over with the host controller's. -/
theorem stepKeepsLinkInvariant : Obligations.StepKeepsLinkInvariant :=
  fun _ _ hs hl ha e => (step_carries hs.host e).2 ha hl

end Sys2Proof.Machine
end

section
/-! SUPPORT. The configuration is constant and the logs only grow, O60 (10_state R44, R48; 40 R116). -/

namespace Sys2Proof.Machine

variable {s t u : State}

/-- The configuration is as at the start `s`, and both logs extend those of the start. -/
def LogsExtend (s t : State) : Prop := t.cfg = s.cfg ∧ s.diag <+: t.diag ∧ s.l.trace <+: t.l.trace

theorem LogsExtend.kept (h : LogsExtend s t) (k : Kept t u) : LogsExtend s u :=
  ⟨k.cfg.trans h.1, h.2.1.trans k.diag, h.2.2.trans k.trace⟩

theorem logsExtend_closed (s : State) : Closed (LogsExtend s) where
  inbox _ _ h := h
  host _ _ h := h
  raised t d h := h.kept (kept_raise d t)
  value _ _ _ h := h
  exchange t b h := h.kept (kept_xfer b t)
  select t level h := h.kept (kept_setCS level t)
  reset t h := (h.kept (kept_setCS false t) : LogsExtend s (setCS false t))
  snapshot t h := by
    have d := deviceOnly_flushDirty (.refl t)
    exact h.kept ⟨d.cfg, d.inbox, d.rdata, d.draws, d.diag, by rw [beforeSnapshot, d.l]⟩
  drain t h := by
    unfold writeBackStep
    split <;> exact h

/-- Settles O60: every part of a step extends the logs. -/
theorem stepOnlyAppendsLogs : Obligations.StepOnlyAppendsLogs :=
  fun s _ => (logsExtend_closed s).step ⟨rfl, List.prefix_refl _, List.prefix_refl _⟩

end Sys2Proof.Machine
end

section
/-! SUPPORT. What can change storage, and the statements O48 and O49 (10_state R46 (g); 44 R220 to R222; 43 R202). -/

namespace Sys2Proof.Machine

variable {s t u : State}

/-! ### The latch protects -/

/-- No status bit is set; configuration, storage, dirty page and backing are the same. -/
structure Untouched (s t : State) : Prop where
  cfg : t.cfg = s.cfg
  storage : t.f.storage = s.f.storage
  dirty : t.f.dirty = s.f.dirty
  backing : t.b = s.b
  status : ∀ n, t.f.sr.getLsbD n = true → s.f.sr.getLsbD n = true

theorem Untouched.refl (s : State) : Untouched s s := ⟨rfl, rfl, rfl, rfl, fun _ => id⟩

theorem Untouched.trans (a : Untouched s t) (b : Untouched t u) : Untouched s u :=
  ⟨b.cfg.trans a.cfg, b.storage.trans a.storage, b.dirty.trans a.dirty, b.backing.trans a.backing,
    fun n h => a.status n (b.status n h)⟩

/-- A latch that is clear stays clear. -/
theorem Untouched.latch (h : Untouched s t) (hw : s.f.sr.getLsbD s.cfg.srWelBit = false) : t.f.sr.getLsbD t.cfg.srWelBit = false := by
  rw [h.cfg]
  by_contra hn
  exact absurd (hw.symm.trans (h.status _ (by simpa using hn))) (by simp)

/-- The status register, storage and the dirty page are as they were. -/
theorem untouched_same (hsr : t.f.sr = s.f.sr := by rfl) (hm : t.f.storage = s.f.storage := by rfl)
    (hd : t.f.dirty = s.f.dirty := by rfl) (hc : t.cfg = s.cfg := by rfl) (hb : t.b = s.b := by rfl) : Untouched s t :=
  ⟨hc, hm, hd, hb, fun n h => by rwa [hsr] at h⟩

/-- Some status bits are cleared, and nothing else of concern changes. -/
theorem untouched_cleared (m : Byte) (hsr : t.f.sr = s.f.sr &&& m) (hm : t.f.storage = s.f.storage := by rfl)
    (hd : t.f.dirty = s.f.dirty := by rfl) (hc : t.cfg = s.cfg := by rfl) (hb : t.b = s.b := by rfl) : Untouched s t :=
  ⟨hc, hm, hd, hb, fun n h => by
    rw [hsr, BitVec.getLsbD_and, Bool.and_eq_true] at h
    exact h.1⟩

/-- Every arm but Write-Enable's. -/
theorem untouched_armAs (armed : Bool) (s : State) {k : FlashCmd} (hk : k ≠ .wren) : Untouched s (armAs armed s k) := by
  cases k
  case wren => exact absurd rfl hk
  case wrdi => exact untouched_cleared _ rfl
  case rst =>
    cases armed
    · exact untouched_same
    · exact untouched_cleared 0#8 BitVec.and_zero.symm
  all_goals exact untouched_same

theorem untouched_decodeOpcode (b : Byte) (s : State) (hb : b ≠ s.cfg.ops.wren) : Untouched s (decodeOpcode b s) := by
  rcases hk : flashCmdOf s.cfg b with _ | k
  · rw [decodeOpcode_unknown s b hk]
    exact untouched_same
  · have hne : k ≠ .wren := fun e => hb (by rw [← opByte_of_flashCmdOf s.cfg b k hk, e]; rfl)
    rw [decodeOpcode_of s b k hk]
    exact (untouched_same (t := opcodeCommon b s)).trans (untouched_armAs _ _ hne)

/-- With the latch clear a dispatch programs, erases and queues nothing. -/
theorem untouched_dispatch (hw : s.f.sr.getLsbD s.cfg.srWelBit = false) : Untouched s (dispatch s) := by
  unfold dispatch
  split
  · exact untouched_same
  · have hp : dispatchPp s = toPState .writing (s.mapF (fun f => { f with cur := f.acc.toNat })) := by
      unfold dispatchPp
      exact congrArg (toPState .writing) (if_neg (by simp [Flash.wel, hw]))
    rw [hp]
    exact untouched_same
  · exact untouched_same
  · rw [dispatchSse, erase_protected _ s hw]; exact untouched_same
  · rw [dispatchBe, erase_protected _ s hw]; exact untouched_same
  · exact .refl s

theorem untouched_collect (b : Byte) (hw : s.f.sr.getLsbD s.cfg.srWelBit = false) : Untouched s (collect b s) := by
  have hc : Untouched s (collected b s) := untouched_same
  by_cases hn : s.f.pos + 1 = collectNeed s.cfg (flashCmdOf s.cfg s.f.cmd)
  · rw [collect_last b s hn]
    exact hc.trans (untouched_dispatch (hc.latch hw))
  · rw [collect_more b s hn]
    exact hc

theorem untouched_registerByte (s : State) : Untouched s (registerByte s).2 := by
  rcases registerByte_cases s with e | e <;> rw [e]
  · exact untouched_same
  · exact untouched_cleared _ rfl

theorem untouched_noted (b r : Byte) (s : State) : Untouched s (noted b r s) := untouched_same

/-- One exchange with the latch clear, but for a Write-Enable opcode in Idle. -/
theorem untouched_xfer (b : Byte) (hw : s.f.sr.getLsbD s.cfg.srWelBit = false) (hb : s.f.pstate = .idle → b ≠ s.cfg.ops.wren) :
    Untouched s (xfer b s).2 := by
  cases hp : s.f.pstate
  case idle => rw [xfer_idle b s hp]; exact (untouched_decodeOpcode b s (hb hp)).trans (untouched_noted _ _ _)
  case collectingCommandData => rw [xfer_collecting b s hp]; exact (untouched_collect b hw).trans (untouched_noted _ _ _)
  case writing => rw [xfer_writing b s hp, programByte_protected b s hw]; exact untouched_same
  case reading => rw [xfer_reading b s hp]; exact untouched_same
  case readingIdentification => rw [xfer_identification b s hp]; exact untouched_same
  case readingRegister => rw [xfer_register b s hp]; exact (untouched_registerByte s).trans (untouched_noted _ _ _)

/-- No byte of the run is a Write-Enable opcode met in Idle. -/
def meetsNoWren (s : State) (bs : List Byte) : Prop :=
  ∀ pre b post, bs = pre ++ b :: post → (xferAll pre s).f.pstate = .idle → b ≠ s.cfg.ops.wren

theorem meetsNoWren_cons {b : Byte} {bs : List Byte} (h : meetsNoWren s (b :: bs)) :
    (s.f.pstate = .idle → b ≠ s.cfg.ops.wren) ∧ meetsNoWren (xfer b s).2 bs :=
  ⟨h [] b bs rfl, fun pre d post e hp => by rw [xfer_cfg]; exact h (b :: pre) d post (by rw [e]; rfl) hp⟩

theorem untouched_xferAll (bs : List Byte) (s : State) (hw : s.f.sr.getLsbD s.cfg.srWelBit = false) (hb : meetsNoWren s bs) :
    Untouched s (xferAll bs s) := by
  induction bs generalizing s with
  | nil => exact .refl s
  | cons b bs ih =>
    obtain ⟨hfirst, hrest⟩ := meetsNoWren_cons hb
    have hx := untouched_xfer b hw hfirst
    exact hx.trans (ih _ (hx.latch hw) hrest)

/-- Settles O49, by induction on the run. -/
theorem latchProtectsStorage : Obligations.LatchProtectsStorage := by
  intro s bs hw hb
  have h := untouched_xferAll bs s hw hb
  have hl := h.latch hw
  rw [h.cfg] at hl
  exact ⟨h.storage, hl, h.status _, h.backing, h.dirty⟩

/-! ### With the latch set -/

/-- No opcode byte changes storage. -/
theorem decodeOpcode_storage (b : Byte) (s : State) : (decodeOpcode b s).f.storage = s.f.storage := by
  by_cases hb : b = s.cfg.ops.wren
  · rcases hk : flashCmdOf s.cfg b with _ | k
    · rw [decodeOpcode_unknown s b hk]; rfl
    · by_cases hne : k = .wren
      · rw [decodeOpcode_of s b k hk, hne]; rfl
      · rw [decodeOpcode_of s b k hk, (untouched_armAs _ _ hne).storage]; rfl
  · exact (untouched_decodeOpcode b s hb).storage

/-- What an erase makes of storage: the aligned region of the collected address is filled, with the latch set and inside the
capacity. -/
theorem erase_storage (n : Nat) (s : State) :
    (erase n s).f.storage = s.f.storage ∨
    (s.f.sr.getLsbD s.cfg.srWelBit = true ∧
      (erase n s).f.storage = s.f.storage.fillErased (alignedBase s.f.acc.toNat n) n) := by
  rcases erase_cases n s with ⟨-, e⟩ | ⟨-, -, e⟩ | ⟨hw, -, e⟩ <;> rw [e]
  · exact .inl rfl
  · exact .inl rfl
  · refine .inr ⟨hw, ?_⟩
    rw [mapF_f, writeAsync_f]
    rfl

/-- The command is an erase of `n` bytes. -/
def erasesBytes (c : Cfg) (k : Option FlashCmd) (n : Nat) : Prop :=
  k = some .sse ∧ n = c.subsectorSize ∨ k = some .be ∧ n = c.blockSize

/-- Of all dispatches only the erases change storage. -/
theorem dispatch_storage (s : State) :
    (dispatch s).f.storage = s.f.storage ∨
    ∃ n, erasesBytes s.cfg (flashCmdOf s.cfg s.f.cmd) n ∧
      s.f.sr.getLsbD s.cfg.srWelBit = true ∧ (dispatch s).f.storage = s.f.storage.fillErased (alignedBase s.f.acc.toNat n) n := by
  rcases hk : flashCmdOf s.cfg s.f.cmd with _ | k
  · refine .inl ?_
    unfold dispatch
    rw [hk]
  · rw [dispatch_of s k hk]
    cases k
    case sse => exact (erase_storage s.cfg.subsectorSize s).imp_right fun h => ⟨_, .inl ⟨rfl, rfl⟩, h⟩
    case be => exact (erase_storage s.cfg.blockSize s).imp_right fun h => ⟨_, .inr ⟨rfl, rfl⟩, h⟩
    case pp =>
      refine .inl ?_
      simp only [dispatchAs, dispatchPp]
      split <;> rfl
    all_goals exact .inl rfl

/-- What a program byte makes of storage (44 R220). -/
theorem programByte_storage (b : Byte) (s : State) :
    (programByte b s).f.storage = s.f.storage ∨
    (s.f.sr.getLsbD s.cfg.srWelBit = true ∧ s.f.cur < s.cfg.capacity ∧
      (programByte b s).f.storage = s.f.storage.write s.f.cur (b &&& s.f.storage.read s.f.cur)) := by
  rcases programByte_cases b s with ⟨-, e⟩ | ⟨-, -, e⟩ | ⟨hw, hc, e⟩ <;> rw [e]
  · exact .inl rfl
  · exact .inl rfl
  · refine .inr ⟨hw, hc, ?_⟩
    rw [mapF_f, markDirty_f, program_f]

theorem sameStorage_of_eq (h : t.f.storage = s.f.storage) : sameStorage s t := fun a => by rw [h]

/-- A collected byte leaves storage alone, or is the last address byte of an erase with the latch set. -/
theorem collect_storage (b : Byte) (s : State) :
    (collect b s).f.storage = s.f.storage ∨
    ∃ n, erasesBytes s.cfg (flashCmdOf s.cfg s.f.cmd) n ∧
      s.f.pos + 1 = s.cfg.addrBytes ∧ s.f.sr.getLsbD s.cfg.srWelBit = true ∧
      (collect b s).f.storage = s.f.storage.fillErased (alignedBase ((s.f.acc.toNat * 256 + b.toNat) % 2 ^ 24) n) n := by
  by_cases hn : s.f.pos + 1 = collectNeed s.cfg (flashCmdOf s.cfg s.f.cmd)
  · rw [collect_last b s hn]
    refine (dispatch_storage (collected b s)).imp_right fun ⟨n, hk, hw, hm⟩ => ⟨n, hk, ?_⟩
    have hk' : flashCmdOf s.cfg s.f.cmd = some .sse ∨ flashCmdOf s.cfg s.f.cmd = some .be := hk.imp And.left And.left
    have hlast : s.f.pos + 1 = s.cfg.addrBytes := by rcases hk' with e | e <;> rw [hn, e] <;> rfl
    have hacc : (collected b s).f.acc = accShift s.f.acc b :=
      collectAcc_address s.cfg b s.f (by rcases hk' with e | e <;> simp [e]) (by omega)
    rw [hacc, accShift_toNat] at hm
    exact ⟨hlast, hw, hm⟩
  · rw [collect_more b s hn]
    exact .inl rfl

theorem erasedRegion_of_eq {a n : Nat} (h : t.f.storage = s.f.storage.fillErased (alignedBase a n) n) : erasedRegion s t a n :=
  fun x => by rw [h, memory_read_fillErased]; rfl

/-- Settles O48, by the parser state that meets the byte. -/
theorem storageChangesOnlyByProgramOrErase : Obligations.StorageChangesOnlyByProgramOrErase := by
  rintro s b a hwf rfl
  cases hp : s.f.pstate
  case idle =>
    rw [xfer_idle b s hp]
    exact .inl (sameStorage_of_eq (decodeOpcode_storage b s))
  case collectingCommandData =>
    rw [xfer_collecting b s hp]
    rcases collect_storage b s with hm | ⟨n, hk, hlast, hw, hm⟩
    · exact .inl (sameStorage_of_eq hm)
    · refine .inr (.inr ⟨rfl, hlast, hw, ?_⟩)
      rcases hk with ⟨hk, rfl⟩ | ⟨hk, rfl⟩
      · exact .inl ⟨hk, erasedRegion_of_eq hm⟩
      · exact .inr ⟨hk, erasedRegion_of_eq hm⟩
  case writing =>
    rw [xfer_writing b s hp]
    rcases programByte_storage b s with hm | ⟨hw, hc, hm⟩
    · exact .inl (sameStorage_of_eq hm)
    · refine .inr (.inl ⟨rfl, hw, hc, fun x => ?_⟩)
      show (programByte b s).f.storage.read x = _
      rw [hm, memory_read_write _ _ _ _ hwf]
      by_cases hx : x = s.f.cur
      · rw [if_pos hx, if_pos hx, hx]
      · rw [if_neg hx, if_neg hx]
  case reading => rw [xfer_reading b s hp]; exact .inl (sameStorage_of_eq rfl)
  case readingIdentification => rw [xfer_identification b s hp]; exact .inl (sameStorage_of_eq rfl)
  case readingRegister =>
    rw [xfer_register b s hp]
    exact .inl (sameStorage_of_eq (untouched_registerByte s).storage)

end Sys2Proof.Machine
end

section
/-! SUPPORT. The values after construction and after system reset, O54 and O55 (10_state R47; 70 R280 to R283). -/

namespace Sys2Proof.Machine

/-- Settles O54: the configuration is accepted or refused, and an accepted one gives the state written out. -/
theorem constructionValues : Obligations.ConstructionValues := by
  intro c
  cases h : cfgOk c
  · exact .inl ⟨if_neg (by simp [h]), rfl⟩
  · exact .inr ⟨rfl, if_pos h⟩

/-- The deselect's flush queues what the snapshot hook would: neither sees the trace (44 R230, R232). -/
theorem setCS_false_backing (s : State) : (setCS false s).b = (beforeSnapshot s).b :=
  (congrArg State.b (flushDirty_outer s.h { s.l with trace := s.l.trace ++ [.cs false] } s.inbox s) : _)

theorem setCS_false_l (s : State) : (setCS false s).l = { cs := false, trace := s.l.trace ++ [.cs false] } :=
  congrArg₂ Link.mk (setCS_cs false s) (setCS_trace false s)

/-- System reset field by field: the deselect's values, but for the host controller and the device's registers. -/
theorem systemReset_fields (s : State) :
    systemReset s =
      { cfg := (setCS false s).cfg
        h := HostCtl.reset
        l := (setCS false s).l
        f := resetRegisters s.cfg (setCS false s).f
        b := (setCS false s).b
        diag := (setCS false s).diag
        inbox := (setCS false s).inbox
        rdata := (setCS false s).rdata
        draws := (setCS false s).draws } := rfl

/-- Settles O55: the deselect field by field, then the reset values. -/
theorem systemResetValues : Obligations.SystemResetValues := by
  intro s
  rw [systemReset_fields, setCS_cfg, setCS_inbox, setCS_rdata, setCS_draws, setCS_diag_eq, setCS_false_backing, setCS_false_flash,
    setCS_false_l]
  rfl

end Sys2Proof.Machine
end

section
/-! SUPPORT. The drained image follows storage, O52 and O59, and what a write-back step does, O51 (20_memory R67; 44 R229 to R233;
70 R303). -/

namespace Sys2Proof.Machine

variable {s t : State} {D E : Nat → Prop}

/-! ### The drained image but for some addresses -/

/-- With a backing, the drained image is the storage but for the addresses `D`: `ImageFollows` is the case of the dirty page. -/
def FollowsExcept (D : Nat → Prop) (s : State) : Prop :=
  s.cfg.hasBacking = true → ∀ a, ¬ D a → (drainedImage s.b).read a = s.f.storage.read a

theorem FollowsExcept.mono (h : FollowsExcept D s) (hsub : ∀ a, D a → E a) : FollowsExcept E s :=
  fun hb a ha => h hb a (mt (hsub a) ha)

/-- Only whether there is a backing, storage and the backing matter. -/
theorem FollowsExcept.congr (h : FollowsExcept D s) (hc : t.cfg = s.cfg := by rfl) (hm : t.f.storage = s.f.storage := by rfl)
    (hb : t.b = s.b := by rfl) : FollowsExcept D t := by
  unfold FollowsExcept
  rw [hc, hm, hb]
  exact h

/-- Where storage changes at addresses `E` alone, these are the new exceptions. -/
theorem FollowsExcept.storage {g : Flash → Flash} (h : FollowsExcept D s)
    (hg : ∀ a, ¬ E a → (g s.f).storage.read a = s.f.storage.read a) : FollowsExcept (fun a => D a ∨ E a) (s.mapF g) :=
  fun hb a ha => (h hb a (mt .inl ha)).trans (hg a (mt .inr ha)).symm

/-- A write queued last is applied last. -/
theorem drainedImage_queued (b : Backing) (p : PendingWrite) :
    drainedImage { b with queue := b.queue ++ [p] } = (drainedImage b).splice p.off p.len p.data := by
  simp [drainedImage]

/-- A queued copy of a region mends the exceptions inside it (44 R230, R231). -/
theorem FollowsExcept.writeAsync {off len : Nat} (h : FollowsExcept D s) (hD : ∀ a, D a → E a ∨ (off ≤ a ∧ a < off + len)) :
    FollowsExcept E (writeAsync off len s) := by
  intro hb a ha
  rw [(deviceOnly_writeAsync off len (.refl s)).cfg] at hb
  rw [writeAsync_backing off len s hb, mapB_b, mapB_f, drainedImage_queued,
    memory_read_splice _ _ _ _ _ (memory_slice_inside _ _ _), memory_read_slice]
  by_cases hin : off ≤ a ∧ a < off + len
  · rw [if_pos hin, if_pos hin]
  · rw [if_neg hin]
    exact h hb a fun hd => (hD a hd).elim ha hin

/-! ### Flush, mark, program, erase -/

theorem inDirtyPage_clean (hd : s.f.dirty = none) (a : Nat) : ¬ inDirtyPage s a := by
  rintro ⟨p, hp, -⟩
  rw [hd] at hp
  cases hp

/-- A flush mends the exceptions inside the dirty page (44 R230). -/
theorem FollowsExcept.flushDirty (h : FollowsExcept (fun a => inDirtyPage s a ∨ E a) s) : FollowsExcept E (flushDirty s) := by
  rcases hd : s.f.dirty with _ | q
  · rw [flushDirty_clean s hd]
    exact h.mono fun a ha => ha.resolve_left (inDirtyPage_clean hd a)
  · rw [flushDirty_dirty s q hd]
    refine FollowsExcept.congr (s := Machine.writeAsync (q * s.cfg.pageSize) s.cfg.pageSize s) (h.writeAsync ?_)
    rintro a (⟨p, hp, hlo, hhi⟩ | ha)
    · cases hd.symm.trans hp
      exact .inr ⟨hlo, by rwa [Nat.succ_mul] at hhi⟩
    · exact .inl ha

/-- Marking a page mends the exceptions of the page dirty before, and may leave others in the page marked (44 R229). -/
theorem FollowsExcept.markDirty {p : Nat} (h : FollowsExcept (fun a => inDirtyPage s a ∨ E a) s)
    (hE : ∀ a, E a → p * s.cfg.pageSize ≤ a ∧ a < (p + 1) * s.cfg.pageSize) : ImageFollows (markDirty p s) := by
  have hcfg : (Machine.markDirty p s).cfg = s.cfg := (deviceOnly_markDirty p (.refl s)).cfg
  have marked (a : Nat) (ha : p * s.cfg.pageSize ≤ a ∧ a < (p + 1) * s.cfg.pageSize) : inDirtyPage (Machine.markDirty p s) a :=
    ⟨p, by rw [markDirty_f], by rwa [hcfg]⟩
  refine FollowsExcept.mono (D := fun a => p * s.cfg.pageSize ≤ a ∧ a < (p + 1) * s.cfg.pageSize) ?_ marked
  rcases markDirty_cases p s with ⟨hd, e⟩ | ⟨q, -, -, e⟩ <;> rw [e]
  · refine FollowsExcept.congr (h.mono ?_)
    rintro a (⟨q, hq, ha⟩ | ha)
    · rcases hd with hd | hd <;> cases hd.symm.trans hq
      exact ha
    · exact hE a ha
  · exact FollowsExcept.congr (h.flushDirty.mono hE)

/-- An address lies in its page. -/
theorem page_of_address {a n : Nat} (hn : 0 < n) : a / n * n ≤ a ∧ a < (a / n + 1) * n :=
  ⟨Nat.div_mul_le_self a n, Nat.lt_mul_of_div_lt (Nat.lt_succ_self _) hn⟩

/-- A programmed byte is an exception in the page that is then marked (44 R220, R229). -/
theorem ImageFollows.programByte (b : Byte) (hp : 0 < s.cfg.pageSize) (h : ImageFollows s) : ImageFollows (programByte b s) := by
  rcases programByte_cases b s with ⟨-, e⟩ | ⟨-, -, e⟩ | ⟨-, -, e⟩ <;> rw [e]
  · exact h
  · exact h
  · have hcfg : (program s.f.cur b s).cfg = s.cfg := (deviceOnly_program _ b (.refl s)).cfg
    have hprog : FollowsExcept (fun a => inDirtyPage (program s.f.cur b s) a ∨ a = s.f.cur) (program s.f.cur b s) := by
      have hw : FollowsExcept (fun a => inDirtyPage s a ∨ a = s.f.cur)
          (s.mapF fun f => { f with storage := f.storage.write s.f.cur (b &&& s.f.storage.read s.f.cur) }) :=
        FollowsExcept.storage h fun a ha => memory_read_write_other _ _ _ _ ha
      unfold inDirtyPage
      rw [program_f, hcfg]
      exact hw.congr hcfg (by rw [program_f]; rfl) (program_b _ _ _)
    refine (hprog.markDirty ?_ : ImageFollows (markDirty (s.f.cur / s.cfg.pageSize) _))
    rintro a rfl
    rw [hcfg]
    exact page_of_address hp

/-- An erase queues the region it fills (43 R202, 44 R231). -/
theorem ImageFollows.erase (n : Nat) (hd : s.f.dirty = none) (h : ImageFollows s) : ImageFollows (erase n s) := by
  rcases erase_cases n s with ⟨-, e⟩ | ⟨-, -, e⟩ | ⟨-, -, e⟩ <;> rw [e]
  · exact h
  · exact h
  · refine FollowsExcept.mono (D := fun _ => False) (FollowsExcept.congr (FollowsExcept.writeAsync
      (FollowsExcept.storage (E := fun a => alignedBase s.f.acc.toNat n ≤ a ∧ a < alignedBase s.f.acc.toNat n + n) h ?_) ?_))
      fun _ => False.elim
    · intro a ha
      rw [memory_read_fillErased, if_neg ha]
    · exact fun a ha => .inr (ha.resolve_left (inDirtyPage_clean hd a))

/-! ### One exchange -/

/-- Configuration, storage, dirty page and backing are all it speaks of. -/
theorem ImageFollows.congr (h : ImageFollows s) (hc : t.cfg = s.cfg := by rfl) (hm : t.f.storage = s.f.storage := by rfl)
    (hd : t.f.dirty = s.f.dirty := by rfl) (hb : t.b = s.b := by rfl) : ImageFollows t := by
  unfold ImageFollows inDirtyPage
  rw [hc, hm, hd, hb]
  exact h

/-- No arm of an opcode touches storage, dirty page or backing. -/
theorem ImageFollows.armAs (armed : Bool) (k : FlashCmd) (h : ImageFollows s) : ImageFollows (armAs armed s k) := by
  cases k
  case rst => cases armed <;> exact h
  all_goals exact h

theorem ImageFollows.decodeOpcode (b : Byte) (h : ImageFollows s) : ImageFollows (decodeOpcode b s) := by
  rcases hk : flashCmdOf s.cfg b with _ | k
  · rw [decodeOpcode_unknown s b hk]; exact h
  · rw [decodeOpcode_of s b k hk]; exact ImageFollows.armAs (s := opcodeCommon b s) _ k h

/-- Of all dispatches only the erases touch storage or backing. -/
theorem ImageFollows.dispatch (hd : s.f.dirty = none) (h : ImageFollows s) : ImageFollows (dispatch s) := by
  unfold Machine.dispatch
  split
  · exact h
  · unfold dispatchPp
    dsimp only
    split <;> exact h
  · exact h
  · exact h.erase s.cfg.subsectorSize hd
  · exact h.erase s.cfg.blockSize hd
  · exact h

theorem ImageFollows.collect (b : Byte) (hd : s.f.dirty = none) (h : ImageFollows s) : ImageFollows (collect b s) := by
  by_cases hn : s.f.pos + 1 = collectNeed s.cfg (flashCmdOf s.cfg s.f.cmd)
  · rw [collect_last b s hn]; exact ImageFollows.dispatch (s := collected b s) hd h
  · rw [collect_more b s hn]; exact h

theorem ImageFollows.xfer (b : Byte) (hs : DeviceSide s) (h : ImageFollows s) : ImageFollows (xfer b s).2 := by
  cases hp : s.f.pstate
  case idle => rw [xfer_idle b s hp]; exact h.decodeOpcode b
  case collectingCommandData => rw [xfer_collecting b s hp]; exact h.collect b (hs.device.clean (by simp [hp]))
  case writing => rw [xfer_writing b s hp]; exact h.programByte b (shapeOk_sizes hs.shape).2.1
  case reading => rw [xfer_reading b s hp]; exact h
  case readingIdentification => rw [xfer_identification b s hp]; exact h
  case readingRegister =>
    have hu := untouched_registerByte s
    rw [xfer_register b s hp]
    exact (h.congr hu.cfg hu.storage hu.dirty hu.backing : ImageFollows (registerByte s).2)

/-! ### Chip-select, platform actions, steps -/

theorem ImageFollows.flushDirty (h : ImageFollows s) : ImageFollows (flushDirty s) :=
  ((FollowsExcept.mono h fun _ => .inl).flushDirty (E := fun _ => False)).mono fun _ => False.elim

theorem ImageFollows.setCS (level : Bool) (h : ImageFollows s) : ImageFollows (setCS level s) := by
  cases level
  · exact ImageFollows.flushDirty (s := traced false s) h
  · exact h

/-- The write to be applied first is applied, by a step or by draining. -/
theorem ImageFollows.writeBackStep (h : ImageFollows s) : ImageFollows (writeBackStep s) := by
  rcases hq : s.b.queue with _ | ⟨p, q⟩
  · rw [writeBackStep_empty s hq]; exact h
  · have hdrain : drainedImage (Machine.writeBackStep s).b = drainedImage s.b := by
      rw [writeBackStep_oldest s p q hq, drainedImage, drainedImage, hq]; rfl
    intro hb a ha
    rw [hdrain]
    rw [writeBackStep_oldest s p q hq] at hb ha ⊢
    exact h hb a ha

/-- Every part of a step keeps it, given what the device's part of the invariant says of the dirty page. -/
theorem imageFollows_closed : Closed (fun s => DeviceSide s ∧ ImageFollows s) where
  inbox s is h := ⟨deviceSide_closed.inbox s is h.1, h.2⟩
  host s g h := ⟨deviceSide_closed.host s g h.1, h.2⟩
  raised s d h := ⟨deviceSide_closed.raised s d h.1, h.2⟩
  value s v n h := ⟨deviceSide_closed.value s v n h.1, h.2⟩
  exchange s b h := ⟨deviceSide_closed.exchange s b h.1, h.2.xfer b h.1⟩
  select s level h := ⟨deviceSide_closed.select s level h.1, h.2.setCS level⟩
  reset s h := ⟨deviceSide_closed.reset s h.1, (h.2.setCS false).congr⟩
  snapshot s h := ⟨deviceSide_closed.snapshot s h.1, h.2.flushDirty⟩
  drain s h := ⟨deviceSide_closed.drain s h.1, h.2.writeBackStep⟩

/-- Settles O52: every part of a step keeps it together with the device's part of the core invariant. -/
theorem stepKeepsImageFollowing : Obligations.StepKeepsImageFollowing := by
  intro s t hs hi e
  exact (imageFollows_closed.step ⟨((coreInv_iff s).mp hs).1, hi⟩ e).2

/-! ### The end of a run (70 R303) -/

/-- A deselected device has no dirty page. -/
theorem LinkInv.deselected_clean (hl : LinkInv s) (hs : CoreInv s) (hc : s.l.cs = false) :
    s.f.pstate = .idle ∧ s.f.dirty = none := by
  have hp := (hl.deselected_idle hc).1
  exact ⟨hp, hs.device.clean (by simp [hp])⟩

/-- With nothing queued and no dirty page the image is the storage: both are canonical and read alike. -/
theorem ImageFollows.drained (h : ImageFollows s) (hs : CoreInv s) (hb : s.cfg.hasBacking = true) (hd : s.f.dirty = none)
    (hq : s.b.queue = []) : s.b.image = s.f.storage := by
  have hdrain : drainedImage s.b = s.b.image := by rw [drainedImage, hq]; rfl
  refine memory_ext _ _ hs.backing.image_wf hs.device.storage_wf fun a => ?_
  rw [← hdrain]
  exact h hb a (inDirtyPage_clean hd a)

/-- Settles O59, condition by condition. -/
theorem idleConditions : Obligations.IdleConditions := fun _ hs hl hi =>
  ⟨fun h => (hs.host.idle h).symm, fun h => hl.deselected_clean hs h.2,
    fun h hb => hi.drained hs hb (hl.deselected_clean hs h.1.2).2 h.2⟩

/-! ### Write-back (44 R233) -/

/-- What a pending write holds for an address of its region. -/
theorem pendingWrite_bytes_getD (p : PendingWrite) {a : Nat} (h : p.off ≤ a ∧ a < p.off + p.len) :
    p.bytes.getD (a - p.off) 0#8 = p.data.read a := by
  have hlt : a - p.off < p.len := by omega
  have ha : p.off + (a - p.off) = a := by omega
  simp [PendingWrite.bytes, Memory.bytes, hlt, ha]

/-- Settles O51: the oldest write is spliced into the image. -/
theorem writeBackAppliesOldestWrite : Obligations.WriteBackAppliesOldestWrite := by
  intro s
  refine ⟨writeBackStep_empty s, fun p q hq hwf ⟨hdata, hin, _⟩ =>
    ⟨s.b.image.splice p.off p.len p.data, writeBackStep_oldest s p q hq, memory_splice_wf _ _ _ _ hwf hdata hin, fun a => ?_⟩⟩
  rw [memory_read_splice _ _ _ _ _ hin]
  split
  · next h => exact (pendingWrite_bytes_getD p h).symm
  · rfl

end Sys2Proof.Machine
end

section
/-! SUPPORT. What an address reaches: the decoder's rejections and some words, O3 and O4; the bus, O9 and O10; accesses of the wrong
width or at an offset with no register, O16 and O18 (20_memory R51 to R54; 60_exceptions R253, R260, R261). -/

namespace Sys2Proof.Machine

variable {s : State} {is : List Input}

/-! ### What the decoder rejects (20_memory R51, R52; 30_encoding R97) -/

theorem decodeAccess_outside {c : Cfg} {a : RegAccess} (h : c.regWindowLen ≤ a.off) :
    decodeAccess c a = .error (.offsetOutsideWindow a.off) := if_pos h

/-- Inside the window every access is some instruction: its register's, or a reserved one. -/
theorem decodeAccess_inside {c : Cfg} {a : RegAccess} (h : a.off < c.regWindowLen) : ∃ i, decodeAccess c a = .ok i := by
  rw [decodeAccess, if_neg (Nat.not_le.mpr h)]
  cases registerAt c a.off
  · exact ⟨_, rfl⟩
  · cases a.acc <;> exact ⟨_, rfl⟩

theorem decode_access_error (c : Cfg) (a : RegAccess) : (∃ e, decode c (.access a) = .error e) ↔ c.regWindowLen ≤ a.off := by
  constructor
  · rintro ⟨e, he⟩
    by_contra hlt
    obtain ⟨i, hi⟩ := decodeAccess_inside (Nat.not_le.mp hlt)
    rw [(decode_access c a i []).mpr ⟨hi, rfl⟩] at he
    cases he
  · intro h
    exact ⟨_, by rw [decode, decodeAccess_outside h]⟩

theorem decode_frame_error (c : Cfg) (bs : List Byte) : (∃ e, decode c (.frame bs) = .error e) ↔ bs = [] := by
  cases bs with
  | nil => exact ⟨fun _ => rfl, fun _ => ⟨_, rfl⟩⟩
  | cons b bs =>
    obtain ⟨i, more, h⟩ := decodeFrame_cons c b bs
    rw [decode, h]
    simp

/-- Settles O3, one encoding space at a time. -/
theorem decoderRejectsExactly : Obligations.DecoderRejectsExactly := fun c => ⟨decode_access_error c, decode_frame_error c⟩

/-- Settles O4: the decoder computes each word. -/
theorem defaultWordsDecode : Obligations.DefaultWordsDecode :=
  ⟨rfl, rfl, rfl, rfl, rfl, rfl, rfl, rfl, rfl, rfl, rfl⟩

/-! ### The bus (20_memory R51, R53) -/

/-- The address lies in the memory-mapped window. -/
def inMmapWindow (c : Cfg) (addr : Nat) : Prop := c.mmapBase ≤ addr ∧ addr < c.mmapBase + c.mmapLen

/-- The address lies in the register window. -/
def inRegisterWindow (c : Cfg) (addr : Nat) : Prop := c.regBase ≤ addr ∧ addr < c.regBase + c.regWindowLen

theorem fetchBus_mmap {a : BusAccess} (h : inMmapWindow s.cfg a.addr) : fetchBus a s = .done (.next (mmapAccess a s)) := if_pos h

theorem fetchBus_register {a : BusAccess} (hm : ¬ inMmapWindow s.cfg a.addr) (hr : inRegisterWindow s.cfg a.addr) :
    fetchBus a s = fetchAccess { acc := a.acc, off := a.addr - s.cfg.regBase, width := a.width } s :=
  (if_neg hm).trans (if_pos hr)

theorem fetchBus_neither {a : BusAccess} (hm : ¬ inMmapWindow s.cfg a.addr) (hr : ¬ inRegisterWindow s.cfg a.addr) :
    fetchBus a s = .done (.fault (.addressNotDecoded a.addr)) := (if_neg hm).trans (if_neg hr)

/-- Settles O9, by the window the address lies in. -/
theorem busAccessReachesRegisterWindow : Obligations.BusAccessReachesRegisterWindow := by
  intro s is a hin hm
  constructor
  · intro i hlo hhi hdec
    rw [step_bus hin, fetchBus_register (s := s.withInbox is) hm ⟨hlo, hhi⟩, withInbox_cfg,
      fetchAccess_ok (s := s.withInbox is) hdec]
    rfl
  · intro hr
    rw [step_bus hin, fetchBus_neither (s := s.withInbox is) hm hr]
    rfl

/-- Settles O10: the access is refused, and a refused read returns a free value of its width. -/
theorem mmapWindowIsReserved : Obligations.MmapWindowIsReserved := by
  intro s is a hin hlo hhi
  have hstep : step s = .next (mmapAccess a (s.withInbox is)) := by
    rw [step_bus hin, fetchBus_mmap (s := s.withInbox is) ⟨hlo, hhi⟩]
    rfl
  rw [hstep, mmapAccess]
  constructor
  · intro v hv
    rw [hv]
    rfl
  · intro hr
    rw [hr]
    exact ⟨_, readUnspecified_bound a.width (raise (.mmapWindowAccess a.addr) (s.withInbox is)), rfl⟩

/-! ### Accesses that do nothing (60_exceptions R253, R260) -/

theorem regWidth_eq (r : Reg) : regWidth r = if r = .dr then 1 else 4 := by cases r <;> rfl

/-- A register write of the wrong width, whatever the register. -/
theorem exec_regWriteInstr_width (r : Reg) {w : Nat} (v : Word) (s : State) (hw : w ≠ regWidth r) :
    exec (regWriteInstr w v r) s = .next (raise (.accessWidth (s.cfg.offset r) w) s) := by
  have hreg (body : State → State) := congrArg (Host.Outcome.next (φ := Fault) (ρ := Refusal)) (regWrite_width r w body s hw)
  cases r
  case dr => exact (execW8Dr_runs v (sendsDeselected_false (.inl hw))).trans (hreg _)
  all_goals exact hreg _

/-- A register read of the wrong width, whatever the register. -/
theorem exec_regReadInstr_width (r : Reg) {w : Nat} (s : State) (hw : w ≠ regWidth r) :
    exec (regReadInstr w r) s = .next (readUnspecified w (raise (.accessWidth (s.cfg.offset r) w) s)) := by
  have hreg (body : State → State) := congrArg (Host.Outcome.next (φ := Fault) (ρ := Refusal)) (regRead_width r w body s hw)
  cases r <;> exact hreg _

/-- Settles O16: the width is checked before the register's own rule. -/
theorem wrongWidthDoesNothing : Obligations.WrongWidthDoesNothing := by
  intro s r w v hw
  rw [← regWidth_eq] at hw
  exact ⟨exec_regWriteInstr_width r v s hw, _, readUnspecified_bound w _, exec_regReadInstr_width r s hw⟩

/-- Settles O18: the three reserved rows do the same. -/
theorem reservedOffsetsDoNothing : Obligations.ReservedOffsetsDoNothing := by
  intro s off w v
  refine ⟨rfl, rfl, rfl, _, readUnspecified_bound w (raise (.reservedOffset off) s), fun i hi => ?_⟩
  simp only [List.mem_cons, List.not_mem_nil, or_false] at hi
  rcases hi with rfl | rfl | rfl <;> rfl

end Sys2Proof.Machine
end

section
/-! SUPPORT. The addressed commands on storage: Fast-Read at device level and by indirect read, O40 and O25, and the erases, O44
(43 R189, R192, R193, R202; 44 R224). -/

namespace Sys2Proof.Machine

variable {s : State} {addr ds outs : List Byte}

/-- An addressed command met in Idle, with all the bytes it needs, is dispatched (43 R200, R201). -/
theorem xferAll_addressed_command (k : FlashCmd) (h : readyForOpcode s) (hk : k = .pp ∨ k = .sse ∨ k = .be ∨ k = .fread)
    (h0 : addr ≠ []) (ha : addr.length = s.cfg.addrBytes) (hn : addr.length + ds.length = collectNeed s.cfg (some k)) :
    xferAll (s.cfg.opByte k :: (addr ++ ds)) s = dispatchAs (addressed (s.cfg.opByte k) addr ds s) k := by
  have e := collecting_command_in_idle s k (addr ++ ds) h (by tauto)
  rw [exchange_selected _ s h.2.1, xferAll_addressed s k addr ds h.1 hk h0 ha hn] at e
  exact Host.Outcome.next.inj e

/-! ### Fast-Read (43 R189, 44 R224) -/

/-- What a Fast-Read of the address bytes `addr`, the dummy bytes `ds` and the data exchanges `outs` leaves. -/
def afterFastRead (addr ds outs : List Byte) (s : State) : State :=
  { s with
    l := { s.l with trace := s.l.trace ++ silentExchanges s (s.cfg.ops.fread :: (addr ++ ds)) ++
                             exchanges outs (storageRead s (addressOf addr) outs.length) }
    f := { s.f with resetArmed := false, cmd := s.cfg.ops.fread, pos := s.cfg.addrBytes + s.cfg.fastReadDummy,
                    acc := BitVec.ofNat 24 (addressOf addr), cur := (addressOf addr + outs.length) % s.cfg.capacity,
                    pstate := .reading } }

/-- Once address and dummy bytes are in, the device reads from the address on. -/
theorem xferAll_fastRead_header (h : readyForOpcode s) (h0 : addr ≠ []) (ha : addr.length = s.cfg.addrBytes)
    (hd : ds.length = s.cfg.fastReadDummy) :
    xferAll (s.cfg.ops.fread :: (addr ++ ds)) s = afterFastRead addr ds [] s := by
  refine (xferAll_addressed_command .fread h (by simp) h0 ha (by rw [ha, hd]; rfl)).trans ?_
  simp only [dispatchAs, dispatchFread, toPState, State.mapF, addressed, afterFastRead, addressOf_toNat, ha, hd]
  simp [exchanges, Cfg.opByte]

/-- The data exchanges that follow stream storage. -/
theorem xferAll_fastRead_data (h0 : 0 < s.cfg.capacity) :
    xferAll outs (afterFastRead addr ds [] s) = afterFastRead addr ds outs s ∧
    replies outs (afterFastRead addr ds [] s) = storageRead s (addressOf addr) outs.length := by
  obtain ⟨hx, hr⟩ := xferAll_reading outs (afterFastRead addr ds [] s) (addressOf addr) h0 rfl rfl
  refine ⟨hx.trans ?_, hr⟩
  simp only [afterFastRead, exchanges, List.zipWith_nil_left, List.append_nil]
  rfl

/-- A whole Fast-Read. -/
theorem xferAll_fastRead (h : readyForOpcode s) (h0 : addr ≠ []) (ha : addr.length = s.cfg.addrBytes)
    (hd : ds.length = s.cfg.fastReadDummy) :
    xferAll (s.cfg.ops.fread :: (addr ++ ds) ++ outs) s = afterFastRead addr ds outs s := by
  rw [xferAll_append, xferAll_fastRead_header h h0 ha hd, (xferAll_fastRead_data (shapeOk_sizes h.1).1).1]

/-- Settles O40: the command is the exchange of its bytes. -/
theorem fastReadStreamsStorage : Obligations.FastReadStreamsStorage := by
  intro s addr dummies outs h h0 ha hd
  exact (exchange_selected _ s h.2.1).trans (congrArg Host.Outcome.next (xferAll_fastRead h h0 ha hd))

/-! ### Fast-Read by indirect read (42 R156, R164) -/

/-- An AR write that is the configured trigger executes the transaction (41 R132). -/
theorem w32Ar_starts (v : Word) (hb : s.h.busy = false) (ht : startTrigger s.cfg s.h.ccr = .onAR) :
    exec (.w32Ar 4 v) s = .next (execute (s.mapH fun h => { h with ar := v })).2 := by
  have hpass : exec (.w32Ar 4 v) s = .next (afterArWrite (s.mapH fun h => { h with ar := v })) :=
    congrArg Host.Outcome.next (regWrite_passes .ar 4 _ s rfl (.inr hb))
  rw [hpass, afterArWrite, mapH_cfg, mapH_h, ht]

/-- An indirect read with data, started by its AR write, is one frame of header and fillers; the fillers' replies enter the FIFO (42
R156). -/
theorem w32Ar_indirectRead (v : Word) (hb : s.h.busy = false) (hf : s.h.fifo = [])
    (hm : functionalMode s.cfg s.h.ccr = .indirectRead) (hA : addressPhase s.cfg s.h.ccr = true)
    (hD : dataPhasePresent s.cfg s.h.ccr = true) (halt : alternateBytes s.cfg s.h.ccr = false) {head fillers : List Byte}
    (hhead : headerBytes s.cfg s.h.ccr v = head) (hfill : List.replicate (dataLength s.h.dlr) s.cfg.fillerByte = fillers) :
    exec (.w32Ar 4 v) s = .next ((setCS false (xferAll (head ++ fillers) (setCS true s))).mapH fun _ =>
      { s.h with ar := v, busy := true, fifo := replies fillers (xferAll head (setCS true s)) }) := by
  subst hhead hfill
  have htrig : startTrigger s.cfg s.h.ccr = .onAR := by rw [startTrigger, hm, hA, hD]; rfl
  rw [w32Ar_starts v hb htrig, execute_read (s.mapH fun h => { h with ar := v }) halt hD hm]
  dsimp only
  rw [readBurst_header (s.mapH fun h => { h with ar := v }) hf]
  simp only [setCS_mapH, xferAll_mapH, replies_mapH, mapH_mapH]
  rfl

@[simp] theorem addressBytes_length (ar : Word) (n : Nat) : (addressBytes ar n).length = n := by
  induction n with
  | zero => rfl
  | succ n ih => simp [addressBytes, ih]

/-- Reading the low bytes of AR most significant first gives the low bits of AR (30 R91, R92). -/
theorem foldl_addressBytes (ar : Word) (n m : Nat) :
    (addressBytes ar n).foldl (fun x b => x * 256 + b.toNat) m = m * 2 ^ (8 * n) + ar.toNat % 2 ^ (8 * n) := by
  induction n generalizing m with
  | zero => simp [addressBytes, Nat.mod_one]
  | succ n ih =>
    have hpow : 2 ^ (8 * (n + 1)) = 2 ^ (8 * n) * 256 := by rw [Nat.mul_succ, Nat.pow_add]
    have hbyte : (ar.extractLsb' (8 * n) 8).toNat = ar.toNat / 2 ^ (8 * n) % 256 := by
      rw [BitVec.extractLsb'_toNat, Nat.shiftRight_eq_div_pow]
    rw [addressBytes, List.foldl_cons, ih, hbyte, hpow, Nat.mod_mul]
    ring

theorem addressOf_addressBytes (ar : Word) (n : Nat) : addressOf (addressBytes ar n) = ar.toNat % 2 ^ (8 * n) % 2 ^ 24 := by
  rw [addressOf, foldl_addressBytes, Nat.zero_mul, Nat.zero_add]

/-- Asserting chip-select, exchanging bytes and releasing it is one frame on the trace (40 R116). -/
theorem frame_trace (s : State) (bs : List Byte) :
    (setCS false (xferAll bs (setCS true s))).l.trace =
      s.l.trace ++ [.cs true] ++ exchanges bs (frameReplies s bs) ++ [.cs false] := by
  rw [setCS_trace, xferAll_trace, setCS_trace]
  rfl

/-- The header of an indirect read is a Fast-Read's opcode, address and dummy bytes where the configured fields say so (42 R164). -/
theorem headerBytes_fastRead {c : Cfg} {ccr : Word} (ar : Word) (hop : ccrInstruction c ccr = c.ops.fread)
    (hA : addressPhase c ccr = true) (hsize : addressSize c ccr = c.addrBytes) (hdummy : dummyBytes c ccr = c.fastReadDummy) :
    headerBytes c ccr ar = c.ops.fread :: (addressBytes ar c.addrBytes ++ List.replicate c.fastReadDummy c.fillerByte) := by
  rw [headerBytes, hop, if_pos hA, hsize, hdummy]

/-- A Fast-Read as a frame of its own changes no storage byte and no status bit, and raises nothing. -/
theorem fastRead_frame (h : readyForOpcode (setCS true s)) (h0 : addr ≠ []) (ha : addr.length = s.cfg.addrBytes)
    (hd : ds.length = s.cfg.fastReadDummy) (outs : List Byte) :
    let t := setCS false (xferAll (s.cfg.ops.fread :: (addr ++ ds) ++ outs) (setCS true s))
    sameStorage s t ∧ t.diag = s.diag ∧ t.f.sr = s.f.sr := by
  have hrun : xferAll (s.cfg.ops.fread :: (addr ++ ds) ++ outs) (setCS true s) = afterFastRead addr ds outs (setCS true s) :=
    xferAll_fastRead h h0 ha hd
  dsimp only
  rw [hrun]
  refine ⟨sameStorage_of_eq ?_, setCS_diag_eq _ _, ?_⟩ <;> rw [setCS_false_flash] <;> rfl

/-- The replies to its data exchanges are the storage bytes from the address on. -/
theorem fastRead_frame_replies (h : readyForOpcode (setCS true s)) (h0 : addr ≠ []) (ha : addr.length = s.cfg.addrBytes)
    (hd : ds.length = s.cfg.fastReadDummy) (outs : List Byte) :
    replies outs (xferAll (s.cfg.ops.fread :: (addr ++ ds)) (setCS true s)) = storageRead s (addressOf addr) outs.length := by
  have hhead : xferAll (s.cfg.ops.fread :: (addr ++ ds)) (setCS true s) = afterFastRead addr ds [] (setCS true s) :=
    xferAll_fastRead_header h h0 ha hd
  rw [hhead]
  exact (xferAll_fastRead_data (s := setCS true s) (shapeOk_sizes h.1).1).2

/-- Settles O25: the frame is a Fast-Read's, and the burst is its data exchanges. -/
theorem fastReadReturnsStorage : Obligations.FastReadReturnsStorage := by
  intro s v hshape hb hf hidle hm hA hD halt hop hsize hdummy
  have hready : readyForOpcode (setCS true s) := ⟨hshape, rfl, hidle⟩
  have hhead := headerBytes_fastRead v hop hA hsize hdummy
  have hlen : (addressBytes v s.cfg.addrBytes).length = s.cfg.addrBytes := addressBytes_length _ _
  have h0 : addressBytes v s.cfg.addrBytes ≠ [] := by
    rw [← List.length_pos_iff, hlen, ← hsize]
    exact Nat.succ_pos _
  have hd : (List.replicate s.cfg.fastReadDummy s.cfg.fillerByte).length = s.cfg.fastReadDummy := List.length_replicate
  obtain ⟨hstorage, hdiag, hsr⟩ := fastRead_frame hready h0 hlen hd (List.replicate (dataLength s.h.dlr) s.cfg.fillerByte)
  have hfifo := fastRead_frame_replies hready h0 hlen hd (List.replicate (dataLength s.h.dlr) s.cfg.fillerByte)
  rw [addressOf_addressBytes, List.length_replicate] at hfifo
  refine ⟨_, w32Ar_indirectRead v hb hf hm hA hD halt hhead rfl, ?_, hstorage, hdiag, hsr, ?_⟩
  · rw [mapH_h, hfifo]
    rfl
  · rw [hhead]
    exact frame_trace _ _

/-! ### Erase (43 R192, R193, R202) -/

/-- What an erase inside storage does: the aligned region is filled, busy is set, and with a backing the region is queued as all
0xFF (44 R231). -/
theorem erase_inside_eq (n : Nat) (hw : s.f.sr.getLsbD s.cfg.srWelBit = true) (hc : alignedBase s.f.acc.toNat n < s.cfg.capacity) :
    erase n s = { s with
      f := setBusy s.cfg { s.f with storage := s.f.storage.fillErased (alignedBase s.f.acc.toNat n) n }
      b := if s.cfg.hasBacking then
        { s.b with queue := s.b.queue ++ [{ off := alignedBase s.f.acc.toNat n, len := n, data := [] }] } else s.b } := by
  rw [erase_inside n s hw hc]
  cases hb : s.cfg.hasBacking
  · rw [writeAsync_volatile _ _ (s.mapF _) hb]
    rfl
  · rw [writeAsync_backing _ _ (s.mapF _) hb, mapF_f, fillErased_slice]
    rfl

/-- What an erase command of `size` bytes, opcode `op` and address bytes `addr`, leaves when it erases. -/
def afterErase (op : Byte) (addr : List Byte) (size : Nat) (s : State) : State :=
  { s with
    l := { s.l with trace := s.l.trace ++ silentExchanges s (op :: addr) }
    f := { s.f with resetArmed := false, cmd := op, pos := s.cfg.addrBytes, acc := BitVec.ofNat 24 (addressOf addr),
                    storage := s.f.storage.fillErased (alignedBase (addressOf addr) size) size,
                    sr := s.f.sr ||| bitMask s.cfg.srBusyBit, srClear := s.f.srClear ||| bitMask s.cfg.srBusyBit }
    b := if s.cfg.hasBacking then
      { s.b with queue := s.b.queue ++ [{ off := alignedBase (addressOf addr) size, len := size, data := [] }] } else s.b }

/-- The erase at the collected address, then Idle again. -/
theorem erase_addressed (op : Byte) (size : Nat) (hi : s.f.pstate = .idle) (hw : s.f.sr.getLsbD s.cfg.srWelBit = true)
    (ha : addr.length = s.cfg.addrBytes) (hc : alignedBase (addressOf addr) size < s.cfg.capacity) :
    toPState .idle (erase size (addressed op addr [] s)) = afterErase op addr size s := by
  have hacc : (addressed op addr [] s).f.acc.toNat = addressOf addr := addressOf_toNat addr
  rw [erase_inside_eq (s := addressed op addr [] s) size hw (by rw [hacc]; exact hc), hacc]
  simp only [addressed, afterErase, toPState, State.mapF, setBusy, List.append_nil, List.length_nil, Nat.add_zero, ha, hi]

/-- Both erase commands, with the latch set and the region starting inside storage. -/
theorem xferAll_erase {k : FlashCmd} {size : Nat} (h : readyForOpcode s)
    (hk : k = .sse ∧ size = s.cfg.subsectorSize ∨ k = .be ∧ size = s.cfg.blockSize)
    (hw : s.f.sr.getLsbD s.cfg.srWelBit = true) (h0 : addr ≠ []) (ha : addr.length = s.cfg.addrBytes)
    (hc : alignedBase (addressOf addr) size < s.cfg.capacity) :
    xferAll (s.cfg.opByte k :: addr) s = afterErase (s.cfg.opByte k) addr size s := by
  rw [← erase_addressed (s.cfg.opByte k) size h.2.2 hw ha hc]
  have hrun (hc : k = .pp ∨ k = .sse ∨ k = .be ∨ k = .fread) (hn : collectNeed s.cfg (some k) = s.cfg.addrBytes) :
      xferAll (s.cfg.opByte k :: addr) s = dispatchAs (addressed (s.cfg.opByte k) addr [] s) k := by
    have e := xferAll_addressed_command (ds := []) k h hc h0 ha (ha.trans hn.symm)
    rwa [List.append_nil] at e
  rcases hk with ⟨rfl, rfl⟩ | ⟨rfl, rfl⟩
  · exact hrun (by simp) rfl
  · exact hrun (by simp) rfl

/-- A pending write that lists nothing is all 0xFF. -/
theorem pendingWrite_bytes_nil (off len : Nat) :
    PendingWrite.bytes { off := off, len := len, data := [] } = List.replicate len 0xFF#8 := by
  simp [PendingWrite.bytes, Memory.bytes]

/-- Settles O44: either command leaves `afterErase`, read field by field. -/
theorem eraseFillsAlignedRegion : Obligations.EraseFillsAlignedRegion := by
  rintro s addr i op a size hi h hw h0 ha rfl hc
  have hexec : exec i s = .next (afterErase op addr size s) := by
    rcases hi with ⟨rfl, rfl, rfl⟩ | ⟨rfl, rfl, rfl⟩
    · exact (exchange_selected _ s h.2.1).trans (congrArg _ (xferAll_erase (k := .sse) h (.inl ⟨rfl, rfl⟩) hw h0 ha hc))
    · exact (exchange_selected _ s h.2.1).trans (congrArg _ (xferAll_erase (k := .be) h (.inr ⟨rfl, rfl⟩) hw h0 ha hc))
  refine ⟨_, hexec, ⟨rfl, rfl, rfl, rfl, rfl, rfl⟩, erasedRegion_of_eq rfl, rfl, rfl, rfl, ?_, fun hb => ?_, fun hb => ?_⟩
  · dsimp only [afterErase]
    split <;> rfl
  · simp [afterErase, hb]
  · refine ⟨{ off := alignedBase (addressOf addr) size, len := size, data := [] }, ?_, rfl, pendingWrite_bytes_nil _ _⟩
    simp [afterErase, hb]

end Sys2Proof.Machine
end

section
/-! SUPPORT. The encoder and the decoder are inverse, O1 and O2, and a frame taken command by command does what its bytes do, O7
(30_encoding R80, R81, R89, R98; 40 R110). -/

namespace Sys2Proof.Machine

/-! ### Register operations (30_encoding R80, R81; 20_memory R51, R52) -/

theorem decode_of_decodeAccess {c : Cfg} {a : RegAccess} {i : Instr} (h : decodeAccess c a = .ok i) :
    decode c (.access a) = .ok (i, []) := (decode_access c a i []).mpr ⟨h, rfl⟩

/-- At the offset of a register the decoder finds that register. -/
theorem decodeAccess_register {c : Cfg} (hc : c.shapeOk = true) (r : Reg) (a : Access) (w : Nat) :
    decodeAccess c { acc := a, off := c.offset r, width := w } =
      .ok (match a with | .read => regReadInstr w r | .write v => regWriteInstr w v r) := by
  rw [decodeAccess, if_neg (Nat.not_le.mpr ((shapeOk_tables c hc).2.2.2 r).2), registerAt_offset c r hc]
  cases a <;> rfl

theorem decode_writeCode {c : Cfg} (hc : c.shapeOk = true) (r : Reg) (w : Nat) (v : Word) :
    decode c (writeCode c r w v) = .ok (regWriteInstr w v r, []) :=
  decode_of_decodeAccess (decodeAccess_register hc r (.write v) w)

theorem decode_readCode {c : Cfg} (hc : c.shapeOk = true) (r : Reg) (w : Nat) :
    decode c (readCode c r w) = .ok (regReadInstr w r, []) :=
  decode_of_decodeAccess (decodeAccess_register hc r .read w)

theorem encode_regWriteInstr (c : Cfg) (w : Nat) (v : Word) (r : Reg) : encode c (regWriteInstr w v r) = writeCode c r w v := by
  cases r <;> rfl

theorem encode_regReadInstr (c : Cfg) (w : Nat) (r : Reg) : encode c (regReadInstr w r) = readCode c r w := by
  cases r <;> rfl

theorem wellFormed_regWriteInstr (c : Cfg) (w : Nat) (v : Word) (r : Reg) : WellFormed c (regWriteInstr w v r) = true := by
  cases r <;> rfl

theorem wellFormed_regReadInstr (c : Cfg) (w : Nat) (r : Reg) : WellFormed c (regReadInstr w r) = true := by
  cases r <;> rfl

/-! ### Reserved offsets (20_memory R52; log 11) -/

theorem reservedOffset_iff (c : Cfg) (off : Nat) : reservedOffset c off = true ↔ off < c.regWindowLen ∧ registerAt c off = none := by
  rw [reservedOffset, Bool.and_eq_true, decide_eq_true_eq, registerAt_eq_none]

theorem decode_reserved {c : Cfg} {a : Access} {off w : Nat} (h : reservedOffset c off = true) :
    decode c (.access { acc := a, off := off, width := w }) = .ok (reservedInstr a off w, []) := by
  obtain ⟨hlt, hnone⟩ := (reservedOffset_iff c off).mp h
  exact decode_of_decodeAccess (by rw [decodeAccess, if_neg (Nat.not_le.mpr hlt), hnone])

theorem encode_reservedInstr (c : Cfg) (a : Access) (off w : Nat) :
    encode c (reservedInstr a off w) = .access { acc := a, off := off, width := w } := by
  unfold reservedInstr
  split
  · rfl
  · split <;> rfl

/-- The three rows share out the reserved offsets: each is well formed in its own range. -/
theorem wellFormed_reservedInstr (c : Cfg) (a : Access) (off w : Nat) :
    WellFormed c (reservedInstr a off w) = reservedOffset c off := by
  unfold reservedInstr
  split
  · next hlo => simp [WellFormed, hlo]
  · next hlo =>
    split
    · next hmid => simp [WellFormed, hmid, Nat.not_lt.mp hlo]
    · next hmid => simp [WellFormed, Nat.not_lt.mp hmid]

/-- A well-formed instruction of a reserved row is the one its offset selects. -/
theorem wellFormed_reserved {c : Cfg} {i : Instr} {a : Access} {off w : Nat}
    (hi : i = .reserved04 a off w ∨ i = .reserved1C a off w ∨ i = .reserved30 a off w) (h : WellFormed c i = true) :
    reservedOffset c off = true ∧ reservedInstr a off w = i := by
  rcases hi with rfl | rfl | rfl <;>
    simp only [WellFormed, Bool.and_eq_true, decide_eq_true_eq] at h
  · exact ⟨h.1, if_pos h.2⟩
  · obtain ⟨⟨hres, hlo⟩, hmid⟩ := h
    exact ⟨hres, (if_neg (Nat.not_lt.mpr hlo)).trans (if_pos hmid)⟩
  · obtain ⟨hres, hmid⟩ := h
    exact ⟨hres, (if_neg (by omega)).trans (if_neg (by omega))⟩

theorem decode_reserved_row {c : Cfg} {i : Instr} {a : Access} {off w : Nat}
    (hi : i = .reserved04 a off w ∨ i = .reserved1C a off w ∨ i = .reserved30 a off w) (h : WellFormed c i = true) :
    decode c (.access { acc := a, off := off, width := w }) = .ok (i, []) := by
  obtain ⟨hres, hrow⟩ := wellFormed_reserved hi h
  rw [decode_reserved hres, hrow]

/-! ### Flash commands (30_encoding R89, R90, R97, R98) -/

theorem splitOperands_append (c : Cfg) (k : FlashCmd) (bs : List Byte) :
    (splitOperands c k bs).1 ++ (splitOperands c k bs).2 = bs := by
  unfold splitOperands
  split
  · exact List.take_append_drop _ bs
  · exact List.append_nil bs

/-- The operands split off are no more than the command's format has. -/
theorem operandsOk_splitOperands (c : Cfg) (k : FlashCmd) (bs : List Byte) : operandsOk c k (splitOperands c k bs).1 = true := by
  unfold operandsOk splitOperands
  cases k.operandLimit c with
  | none => rfl
  | some n => simp

/-- Operands within the command's format are taken whole. -/
theorem splitOperands_of_operandsOk {c : Cfg} {k : FlashCmd} {ops : List Byte} (h : operandsOk c k ops = true) :
    splitOperands c k ops = (ops, []) := by
  unfold operandsOk at h
  unfold splitOperands
  cases hl : k.operandLimit c with
  | none => rfl
  | some n =>
    simp only [hl, decide_eq_true_eq] at h
    simp [List.take_of_length_le h, h]

theorem decode_flashCode {c : Cfg} (hc : c.shapeOk = true) (k : FlashCmd) {ops : List Byte} (h : operandsOk c k ops = true) :
    decode c (flashCode c k ops) = .ok (flashInstr ops k, []) := by
  show decodeFrame c (c.opByte k :: ops) = _
  rw [decodeFrame, flashCmdOf_opByte c k hc]
  dsimp only
  rw [splitOperands_of_operandsOk h]

theorem decode_unknown {c : Cfg} {b : Byte} (h : unknownOpcode c b = true) : decode c (.frame [b]) = .ok (.unknown b, []) := by
  show decodeFrame c [b] = _
  rw [decodeFrame, (flashCmdOf_eq_none c b).mpr h]

/-- A command of one byte has no operand to lose, so the encoder gives back what was taken. -/
theorem encode_flashInstr {c : Cfg} {k : FlashCmd} {ops : List Byte} (h : operandsOk c k ops = true) :
    encode c (flashInstr ops k) = flashCode c k ops := by
  have one_byte (h0 : k.operandLimit c = some 0) : ops = [] := by simpa [operandsOk, h0] using h
  cases k
  case wrreg | rdsr | rdfsr | rdcfg | fread | rdid | pp | sse | be => rfl
  all_goals rw [one_byte rfl]; rfl

theorem wellFormed_flashInstr {c : Cfg} {k : FlashCmd} {ops : List Byte} (h : operandsOk c k ops = true) :
    WellFormed c (flashInstr ops k) = true := by
  cases k
  case wrreg | rdsr | rdfsr | rdcfg | fread | rdid | pp | sse | be => exact h
  all_goals rfl

/-! ### The round trips -/

/-- The decoder inverts the encoder on each row of the table. -/
theorem decode_encode {c : Cfg} (hc : c.shapeOk = true) : (i : Instr) → WellFormed c i = true → decode c (encode c i) = .ok (i, [])
  | .w32Cr w v, _ => decode_writeCode hc .cr w v
  | .r32Cr w, _ => decode_readCode hc .cr w
  | .w32Sr w v, _ => decode_writeCode hc .sr w v
  | .r32Sr w, _ => decode_readCode hc .sr w
  | .w32Fcr w v, _ => decode_writeCode hc .fcr w v
  | .r32Fcr w, _ => decode_readCode hc .fcr w
  | .w32Dlr w v, _ => decode_writeCode hc .dlr w v
  | .r32Dlr w, _ => decode_readCode hc .dlr w
  | .w32Ccr w v, _ => decode_writeCode hc .ccr w v
  | .r32Ccr w, _ => decode_readCode hc .ccr w
  | .w32Ar w v, _ => decode_writeCode hc .ar w v
  | .r32Ar w, _ => decode_readCode hc .ar w
  | .w8Dr w v, _ => decode_writeCode hc .dr w v
  | .r8Dr w, _ => decode_readCode hc .dr w
  | .w32Psmkr w v, _ => decode_writeCode hc .psmkr w v
  | .r32Psmkr w, _ => decode_readCode hc .psmkr w
  | .w32Psmar w v, _ => decode_writeCode hc .psmar w v
  | .r32Psmar w, _ => decode_readCode hc .psmar w
  | .w32Pir w v, _ => decode_writeCode hc .pir w v
  | .r32Pir w, _ => decode_readCode hc .pir w
  | .reserved04 _ _ _, h => decode_reserved_row (.inl rfl) h
  | .reserved1C _ _ _, h => decode_reserved_row (.inr (.inl rfl)) h
  | .reserved30 _ _ _, h => decode_reserved_row (.inr (.inr rfl)) h
  | .rsten, _ => decode_flashCode hc .rsten rfl
  | .rst, _ => decode_flashCode hc .rst rfl
  | .wren, _ => decode_flashCode hc .wren rfl
  | .wrdi, _ => decode_flashCode hc .wrdi rfl
  | .wrreg _, h => decode_flashCode hc .wrreg h
  | .rdsr _, h => decode_flashCode hc .rdsr h
  | .rdfsr _, h => decode_flashCode hc .rdfsr h
  | .rdcfg _, h => decode_flashCode hc .rdcfg h
  | .fread _, h => decode_flashCode hc .fread h
  | .rdid _, h => decode_flashCode hc .rdid h
  | .pp _, h => decode_flashCode hc .pp h
  | .sse _, h => decode_flashCode hc .sse h
  | .be _, h => decode_flashCode hc .be h
  | .esus, _ => decode_flashCode hc .esus rfl
  | .eres, _ => decode_flashCode hc .eres rfl
  | .dslp, _ => decode_flashCode hc .dslp rfl
  | .wake, _ => decode_flashCode hc .wake rfl
  | .qen, _ => decode_flashCode hc .qen rfl
  | .unknown _, h => decode_unknown h

/-- Settles O1, row by row. -/
theorem decodeOfEncodeIsIdentity : Obligations.DecodeOfEncodeIsIdentity := fun _ i hc hi => decode_encode hc i hi

/-- What is decoded from a register operation is well formed and encoded as it. -/
theorem encode_of_decodeAccess {c : Cfg} {a : RegAccess} {i : Instr} (h : decodeAccess c a = .ok i) :
    WellFormed c i = true ∧ encode c i = .access a := by
  obtain ⟨acc, off, w⟩ := a
  obtain ⟨hlt, ⟨r, hr, ⟨rfl, rfl⟩ | ⟨v, rfl, rfl⟩⟩ | ⟨hnone, rfl⟩⟩ := decodeAccess_ok h
  · rw [← offset_of_registerAt c off r hr]
    exact ⟨wellFormed_regReadInstr c w r, encode_regReadInstr c w r⟩
  · rw [← offset_of_registerAt c off r hr]
    exact ⟨wellFormed_regWriteInstr c w v r, encode_regWriteInstr c w v r⟩
  · exact ⟨(wellFormed_reservedInstr c acc off w).trans ((reservedOffset_iff c off).mpr ⟨hlt, hnone⟩),
      encode_reservedInstr c acc off w⟩

/-- What is decoded from a frame is well formed, and its encoding heads the frame. -/
theorem encode_of_decodeFrame {c : Cfg} {bs rest : List Byte} {i : Instr} (h : decodeFrame c bs = .ok (i, rest)) :
    WellFormed c i = true ∧ ∃ used, encode c i = .frame used ∧ bs = used ++ rest := by
  cases bs with
  | nil => cases h
  | cons b bs =>
    rw [decodeFrame] at h
    cases hk : flashCmdOf c b with
    | none =>
      rw [hk] at h
      cases h
      exact ⟨(flashCmdOf_eq_none c b).mp hk, [b], rfl, rfl⟩
    | some k =>
      rw [hk] at h
      cases h
      have hops := operandsOk_splitOperands c k bs
      refine ⟨wellFormed_flashInstr hops, _, encode_flashInstr hops, ?_⟩
      rw [opByte_of_flashCmdOf c b k hk, List.cons_append, splitOperands_append]

/-- Settles O2, one encoding space at a time. -/
theorem encodeOfDecodeIsInput : Obligations.EncodeOfDecodeIsInput := by
  intro c i rest
  constructor
  · intro a h
    obtain ⟨hdec, hrest⟩ := (decode_access c a i rest).mp h
    obtain ⟨hwf, henc⟩ := encode_of_decodeAccess hdec
    exact ⟨hwf, hrest, henc⟩
  · exact fun bs h => encode_of_decodeFrame h

/-! ### A frame, command by command (30_encoding R98, 40 R110) -/

variable {s t : State} {is : List Input}

/-- An instruction encoded as a frame is the exchange of that frame's bytes. -/
theorem exec_of_encode_frame {i : Instr} {used : List Byte} (h : encode s.cfg i = .frame used) : exec i s = exchange used s := by
  cases i <;> cases h <;> rfl

/-- An instruction encoded as a frame has at least its opcode byte. -/
theorem encode_frame_ne_nil {c : Cfg} {i : Instr} {used : List Byte} (h : encode c i = .frame used) : used ≠ [] := by
  cases i <;> cases h <;> exact List.cons_ne_nil _ _

/-- The inputs waiting have no part in a run of exchanges. -/
theorem xferAll_withInbox (bs : List Byte) (is : List Input) (s : State) :
    xferAll bs (s.withInbox is) = (xferAll bs s).withInbox is := by
  have hnew := xferAll_outer s.h s.l is bs s
  have hold := xferAll_outer s.h s.l s.inbox bs s
  rw [outer_self] at hold
  exact hnew.trans (congrArg (fun u => u.withInbox is) hold).symm

/-- A step takes a whole command from a frame in Idle and one byte otherwise: at least one byte, the rest put back. -/
theorem step_takes_bytes {b : Byte} {bs : List Byte} (hcs : s.l.cs = true) (hin : s.inbox = .code (.frame (b :: bs)) :: is) :
    ∃ used more, used ≠ [] ∧ b :: bs = used ++ more ∧ step s = .next (xferAll used (pushFrame more (s.withInbox is))) := by
  have hcs' (more : List Byte) : (pushFrame more (s.withInbox is)).l.cs = true := by rw [pushFrame_inbox]; exact hcs
  have hcfg (more : List Byte) : (pushFrame more (s.withInbox is)).cfg = s.cfg := by rw [pushFrame_inbox]
  rw [step_frame hin]
  by_cases hp : s.f.pstate = .idle
  · obtain ⟨i, more, hdec⟩ := decodeFrame_cons s.cfg b bs
    obtain ⟨-, used, henc, hsplit⟩ := encode_of_decodeFrame hdec
    refine ⟨used, more, encode_frame_ne_nil henc, hsplit, ?_⟩
    rw [fetchFrame_idle (s := s.withInbox is) hp hdec, ← exchange_selected _ _ (hcs' more)]
    exact exec_of_encode_frame (by rw [hcfg]; exact henc)
  · refine ⟨[b], bs, List.cons_ne_nil _ _, rfl, ?_⟩
    rw [fetchFrame_not_idle (s := s.withInbox is) hp, ← exchange_selected _ _ (hcs' bs)]
    rfl

theorem runSteps_of_step {n : Nat} (h : step s = .next t) : runSteps (n + 1) s = runSteps n t := by
  rw [runSteps, h]

/-- A frame that is the next input is taken whole by some number of steps. -/
theorem runSteps_frame (bs : List Byte) (s : State) (hcs : s.l.cs = true) (hin : s.inbox = .code (.frame bs) :: is) :
    ∃ n, runSteps n s = .next (xferAll bs (s.withInbox is)) := by
  induction hlen : bs.length using Nat.strong_induction_on generalizing bs s with
  | _ m ih =>
    cases bs with
    | nil => exact ⟨1, runSteps_of_step (step_frame hin)⟩
    | cons b rest =>
      obtain ⟨used, more, hne, hsplit, hstep⟩ := step_takes_bytes hcs hin
      have hshort : more.length < m := by
        have hpos := List.length_pos_iff.mpr hne
        rw [← hlen, hsplit, List.length_append]
        omega
      rw [hsplit, xferAll_append]
      by_cases hmore : more = []
      · subst hmore
        exact ⟨1, runSteps_of_step hstep⟩
      · have hpush : pushFrame more (s.withInbox is) = s.withInbox (.code (.frame more) :: is) := if_neg hmore
        rw [hpush, xferAll_withInbox] at hstep
        obtain ⟨n, hn⟩ := ih more.length hshort more ((xferAll used s).withInbox (.code (.frame more) :: is))
          (by rw [withInbox_l, xferAll_cs, hcs]) rfl rfl
        refine ⟨n + 1, (runSteps_of_step hstep).trans (hn.trans ?_)⟩
        rw [xferAll_withInbox used is s]
        rfl

/-- Settles O7, by induction on the bytes left. -/
theorem frameRunsByteByByte : Obligations.FrameRunsByteByByte := fun s _ bs hcs hin => runSteps_frame bs s hcs hin

end Sys2Proof.Machine
end

section
/-! SUPPORT. The bytes of a transaction: the header from the raw fields, O21, the indirect read, O24, and auto-polling, O30 (30_encoding
R92 to R95; 42 R153 to R159, R163). -/

namespace Sys2Proof.Machine

variable {s : State} {n : Nat}

/-! ### The header's bytes (30_encoding R92, R94) -/

/-- One byte of AR, as a number. -/
theorem extract_byte (ar : Word) (n : Nat) : ar.extractLsb' (8 * n) 8 = BitVec.ofNat 8 (ar.toNat / 256 ^ n) := by
  apply BitVec.eq_of_toNat_eq
  rw [BitVec.extractLsb'_toNat, BitVec.toNat_ofNat, Nat.shiftRight_eq_div_pow, Nat.pow_mul]

/-- The low bytes of AR by position, most significant first. -/
theorem addressBytes_eq_map (ar : Word) (n : Nat) :
    addressBytes ar n = (List.range n).map (fun j => BitVec.ofNat 8 (ar.toNat / 256 ^ (n - 1 - j))) := by
  induction n with
  | zero => rfl
  | succ n ih =>
    rw [addressBytes, ih, extract_byte, List.range_succ_eq_map, List.map_cons, List.map_map]
    simp only [Nat.add_sub_cancel, Nat.sub_zero, Function.comp_def, Nat.succ_eq_add_one, Nat.sub_sub, Nat.add_comm 1]

/-- The instruction byte is a given byte exactly when the field's number is. -/
theorem ccrInstruction_eq_iff (c : Cfg) (ccr : Word) (b : Byte) :
    ccrInstruction c ccr = b ↔ ccr.toNat / 2 ^ c.bits.instruction % 256 = b.toNat := by
  rw [← BitVec.toNat_inj, ccrInstruction, BitVec.toNat_ofNat, bitField, Nat.mod_mod]
  rfl

theorem dummyBytes_eq (c : Cfg) (ccr : Word) :
    dummyBytes c ccr =
      if ccr.toNat / 2 ^ c.bits.instruction % 256 = c.quirkInstruction.toNat ∧ ccr.toNat / 2 ^ c.bits.dcyc % 32 = c.quirkDcyc
      then c.quirkBytes else ccr.toNat / 2 ^ c.bits.dcyc % 32 := by
  simp only [dummyBytes, ccrInstruction_eq_iff]
  rfl

/-- The address bytes of a header, none where the address mode is 0. -/
theorem headerAddress_eq (c : Cfg) (ccr ar : Word) :
    (if addressPhase c ccr then addressBytes ar (addressSize c ccr) else []) =
      addressBytes ar (if ccr.toNat / 2 ^ c.bits.admode % 4 = 0 then 0 else ccr.toNat / 2 ^ c.bits.adsize % 4 + 1) := by
  have hA : addressPhase c ccr = true ↔ ¬ ccr.toNat / 2 ^ c.bits.admode % 4 = 0 := bne_iff_ne
  by_cases h : ccr.toNat / 2 ^ c.bits.admode % 4 = 0
  · rw [if_pos h, if_neg (fun hp => hA.mp hp h)]
    rfl
  · rw [if_neg h, if_pos (hA.mpr h)]
    rfl

/-- Settles O21, part by part of the header. -/
theorem headerBytesFollowFields : Obligations.HeaderBytesFollowFields := by
  rintro c ccr ar i y n d rfl rfl rfl rfl
  rw [headerBytes, headerAddress_eq, addressBytes_eq_map, dummyBytes_eq]
  rfl

/-! ### A transaction as one frame (40 R116) -/

/-- The state after the frame of the host bytes `outs`, with the host controller left at `h`. -/
def afterFrame (outs : List Byte) (h : HostCtl) (s : State) : State :=
  (setCS false (xferAll outs (setCS true s))).mapH fun _ => h

theorem afterFrame_oneFrame (outs : List Byte) (h : HostCtl) (s : State) : oneFrame s (afterFrame outs h s) outs :=
  frame_trace s outs

theorem afterFrame_sameAsFrame (outs : List Byte) (h : HostCtl) (s : State) : SameAsFrame s (afterFrame outs h s) outs :=
  ⟨setCS_cs false _, rfl, rfl, rfl⟩

theorem afterFrame_sameModelSide (outs : List Byte) (h : HostCtl) (s : State) : SameModelSide s (afterFrame outs h s) where
  cfg := by simp [afterFrame]
  inbox := by simp [afterFrame]
  rdata := by simp [afterFrame]
  draws := by simp [afterFrame]

/-- Settles O24: the AR write is the frame of header and fillers. -/
theorem indirectReadFillsFifo : Obligations.IndirectReadFillsFifo := by
  rintro s v head fillers hb hf ht hm hD halt rfl rfl
  refine ⟨_, w32Ar_indirectRead v hb hf hm (trigger_onAR ht).1 hD halt rfl rfl, ?_⟩
  exact ⟨afterFrame_sameModelSide _ _ s, rfl, afterFrame_oneFrame _ _ s, afterFrame_sameAsFrame _ _ s⟩

/-! ### The polling response (30_encoding R95) -/

/-- One more byte below a number, kept to 32 bits. -/
theorem byte_or_shift (b : Byte) (n : Nat) : b.setWidth 32 ||| (BitVec.ofNat 32 n <<< 8) = BitVec.ofNat 32 (b.toNat + 256 * n) := by
  have hb : b.toNat < 2 ^ 8 := b.isLt
  apply BitVec.eq_of_getLsbD_eq
  intro i hi
  have hsum : b.toNat + 256 * n = 2 ^ 8 * n + b.toNat := by omega
  rw [BitVec.getLsbD_ofNat, hsum, Nat.testBit_two_pow_mul_add _ hb]
  simp only [BitVec.getLsbD_or, BitVec.getLsbD_shiftLeft, BitVec.getLsbD_setWidth, BitVec.getLsbD_ofNat]
  by_cases h8 : i < 8
  · simp [h8, hi, BitVec.testBit_toNat]
  · simp [h8, hi, BitVec.getLsbD_of_ge b i (by omega), show i - 8 < 32 by omega]

/-- The response is the number its bytes form, least significant first, of which 32 bits are kept. -/
theorem pollResponse_eq (bs : List Byte) : pollResponse bs = BitVec.ofNat 32 (littleEndian bs) := by
  induction bs with
  | nil => rfl
  | cons b bs ih => rw [pollResponse, ih, byte_or_shift, littleEndian]

/-! ### Polling iterations as a run of exchanges (42 R158) -/

/-- The host bytes of `k` polling iterations, the header of the frame apart. -/
def pollRun (s : State) (k : Nat) : List Byte :=
  pollBytes s.cfg.pollResponseBytes s.cfg.fillerByte (ccrInstruction s.cfg s.h.ccr) k

/-- The response of iteration `j` in a run of `k` iterations from `s` on. -/
def runAnswer (s : State) (k j : Nat) : Word := pollResponseAt (replies (pollRun s k) s) 0 s.cfg.pollResponseBytes j

theorem pollRun_one (s : State) : pollRun s 1 = pollFillers s.cfg := by
  simp [pollRun, pollBytes, pollFillers]

/-- A run of several iterations is the first one, the instruction byte, and a run of the rest. -/
theorem pollRun_succ {k : Nat} (hk : 1 ≤ k) (s : State) :
    pollRun s (k + 1) = pollFillers s.cfg ++ (ccrInstruction s.cfg s.h.ccr :: pollRun (pollResent s) k) := by
  rw [pollRun, pollBytes, if_neg (by omega), pollRun, pollResent_cfg, pollResent_h]
  rfl

theorem xferAll_pollRun_one (s : State) : xferAll (pollRun s 1) s = (pollExchange s).2 := by
  rw [pollRun_one]
  rfl

theorem xferAll_pollRun_succ {k : Nat} (hk : 1 ≤ k) (s : State) :
    xferAll (pollRun s (k + 1)) s = xferAll (pollRun (pollResent s) k) (pollResent s) := by
  rw [pollRun_succ hk, xferAll_append]
  rfl

theorem replies_pollRun_succ {k : Nat} (hk : 1 ≤ k) (s : State) :
    ∃ r, replies (pollRun s (k + 1)) s =
      replies (pollFillers s.cfg) s ++ r :: replies (pollRun (pollResent s) k) (pollResent s) := by
  rw [pollRun_succ hk, replies_append]
  exact ⟨_, rfl⟩

theorem replies_pollFillers_length (s : State) : (replies (pollFillers s.cfg) s).length = s.cfg.pollResponseBytes := by
  rw [replies_length, pollFillers, List.length_replicate]

/-- The first response is that of the first iteration, however many follow. -/
theorem runAnswer_zero {k : Nat} (hk : 1 ≤ k) (s : State) : runAnswer s k 0 = (pollExchange s).1 := by
  have hlen := replies_pollFillers_length s
  have htake : (replies (pollRun s k) s).take s.cfg.pollResponseBytes = replies (pollFillers s.cfg) s := by
    rcases Nat.lt_or_eq_of_le hk with hk | rfl
    · obtain ⟨k, rfl⟩ := Nat.exists_eq_add_of_lt hk
      obtain ⟨r, hr⟩ := replies_pollRun_succ (show 1 ≤ 1 + k by omega) s
      rw [hr, ← hlen, List.take_left]
    · rw [pollRun_one, ← hlen, List.take_length]
  rw [runAnswer, pollResponseAt, Nat.mul_zero, Nat.add_zero, List.drop_zero, htake, ← pollResponse_eq]
  rfl

/-- A later response is one of the run that starts after the first iteration. -/
theorem runAnswer_succ {k : Nat} (hk : 1 ≤ k) (s : State) (j : Nat) : runAnswer s (k + 1) (j + 1) = runAnswer (pollResent s) k j := by
  obtain ⟨r, hr⟩ := replies_pollRun_succ hk s
  have hdrop : (replies (pollRun s (k + 1)) s).drop (0 + (s.cfg.pollResponseBytes + 1) * (j + 1)) =
      (replies (pollRun (pollResent s) k) (pollResent s)).drop (0 + (s.cfg.pollResponseBytes + 1) * j) := by
    have hpos : 0 + (s.cfg.pollResponseBytes + 1) * (j + 1) =
        (replies (pollFillers s.cfg) s).length + (0 + (s.cfg.pollResponseBytes + 1) * j + 1) := by
      rw [replies_pollFillers_length]
      ring
    rw [hr, hpos, List.drop_length_add_append, List.drop_succ_cons]
  rw [runAnswer, pollResponseAt, hdrop, runAnswer, pollResponseAt, pollResent_cfg]

theorem pollHit_iff {k : Nat} (hk : 1 ≤ k) (s : State) : pollHit s = true ↔ runAnswer s k 0 &&& s.h.psmkr = s.h.psmar := by
  rw [runAnswer_zero hk, pollHit, pollMatches, beq_iff_eq]

/-- The polling loop, `n` further iterations allowed, from `s` to `t`: `k` iterations, none before the last matched, and the last one
matched, or was the last allowed. -/
structure PolledIn (n : Nat) (s t : State) (k : Nat) : Prop where
  positive : 1 ≤ k
  allowed : k ≤ n + 1
  missed : ∀ j, j + 1 < k → runAnswer s k j &&& s.h.psmkr ≠ s.h.psmar
  ended : (runAnswer s k (k - 1) &&& s.h.psmkr = s.h.psmar ∧ t = pollMatched (xferAll (pollRun s k) s)) ∨
    (runAnswer s k (k - 1) &&& s.h.psmkr ≠ s.h.psmar ∧ k = n + 1 ∧ t = pollTimedOut (xferAll (pollRun s k) s))

/-- A first iteration that matches ends the loop. -/
theorem polledIn_hit (n : Nat) (h : pollHit s = true) : PolledIn n s (pollMatched (pollExchange s).2) 1 where
  positive := Nat.le_refl 1
  allowed := Nat.le_add_left 1 n
  missed := fun _ hj => absurd hj (by omega)
  ended := .inl ⟨(pollHit_iff (Nat.le_refl 1) s).mp h, by rw [xferAll_pollRun_one]⟩

/-- The only allowed iteration does not match. -/
theorem polledIn_timeout (h : ¬ pollHit s = true) : PolledIn 0 s (pollTimedOut (pollExchange s).2) 1 where
  positive := Nat.le_refl 1
  allowed := Nat.le_refl 1
  missed := fun _ hj => absurd hj (by omega)
  ended := .inr ⟨fun e => h ((pollHit_iff (Nat.le_refl 1) s).mpr e), rfl, by rw [xferAll_pollRun_one]⟩

/-- A first iteration that does not match goes before those of the rest of the loop. -/
theorem PolledIn.after_miss {t : State} {k : Nat} (h : ¬ pollHit s = true) (p : PolledIn n (pollResent s) t k) :
    PolledIn (n + 1) s t (k + 1) where
  positive := Nat.le_add_left 1 k
  allowed := Nat.succ_le_succ p.allowed
  missed := by
    intro j hj
    cases j with
    | zero => exact fun e => h ((pollHit_iff (Nat.le_add_left 1 k) s).mpr e)
    | succ j =>
      rw [runAnswer_succ p.positive]
      simpa using p.missed j (by omega)
  ended := by
    obtain ⟨k, rfl⟩ := Nat.exists_eq_add_of_le' p.positive
    rw [Nat.add_sub_cancel, runAnswer_succ p.positive, xferAll_pollRun_succ p.positive, Nat.add_left_inj]
    simpa using p.ended

theorem polledIn_pollLoop (n : Nat) (s : State) : ∃ k, PolledIn n s (pollLoop n s) k := by
  induction n generalizing s with
  | zero =>
    rw [pollLoop_zero]
    split
    · next h => exact ⟨1, polledIn_hit 0 h⟩
    · next h => exact ⟨1, polledIn_timeout h⟩
  | succ n ih =>
    rw [pollLoop_succ]
    split
    · next h => exact ⟨1, polledIn_hit (n + 1) h⟩
    · next h =>
      obtain ⟨k, p⟩ := ih (pollResent s)
      exact ⟨k + 1, p.after_miss h⟩

/-! ### Auto-polling as one frame (42 R158, R159) -/

/-- The iterations of a frame follow its header. -/
theorem pollFrame_eq (s : State) (k : Nat) : pollFrame s k = headerBytes s.cfg s.h.ccr s.h.ar ++ pollRun (header s) k := by
  rw [pollRun, header_cfg, header_h]
  rfl

theorem frameReplies_pollFrame (s : State) (k : Nat) : frameReplies s (pollFrame s k) =
    replies (headerBytes s.cfg s.h.ccr s.h.ar) (setCS true s) ++ replies (pollRun (header s) k) (header s) := by
  rw [frameReplies, pollFrame_eq, replies_append]
  simp only [header_eq s, replies_mapH]

/-- A frame's responses are those of the run after its header. -/
theorem pollAnswer_eq (s : State) (k j : Nat) : pollAnswer s k j = runAnswer (header s) k j := by
  rw [pollAnswer, runAnswer, frameReplies_pollFrame, header_cfg, pollResponseAt, pollResponseAt, Nat.zero_add,
    ← replies_length (headerBytes s.cfg s.h.ccr s.h.ar) (setCS true s), List.drop_length_add_append]

/-- Releasing chip-select after the iterations, with flags and busy set, ends the frame. -/
theorem release_pollRun (s : State) (k : Nat) (g : HostCtl → HostCtl) :
    setCS false ((xferAll (pollRun (header s) k) (header s)).mapH g) =
      afterFrame (pollFrame s k) (g { s.h with busy := true }) s := by
  rw [setCS_mapH, pollFrame_eq, afterFrame, xferAll_append, header_eq, xferAll_mapH, setCS_mapH, mapH_mapH, mapH_const]
  simp

/-- The header, the loop and the release are one frame that polls as 42 R158 asks. -/
theorem autoPolled_autoPoll (s : State) :
    ∃ outs h, autoPoll (header s) = afterFrame outs h s ∧ AutoPolled s (afterFrame outs h s) := by
  obtain ⟨k, hpos, hallowed, hmissed, hended⟩ := polledIn_pollLoop (pollBudget s.cfg s.h.pir - 1) (header s)
  simp only [← pollAnswer_eq, header_h] at hmissed hended
  have hloop : autoPoll (header s) =
      (setCS false (pollLoop (pollBudget s.cfg s.h.pir - 1) (header s))).mapH (fun h => { h with busy := false }) := by
    rw [autoPoll, header_cfg, header_h]
  rw [hloop]
  rcases hended with ⟨hmatch, ht⟩ | ⟨hmiss, hk, ht⟩
  · refine ⟨pollFrame s k, { s.h with smf := true, busy := false }, ?_, k, hpos, by omega, afterFrame_oneFrame _ _ s,
      afterFrame_sameAsFrame _ _ s, hmissed, fun _ => rfl, fun e => absurd hmatch e⟩
    rw [ht, pollMatched, release_pollRun]
    rfl
  · refine ⟨pollFrame s k, { s.h with tof := true, busy := false }, ?_, k, hpos, by omega, afterFrame_oneFrame _ _ s,
      afterFrame_sameAsFrame _ _ s, hmissed, fun e => absurd e hmiss, fun _ => ⟨by omega, rfl⟩⟩
    rw [ht, pollTimedOut, release_pollRun]
    rfl

/-- Executing a transaction in the auto-polling mode polls, whole. -/
theorem execute_autoPolled (halt : alternateBytes s.cfg s.h.ccr = false) (hm : functionalMode s.cfg s.h.ccr = .autoPolling) :
    SameModelSide s (execute s).2 ∧ AutoPolled s (execute s).2 := by
  obtain ⟨outs, h, heq, hp⟩ := autoPolled_autoPoll s
  rw [execute_poll s halt hm, heq]
  exact ⟨afterFrame_sameModelSide outs h s, hp⟩

/-- A CCR write whose latched value is its own trigger executes the transaction (41 R130). -/
theorem w32Ccr_starts (v : Word) (hb : s.h.busy = false) (ht : startTrigger s.cfg (ccrLatch s.cfg v) = .onCCR) :
    exec (.w32Ccr 4 v) s = .next (execute (s.mapH fun h => { h with ccr := ccrLatch s.cfg v })).2 := by
  have hpass : exec (.w32Ccr 4 v) s = .next (afterCcrWrite (s.mapH fun h => { h with ccr := ccrLatch s.cfg v })) :=
    congrArg Host.Outcome.next (regWrite_passes .ccr 4 _ s rfl (.inr hb))
  rw [hpass, afterCcrWrite, mapH_cfg, mapH_h, ht]

theorem pollBudget_default {c : Cfg} (h : c.pollBudgets = []) (pir : Word) : pollBudget c pir = pir.toNat + 1 := by
  rw [pollBudget, h]
  rfl

/-- Settles O30: either write executes the transaction from the latched state. -/
theorem autoPollingEndsWithMatchOrTimeout : Obligations.AutoPollingEndsWithMatchOrTimeout := by
  rintro s v x hb rfl
  refine ⟨fun ht hm halt => ?_, fun ht hm halt => ?_, fun h => pollBudget_default h _, rfl, rfl⟩
  · obtain ⟨hside, hp⟩ := execute_autoPolled (s := s.mapH fun h => { h with ccr := ccrLatch s.cfg v }) halt hm
    exact ⟨_, w32Ccr_starts v hb ht, ⟨hside.cfg, hside.inbox, hside.rdata, hside.draws⟩, hp⟩
  · obtain ⟨hside, hp⟩ := execute_autoPolled (s := s.mapH fun h => { h with ar := v }) halt hm
    exact ⟨_, w32Ar_starts v hb ht, ⟨hside.cfg, hside.inbox, hside.rdata, hside.draws⟩, hp⟩

end Sys2Proof.Machine
end

section
/-! SUPPORT. A command cut off by a deselect, O46 (43 R200; 44 R225, R228). -/

namespace Sys2Proof.Machine

variable {s t : State}

/-- The command of the opcode `op`, met in Idle in `s`, is open in `t`: beyond the opcode's common part only position, accumulator and
parser state of the device have moved, and the trace. -/
def OpenCommand (op : Byte) (s t : State) : Prop :=
  ∃ tr pos acc p, t = { s with
    l := { s.l with trace := tr }
    f := { s.f with resetArmed := false, cmd := op, pos := pos, acc := acc, pstate := p } }

/-- What a flush of the dirty page queues depends on storage, dirty page, configuration and backing alone. -/
theorem flushDirty_b_congr (hc : t.cfg = s.cfg) (hm : t.f.storage = s.f.storage) (hd : t.f.dirty = s.f.dirty) (hb : t.b = s.b) :
    (flushDirty t).b = (flushDirty s).b := by
  cases hq : s.f.dirty with
  | none => rw [flushDirty_clean s hq, flushDirty_clean t (hd.trans hq), hb]
  | some q =>
    rw [flushDirty_dirty s q hq, flushDirty_dirty t q (hd.trans hq), mapF_b, mapF_b, hc]
    cases hB : s.cfg.hasBacking with
    | false => rw [writeAsync_volatile _ _ s hB, writeAsync_volatile _ _ t (by rw [hc, hB]), hb]
    | true => rw [writeAsync_backing _ _ s hB, writeAsync_backing _ _ t (by rw [hc, hB]), mapB_b, mapB_b, hm, hb]

/-- An open command has touched nothing but the device and the link's trace. -/
theorem OpenCommand.unchanged {op : Byte} (h : OpenCommand op s t) : SameHostSide s t ∧ t.diag = s.diag ∧ t.b = s.b := by
  obtain ⟨tr, pos, acc, p, rfl⟩ := h
  exact ⟨⟨rfl, rfl, rfl, rfl, rfl, rfl⟩, rfl, rfl⟩

/-- A deselect abandons an open command: of it only the opcode's common part is left (44 R228). -/
theorem OpenCommand.deselect {op : Byte} (h : OpenCommand op s t) (hidle : s.f.pstate = .idle) :
    (setCS false t).f = { s.f with resetArmed := false, cmd := op, pos := 0, acc := 0#24, dirty := none } ∧
    (setCS false t).diag = s.diag ∧ (setCS false t).b = (beforeSnapshot s).b ∧ (setCS false t).h = s.h := by
  obtain ⟨tr, pos, acc, p, rfl⟩ := h
  refine ⟨?_, setCS_diag_eq _ _, ?_, setCS_h _ _⟩
  · rw [setCS_false_flash, ← hidle]
    rfl
  · rw [setCS_false_backing]
    exact flushDirty_b_congr rfl rfl rfl rfl

/-! ### The commands that stay open (43 R200; 44 R225, R226) -/

/-- A collecting command short of the bytes it needs. -/
theorem openCommand_collecting {k : FlashCmd} {ops : List Byte} (h : readyForOpcode s)
    (hk : k = .wrreg ∨ k = .fread ∨ k = .pp ∨ k = .sse ∨ k = .be) (hlen : ops.length < collectNeed s.cfg (some k)) :
    ∃ t, exchange (s.cfg.opByte k :: ops) s = .next t ∧ OpenCommand (s.cfg.opByte k) s t := by
  refine ⟨_, collecting_command_in_idle s k ops h hk, ?_⟩
  have hneed : (collectingFrom (s.cfg.opByte k) s).f.pos + ops.length <
      collectNeed s.cfg (flashCmdOf s.cfg (collectingFrom (s.cfg.opByte k) s).f.cmd) := by
    show 0 + ops.length < collectNeed s.cfg (flashCmdOf s.cfg (s.cfg.opByte k))
    rw [flashCmdOf_eq s k h.1, Nat.zero_add]
    exact hlen
  rw [xferAll_collecting ops (collectingFrom (s.cfg.opByte k) s) rfl hneed]
  exact ⟨_, _, _, _, rfl⟩

/-- A register command whose byte has not been exchanged. -/
theorem openCommand_register {k : FlashCmd} (h : readyForOpcode s) (hk : k = .rdsr ∨ k = .rdfsr ∨ k = .rdcfg) :
    ∃ t, exchange [s.cfg.opByte k] s = .next t ∧ OpenCommand (s.cfg.opByte k) s t := by
  refine ⟨_, command_in_idle s k [] h, ?_⟩
  rcases hk with rfl | rfl | rfl <;> exact ⟨_, _, _, .readingRegister, rfl⟩

/-- Identification bytes short of the last only move the position (44 R225). -/
theorem xferAll_identification (bs : List Byte) (s : State) (hp : s.f.pstate = .readingIdentification)
    (hlen : s.f.pos + bs.length < 3) :
    ∃ tr, xferAll bs s = { s with l := { s.l with trace := tr }, f := { s.f with pos := s.f.pos + bs.length } } := by
  induction bs generalizing s with
  | nil => exact ⟨s.l.trace, rfl⟩
  | cons b bs ih =>
    rw [List.length_cons] at hlen
    have hnext : (xfer b s).2 = noted b (idOf s.cfg s.f.pos) (s.mapF fun f => { f with pos := f.pos + 1 }) := by
      rw [xfer_identification b s hp]
      simp only [State.mapF, if_neg (show ¬ s.f.pos + 1 = 3 by omega)]
    obtain ⟨tr, htr⟩ := ih (noted b (idOf s.cfg s.f.pos) (s.mapF fun f => { f with pos := f.pos + 1 })) hp
      (by show s.f.pos + 1 + bs.length < 3; omega)
    refine ⟨tr, ?_⟩
    rw [xferAll_cons, hnext, htr, List.length_cons, Nat.add_comm bs.length 1, ← Nat.add_assoc]
    rfl

/-- A Read-Identification short of its third byte. -/
theorem openCommand_identification {ops : List Byte} (h : readyForOpcode s) (hlen : ops.length < 3) :
    ∃ t, exchange (s.cfg.opByte .rdid :: ops) s = .next t ∧ OpenCommand (s.cfg.opByte .rdid) s t := by
  refine ⟨_, command_in_idle s .rdid ops h, ?_⟩
  obtain ⟨tr, htr⟩ := xferAll_identification ops (noted (s.cfg.opByte .rdid) s.cfg.defaultMiso
    (armAs s.f.resetArmed (opcodeCommon (s.cfg.opByte .rdid) s) .rdid)) rfl (by show 0 + ops.length < 3; omega)
  rw [htr]
  exact ⟨_, _, _, _, rfl⟩

/-- A command short of its format is open, whichever it is. -/
theorem openCommand_of_short {k : FlashCmd} {ops : List Byte} (h : readyForOpcode s) (hlen : ops.length < formatLength s.cfg k) :
    ∃ t, exec (flashInstr ops k) s = .next t ∧ OpenCommand (s.cfg.opByte k) s t := by
  have hnil (h1 : ops.length < 1) : ops = [] := List.length_eq_zero_iff.mp (by omega)
  cases k
  case wrreg | fread | pp | sse | be => exact openCommand_collecting h (by simp) hlen
  case rdsr | rdfsr | rdcfg =>
    rw [hnil hlen]
    exact openCommand_register h (by simp)
  case rdid => exact openCommand_identification h hlen
  all_goals exact absurd hlen (Nat.not_lt_zero _)

/-- Settles O46: the command is open, and the deselect abandons it. -/
theorem truncatedCommandIsAbandoned : Obligations.TruncatedCommandIsAbandoned := by
  intro s k ops h hlen
  obtain ⟨t, hexec, hopen⟩ := openCommand_of_short h hlen
  obtain ⟨hside, hdiag, hb⟩ := hopen.unchanged
  exact ⟨t, hexec, hside, hdiag, hb, hopen.deselect h.2.2⟩

end Sys2Proof.Machine
end

section
/-! SUPPORT. Bytes on the serial link: outside Idle, O6; written to DR, O28; of a flash command, O32; and the deselect that ends a frame,
O47 (40 R110 to R114; 42 R161; 44 R228). -/

namespace Sys2Proof.Machine

variable {s : State}

/-! ### Exchanges at device level (40 R110, R114) -/

/-- At device level bytes are exchanged, or refused while the device is deselected. -/
theorem exchange_eq (bs : List Byte) (s : State) :
    exchange bs s = if s.l.cs then .next (xferAll bs s) else .refused .chipSelectDeasserted := rfl

/-- Settles O6: the frame's first byte is exchanged in the state whose next input is the rest of the frame. -/
theorem stepOutsideIdleExchangesOneByte : Obligations.StepOutsideIdleExchangesOneByte := by
  intro s is b rest hin hp
  have hstep : step s = exchange [b] (pushFrame rest (s.withInbox is)) := by
    rw [step_frame hin, fetchFrame_not_idle (s := s.withInbox is) hp]
    rfl
  rw [hstep, pushFrame_inbox, exchange_eq]
  rfl

/-- The commands that are their opcode byte alone (30_encoding R89). -/
def oneByteCommands : List FlashCmd := [.rsten, .rst, .wren, .wrdi, .esus, .eres, .dslp, .wake, .qen]

/-- The frame of a flash command: its opcode and, unless it is a command of one byte, its operands. -/
theorem encode_flashInstr_frame (c : Cfg) (k : FlashCmd) (ops : List Byte) :
    encode c (flashInstr ops k) = .frame (c.opByte k :: if k ∈ oneByteCommands then [] else ops) := by
  cases k <;> rfl

/-- At device level a flash command is the exchange of its frame, whatever the parser state. -/
theorem exec_flashInstr (k : FlashCmd) (ops : List Byte) (s : State) :
    exec (flashInstr ops k) s = exchange (s.cfg.opByte k :: if k ∈ oneByteCommands then [] else ops) s :=
  exec_of_encode_frame (encode_flashInstr_frame s.cfg k ops)

theorem exec_unknown (b : Byte) (s : State) : exec (.unknown b) s = exchange [b] s := exec_of_encode_frame rfl

/-- Settles O32: a command is the exchange of its frame, which is refused while the device is deselected. -/
theorem flashCommandExchangesItsBytes : Obligations.FlashCommandExchangesItsBytes := by
  intro s k ops b
  rw [exec_flashInstr, exec_unknown]
  constructor
  · intro hcs
    refine ⟨fun hk => ?_, fun hk => ?_, exchange_selected _ s hcs⟩
    · rw [if_neg (show k ∉ oneByteCommands from hk), exchange_selected _ s hcs]
    · rw [if_pos (show k ∈ oneByteCommands from hk), exchange_selected _ s hcs]
  · intro hcs
    exact ⟨exchange_deselected _ s hcs, exchange_deselected _ s hcs⟩

/-! ### Byte writes to DR (42 R161, 40 R114) -/

/-- With an indirect write open and the device selected, a byte write to DR sends its byte. -/
theorem exec_w8Dr_open (v : Word) (hm : functionalMode s.cfg s.h.ccr = .indirectWrite) (ht : 0 < s.h.txLeft) (hcs : s.l.cs = true) :
    exec (.w8Dr 1 v) s = .next (sendDataByte (v.extractLsb' 0 8) s) := by
  have hruns := execW8Dr_runs (w := 1) v (sendsDeselected_false (.inr (.inr (.inr hcs))))
  rw [regWrite_passes .dr 1 _ s rfl (.inl rfl), dataWrite_open _ s hm ht] at hruns
  rw [← BitVec.setWidth_eq_extractLsb' (show 8 ≤ 32 by decide)]
  exact hruns

/-- With an indirect write open and the device deselected, a byte write to DR is refused (log 10). -/
theorem exec_w8Dr_deselected (v : Word) (hm : functionalMode s.cfg s.h.ccr = .indirectWrite) (ht : 0 < s.h.txLeft)
    (hcs : s.l.cs = false) : exec (.w8Dr 1 v) s = .refused .chipSelectDeasserted :=
  execW8Dr_refused v ((sendsDeselected_iff 1 s).mpr ⟨rfl, hm, ht, hcs⟩)

/-- Settles O28, by whether the byte sent is the last one outstanding. -/
theorem dataWriteSendsOneByte : Obligations.DataWriteSendsOneByte := by
  rintro s v b hm ht rfl
  refine ⟨fun hcs => ⟨_, exec_w8Dr_open v hm ht hcs, ?_⟩, exec_w8Dr_deselected v hm ht⟩
  have kept := kept_sendDataByte (v.extractLsb' 0 8) s
  refine ⟨⟨kept.cfg, kept.inbox, kept.rdata, kept.draws⟩, fun hmore => ?_, fun hlast => ?_⟩
  · rw [sendDataByte_more _ s hmore]
    simp [hcs]
  · rw [sendDataByte_last _ s hlast]
    simp [setCS_diag_eq]

/-! ### The deselect (40 R111 to R113; 44 R228) -/

/-- With no page dirty a deselect has nothing to flush. -/
theorem setCS_false_clean (hd : s.f.dirty = none) :
    setCS false s = { s with
      l := { cs := false, trace := s.l.trace ++ [.cs false] }
      f := { s.f with pstate := .idle, pos := 0, acc := 0#24 } } := by
  rw [setCS_false, deviceDeselect, flushDirty_clean (traced false s) hd]
  rfl

/-- A deselect of a device in Idle with nothing collected and no page dirty reaches only the link. -/
theorem setCS_false_idle (hp : s.f.pstate = .idle) (hpos : s.f.pos = 0) (hacc : s.f.acc = 0#24) (hd : s.f.dirty = none) :
    setCS false s = { s with l := { cs := false, trace := s.l.trace ++ [.cs false] } } := by
  rw [setCS_false_clean hd, ← hp, ← hacc, ← hpos]

/-- Settles O47: the deselect field by field, and whole where there is nothing to clear. -/
theorem deselectReturnsToIdle : Obligations.DeselectReturnsToIdle := fun s =>
  have modelSide : SameModelSide s (setCS false s) :=
    ⟨setCS_cfg false s, setCS_inbox false s, setCS_rdata false s, setCS_draws false s⟩
  ⟨setCS_false_flash s, setCS_false_l s, setCS_false_backing s, setCS_h false s, setCS_diag_eq false s, modelSide, setCS_true s,
    setCS_false_idle⟩

end Sys2Proof.Machine
end

section
/-! SUPPORT. The register operations that stay inside the host controller: Control writes, O11; reads, O12; SR and Flag-Clear writes,
O13 and O14; DLR and the polling registers, O15; byte reads of DR, O26 (41 R121 to R139). -/

namespace Sys2Proof.Machine

variable {s : State}

/-! ### Outcomes of register operations that pass the checks (41 R120) -/

theorem next_regWrite {r : Reg} {w : Nat} (body : State → State) (hw : w = regWidth r)
    (hb : lockedByBusy r = false ∨ s.h.busy = false) :
    (.next (regWrite r w body s) : Host.Outcome State Fault Refusal) = .next (body s) :=
  congrArg Host.Outcome.next (regWrite_passes r w body s hw hb)

theorem next_regRead {r : Reg} {w : Nat} (body : State → State) (hw : w = regWidth r) :
    (.next (regRead r w body s) : Host.Outcome State Fault Refusal) = .next (body s) :=
  congrArg Host.Outcome.next (regRead_passes r w body s hw)

/-! ### Control, Status and Flag-Clear writes (41 R121, R122, R125, R126) -/

/-- A Control write of full width, allowed while busy: the latches, then the abort when asked. -/
theorem exec_w32Cr (v : Word) (s : State) :
    exec (.w32Cr 4 v) s = .next { s with
      h := if crAborts s.cfg v then abort (crLatch s.cfg v s.h) else crLatch s.cfg v s.h } :=
  next_regWrite _ rfl (.inl rfl)

/-- Settles O11, by whether the value asks for an abort. -/
theorem controlWriteLatchesAndAborts : Obligations.ControlWriteLatchesAndAborts := by
  intro s v
  rw [exec_w32Cr]
  refine ⟨fun stays => ?_, fun aborts => ?_, rfl, rfl, rfl, rfl⟩
  · rw [if_neg (by simp [crAborts, stays])]
    rfl
  · rw [if_pos (show crAborts s.cfg v = true from aborts)]
    rfl

/-- Settles O13: SR is not locked by busy, and its own rule only raises. -/
theorem statusIsReadOnly : Obligations.StatusIsReadOnly := fun _ _ => next_regWrite _ rfl (.inl rfl)

theorem and_not_eq_ite (flag selected : Bool) : (flag && !selected) = if selected then false else flag := by
  cases selected <;> simp

/-- Settles O14, flag by flag. -/
theorem flagClearWriteClearsSelected : Obligations.FlagClearWriteClearsSelected := by
  intro s v
  have hrun : exec (.w32Fcr 4 v) s = .next (s.mapH (clearFlags s.cfg v)) := next_regWrite _ rfl (.inl rfl)
  simp only [hrun, ← and_not_eq_ite]
  exact ⟨rfl, rfl, rfl, rfl, rfl⟩

/-! ### Reads (41 R123, R124, R127 to R139) -/

theorem getLsbD_flagBit (b : Bool) (n : Nat) {i : Nat} (hi : i < 32) : (flagBit b n).getLsbD i = (decide (i = n) && b) := by
  cases b
  · simp [flagBit]
  · rw [flagBit, if_pos rfl, Bool.and_true, show (1 : Word) = 1#32 from rfl, ← BitVec.twoPow_eq, BitVec.getLsbD_twoPow]
    rcases eq_or_ne i n with rfl | h
    · simp [hi]
    · simp [h, h.symm]

theorem getLsbD_crValue (c : Cfg) (h : HostCtl) {i : Nat} (hi : i < 32) : (crValue c h).getLsbD i =
    (decide (i = c.bits.crEn) && h.en || decide (i = c.bits.crApms) && h.apms || decide (i = c.bits.crPmm) && h.pmm) := by
  simp only [crValue, BitVec.getLsbD_or, getLsbD_flagBit _ _ hi]

theorem getLsbD_srValue (c : Cfg) (h : HostCtl) {i : Nat} (hi : i < 32) : (srValue c h).getLsbD i =
    (decide (i = c.bits.srTef) && h.tef || decide (i = c.bits.srTcf) && h.tcf || decide (i = c.bits.srSmf) && h.smf ||
      decide (i = c.bits.srTof) && h.tof || decide (i = c.bits.srBusy) && h.busy) := by
  simp only [srValue, BitVec.getLsbD_or, getLsbD_flagBit _ _ hi]

/-- Three latches at the default bits of CR are the sum of R123. -/
theorem control_sum : ∀ en apms pmm : Bool,
    (flagBit en 0 ||| flagBit apms 22 ||| flagBit pmm 23).toNat = en.toNat + 2 ^ 22 * apms.toNat + 2 ^ 23 * pmm.toNat := by
  decide

/-- Five flags at the default bits of SR are the sum of R124. -/
theorem status_sum : ∀ tef tcf smf tof busy : Bool,
    (flagBit tef 0 ||| flagBit tcf 1 ||| flagBit smf 3 ||| flagBit tof 4 ||| flagBit busy 5).toNat =
      tef.toNat + 2 * tcf.toNat + 8 * smf.toNat + 16 * tof.toNat + 32 * busy.toNat := by
  decide

theorem crValue_default {c : Cfg} (hc : c.bits = Cfg.default.bits) (h : HostCtl) :
    (crValue c h).toNat = h.en.toNat + 2 ^ 22 * h.apms.toNat + 2 ^ 23 * h.pmm.toNat := by
  rw [crValue, hc]
  exact control_sum h.en h.apms h.pmm

theorem srValue_default {c : Cfg} (hc : c.bits = Cfg.default.bits) (h : HostCtl) : (srValue c h).toNat =
    h.tef.toNat + 2 * h.tcf.toNat + 8 * h.smf.toNat + 16 * h.tof.toNat + 32 * h.busy.toNat := by
  rw [srValue, hc]
  exact status_sum h.tef h.tcf h.smf h.tof h.busy

/-- A register held as its field reads as the field at its position. -/
theorem toNat_shift_field (v : Word) (lo : Nat) : (v <<< lo).toNat = v.toNat * 2 ^ lo % 2 ^ 32 := by
  rw [BitVec.toNat_shiftLeft, Nat.shiftLeft_eq]

theorem exec_r32Cr (s : State) : exec (.r32Cr 4) s = .next { s with rdata := (crValue s.cfg s.h).toNat } := next_regRead _ rfl

theorem exec_r32Sr (s : State) : exec (.r32Sr 4) s = .next { s with rdata := (srValue s.cfg s.h).toNat } := next_regRead _ rfl

theorem exec_r32Dlr (s : State) :
    exec (.r32Dlr 4) s = .next { s with rdata := s.h.dlr.toNat * 2 ^ s.cfg.bits.dlr % 2 ^ 32 } := by
  rw [← toNat_shift_field]
  exact next_regRead _ rfl

theorem exec_r32Pir (s : State) :
    exec (.r32Pir 4) s = .next { s with rdata := s.h.pir.toNat * 2 ^ s.cfg.bits.pir % 2 ^ 32 } := by
  rw [← toNat_shift_field]
  exact next_regRead _ rfl

/-- A field at bit 0 reads as it is held. -/
theorem field_at_zero (v : Word) {lo : Nat} (h : lo = 0) : v.toNat * 2 ^ lo % 2 ^ 32 = v.toNat := by
  rw [h, Nat.pow_zero, Nat.mul_one, Nat.mod_eq_of_lt v.isLt]

/-- Settles O12, register by register, then the default layout. -/
theorem registerReadsHaveNoSideEffect : Obligations.RegisterReadsHaveNoSideEffect := by
  intro s
  refine ⟨⟨_, exec_r32Cr s, fun i hi => getLsbD_crValue s.cfg s.h hi⟩, ⟨_, exec_r32Sr s, fun i hi => getLsbD_srValue s.cfg s.h hi⟩,
    next_regRead _ rfl, exec_r32Dlr s, next_regRead _ rfl, next_regRead _ rfl, next_regRead _ rfl, next_regRead _ rfl,
    exec_r32Pir s, fun hbits => ⟨?_, ?_, ?_, ?_⟩⟩
  · rw [exec_r32Cr, crValue_default hbits]
  · rw [exec_r32Sr, srValue_default hbits]
  · rw [exec_r32Dlr, field_at_zero _ (by rw [hbits]; rfl)]
  · rw [exec_r32Pir, field_at_zero _ (by rw [hbits]; rfl)]

/-! ### DLR and the polling registers (41 R128, R136 to R138) -/

theorem exec_w32Dlr (v : Word) (hb : s.h.busy = false) :
    exec (.w32Dlr 4 v) s = .next { s with h := { s.h with dlr := fieldWord v s.cfg.bits.dlr s.cfg.dlrBits } } :=
  next_regWrite _ rfl (.inr hb)

theorem exec_w32Pir (v : Word) (hb : s.h.busy = false) :
    exec (.w32Pir 4 v) s = .next { s with h := { s.h with pir := fieldWord v s.cfg.bits.pir s.cfg.pirBits } } :=
  next_regWrite _ rfl (.inr hb)

theorem fieldWord_whole (v : Word) : fieldWord v 0 32 = v := by
  apply BitVec.eq_of_toNat_eq
  rw [fieldWord, BitVec.toNat_ofNat, bitField, Nat.pow_zero, Nat.div_one, Nat.mod_mod, Nat.mod_eq_of_lt v.isLt]

theorem fieldWord_low_half (v : Word) : fieldWord v 0 16 = v &&& 0x0000FFFF#32 := by
  apply BitVec.eq_of_toNat_eq
  have hmask : v.toNat &&& 0xFFFF = v.toNat % 2 ^ 16 := Nat.and_two_pow_sub_one_eq_mod v.toNat 16
  rw [BitVec.toNat_and, fieldWord, BitVec.toNat_ofNat, bitField, Nat.pow_zero, Nat.div_one]
  refine Eq.trans ?_ hmask.symm
  omega

/-- Settles O15, register by register, then the two default layouts. -/
theorem plainRegisterWritesStore : Obligations.PlainRegisterWritesStore := by
  intro s v hb
  refine ⟨exec_w32Dlr v hb, next_regWrite _ rfl (.inr hb), next_regWrite _ rfl (.inr hb), exec_w32Pir v hb, fun hlo hn => ?_,
    fun hlo hn => ?_, rfl, rfl, rfl, rfl⟩
  · rw [exec_w32Dlr v hb, hlo, hn, fieldWord_whole]
  · rw [exec_w32Pir v hb, hlo, hn, fieldWord_low_half]

/-! ### Byte reads of DR (41 R135) -/

theorem exec_r8Dr (s : State) : exec (.r8Dr 1) s = .next (dataRead s) := next_regRead _ rfl

/-- A pop takes the oldest byte; the one that empties the FIFO completes the transaction. -/
theorem dataRead_pop {b : Byte} {bs : List Byte} (h : s.h.fifo = b :: bs) : dataRead s = { s with
    h := if bs = [] then complete { s.h with fifo := bs } else { s.h with fifo := bs }
    rdata := b.toNat } := by
  unfold dataRead
  rw [h]
  rfl

theorem dataRead_underflow (h : s.h.fifo = []) : dataRead s = readUnspecified 1 (raise .fifoUnderflow s) := by
  unfold dataRead
  rw [h]

/-- Settles O26, by whether the FIFO holds a byte, and by whether the pop empties it. -/
theorem dataReadPopsFifo : Obligations.DataReadPopsFifo := by
  intro s
  rw [exec_r8Dr]
  refine ⟨fun b bs h => ?_, fun h => ?_⟩
  · rw [dataRead_pop h]
    by_cases hbs : bs = []
    · rw [if_pos hbs, if_pos hbs, hbs]
      rfl
    · rw [if_neg hbs, if_neg hbs]
  · rw [dataRead_underflow h]
    exact ⟨_, readUnspecified_bound 1 (raise .fifoUnderflow s), rfl⟩

end Sys2Proof.Machine
end

section
/-! SUPPORT. CCR, AR and DR writes that start no transaction, O22, and those whose transaction has no data phase, O23 (41 R130, R132,
R134; 42 R150 to R153, R157). -/

namespace Sys2Proof.Machine

variable {s : State}

/-! ### Writes that start nothing (41 R130, R132; 42 R151) -/

/-- A CCR write that passes the checks latches the value's fields, then looks at the trigger. -/
theorem exec_w32Ccr (v : Word) (hb : s.h.busy = false) :
    exec (.w32Ccr 4 v) s = .next (afterCcrWrite (s.mapH fun h => { h with ccr := ccrLatch s.cfg v })) :=
  next_regWrite _ rfl (.inr hb)

/-- An AR write that passes the checks latches the value, then looks at the trigger. -/
theorem exec_w32Ar (v : Word) (hb : s.h.busy = false) :
    exec (.w32Ar 4 v) s = .next (afterArWrite (s.mapH fun h => { h with ar := v })) :=
  next_regWrite _ rfl (.inr hb)

theorem afterCcrWrite_waits (h : startTrigger s.cfg s.h.ccr = .onAR ∨ startTrigger s.cfg s.h.ccr = .onDR) : afterCcrWrite s = s := by
  unfold afterCcrWrite
  rcases h with h | h <;> rw [h]

theorem afterCcrWrite_conflict (h : startTrigger s.cfg s.h.ccr = .conflict) :
    afterCcrWrite s = raise (.triggerConsistency s.h.ccr) s := by
  unfold afterCcrWrite
  rw [h]

theorem afterArWrite_waits (h : startTrigger s.cfg s.h.ccr = .onCCR ∨ startTrigger s.cfg s.h.ccr = .onDR) : afterArWrite s = s := by
  unfold afterArWrite
  rcases h with h | h <;> rw [h]

theorem afterArWrite_conflict (h : startTrigger s.cfg s.h.ccr = .conflict) :
    afterArWrite s = raise (.triggerConsistency s.h.ccr) s := by
  unfold afterArWrite
  rw [h]

/-- With alternate bytes configured no transaction starts (42 R152). -/
theorem execute_alternate (ha : alternateBytes s.cfg s.h.ccr = true) :
    (execute s).2 = raise (.alternateBytesUnsupported s.h.ccr) s := by
  rw [execute_refused s ha]

/-- A first data byte with alternate bytes configured is not sent: no transaction starts (42 R152). -/
theorem dataWrite_refused (b : Byte) (ht : startTrigger s.cfg s.h.ccr = .onDR) (ha : alternateBytes s.cfg s.h.ccr = true)
    (hx : s.h.txLeft = 0) : dataWrite b s = raise (.alternateBytesUnsupported s.h.ccr) s := by
  obtain ⟨-, hm, -⟩ := trigger_onDR ht
  unfold dataWrite
  rw [if_neg (by simp [hm]), if_pos hx, if_neg (by simp [ht]), execute_refused s ha]
  rfl

/-- With no indirect write open a byte write to DR runs its rule. -/
theorem exec_w8Dr_closed (v : Word) (hx : s.h.txLeft = 0) : exec (.w8Dr 1 v) s = .next (dataWrite (v.setWidth 8) s) :=
  (execW8Dr_runs v (sendsDeselected_false (.inr (.inr (.inl hx))))).trans (next_regWrite _ rfl (.inl rfl))

/-! ### The stored bits of CCR (30_encoding R86) -/

theorem getLsbD_fieldMask (lo n : Nat) {i : Nat} (hi : i < 32) :
    (fieldMask lo n).getLsbD i = (decide (lo ≤ i) && decide (i < lo + n)) := by
  rw [fieldMask, BitVec.getLsbD_ofNat, decide_eq_true hi, Bool.true_and, Nat.testBit_mul_two_pow, Nat.testBit_two_pow_sub_one]
  rcases Nat.lt_or_ge i lo with h | h
  · simp [Nat.not_le.mpr h]
  · simp [h, Nat.sub_lt_iff_lt_add h, Nat.add_comm]

/-- A bit of a mask built field by field is a bit of one of the fields. -/
theorem getLsbD_fieldMasks (fields : List (Nat × Nat)) (m : Word) {i : Nat} (hi : i < 32) :
    (fields.foldl (fun m p => m ||| fieldMask p.1 p.2) m).getLsbD i =
      (m.getLsbD i || fields.any fun p => decide (p.1 ≤ i) && decide (i < p.1 + p.2)) := by
  induction fields generalizing m with
  | nil => simp
  | cons p fields ih => rw [List.foldl_cons, ih, BitVec.getLsbD_or, getLsbD_fieldMask _ _ hi, List.any_cons, Bool.or_assoc]

theorem getLsbD_ccrMask (c : Cfg) {i : Nat} (hi : i < 32) :
    (ccrMask c).getLsbD i = (ccrFields c).any fun p => decide (p.1 ≤ i) && decide (i < p.1 + p.2) := by
  rw [ccrMask, getLsbD_fieldMasks _ _ hi]
  simp

/-- Settles O22, by the register written and what the trigger asks for. -/
theorem configurationWriteWithoutStart : Obligations.ConfigurationWriteWithoutStart := by
  rintro s v x hb rfl
  refine ⟨fun ht => ?_, fun ht => ?_, fun ht => ?_, fun ht => ?_, fun ht ha => ?_, fun ht ha => ?_, fun ht ha hx => ?_,
    fun i hi => ?_, by decide⟩
  · exact (exec_w32Ccr v hb).trans (congrArg Host.Outcome.next (afterCcrWrite_waits ht))
  · exact (exec_w32Ccr v hb).trans (congrArg Host.Outcome.next (afterCcrWrite_conflict ht))
  · exact (exec_w32Ar v hb).trans (congrArg Host.Outcome.next (afterArWrite_waits ht))
  · exact (exec_w32Ar v hb).trans (congrArg Host.Outcome.next (afterArWrite_conflict ht))
  · exact (w32Ccr_starts v hb ht).trans (congrArg Host.Outcome.next (execute_alternate ha))
  · exact (w32Ar_starts v hb ht).trans (congrArg Host.Outcome.next (execute_alternate ha))
  · exact (exec_w8Dr_closed v hx).trans (congrArg Host.Outcome.next (dataWrite_refused _ ht ha hx))
  · rw [BitVec.getLsbD_and, getLsbD_ccrMask s.cfg hi]

/-! ### Transactions without data phase (42 R153, R157) -/

/-- Executing a transaction without data phase leaves what the frame of its header leaves, and the host controller done. -/
theorem execute_frameWithoutData (halt : alternateBytes s.cfg s.h.ccr = false) (hd : dataPhasePresent s.cfg s.h.ccr = false)
    (hpoll : functionalMode s.cfg s.h.ccr ≠ .autoPolling) (hmm : functionalMode s.cfg s.h.ccr ≠ .memoryMapped) :
    SameModelSide s (execute s).2 ∧ FrameWithoutData s (execute s).2 := by
  have indirect : functionalMode s.cfg s.h.ccr = .indirectWrite ∨ functionalMode s.cfg s.h.ccr = .indirectRead := by
    cases hm : functionalMode s.cfg s.h.ccr <;> simp_all
  have hframe : (execute s).2 =
      afterFrame (headerBytes s.cfg s.h.ccr s.h.ar) { s.h with tcf := true, busy := false } s := by
    rw [execute_without_data s halt hd indirect, endWithoutData_header, afterFrame]
  rw [hframe]
  exact ⟨afterFrame_sameModelSide _ _ s, rfl, afterFrame_oneFrame _ _ s, afterFrame_sameAsFrame _ _ s⟩

/-- Settles O23: either write executes the transaction from the latched state. -/
theorem transactionWithoutDataCompletes : Obligations.TransactionWithoutDataCompletes := by
  rintro s v x hb rfl
  refine ⟨fun ht hpoll halt => ?_, fun ht hpoll hd halt => ?_⟩
  · obtain ⟨hmm, hd⟩ := (trigger_onCCR ht).2.resolve_left hpoll
    obtain ⟨hside, hframe⟩ :=
      execute_frameWithoutData (s := s.mapH fun h => { h with ccr := ccrLatch s.cfg v }) halt hd hpoll hmm
    exact ⟨_, w32Ccr_starts v hb ht, ⟨hside.cfg, hside.inbox, hside.rdata, hside.draws⟩, hframe⟩
  · obtain ⟨-, hmm, -⟩ := trigger_onAR ht
    obtain ⟨hside, hframe⟩ := execute_frameWithoutData (s := s.mapH fun h => { h with ar := v }) halt hd hpoll hmm
    exact ⟨_, w32Ar_starts v hb ht, ⟨hside.cfg, hside.inbox, hside.rdata, hside.draws⟩, hframe⟩

end Sys2Proof.Machine
end

section
/-! SUPPORT. The control latches gate nothing, O19 (41 R141, R142): every operation of the core commutes with giving them other
values. -/

namespace Sys2Proof.Machine

variable (en apms pmm : Bool) (s : State)

/-! ### Updates of one block of the state -/

theorem withControl_cfg : (withControl en apms pmm s).cfg = s.cfg := rfl
theorem withControl_l : (withControl en apms pmm s).l = s.l := rfl
theorem withControl_h : (withControl en apms pmm s).h = { s.h with en := en, apms := apms, pmm := pmm } := rfl

/-- An update of the host controller that neither reads nor writes the latches. -/
theorem withControl_mapH (g : HostCtl → HostCtl)
    (hg : ∀ h, g { h with en := en, apms := apms, pmm := pmm } = { g h with en := en, apms := apms, pmm := pmm } := by
      intro h; rfl) :
    (withControl en apms pmm s).mapH g = withControl en apms pmm (s.mapH g) := by
  unfold withControl
  rw [mapH_mapH, mapH_mapH]
  exact congrArg s.mapH (funext hg)

/-! ### Exchanges and chip-select (40 R110 to R114) -/

theorem withControl_xfer (b : Byte) :
    xfer b (withControl en apms pmm s) = ((xfer b s).1, withControl en apms pmm (xfer b s).2) := xfer_mapH _ b s

theorem withControl_xferAll (bs : List Byte) :
    xferAll bs (withControl en apms pmm s) = withControl en apms pmm (xferAll bs s) := xferAll_mapH _ bs s

theorem withControl_replies (bs : List Byte) : replies bs (withControl en apms pmm s) = replies bs s := replies_mapH _ bs s

theorem withControl_setCS (level : Bool) :
    setCS level (withControl en apms pmm s) = withControl en apms pmm (setCS level s) := setCS_mapH level _ s

theorem withControl_exchange (bs : List Byte) :
    exchange bs (withControl en apms pmm s) = onNext (withControl en apms pmm) (exchange bs s) := by
  rw [exchange_eq, exchange_eq, withControl_l, withControl_xferAll]
  split <;> rfl

/-! ### The sequencer (42 R152 to R163) -/

theorem withControl_header : header (withControl en apms pmm s) = withControl en apms pmm (header s) := by
  rw [header_eq, header_eq, withControl_setCS]
  simp only [withControl_cfg, withControl_h, withControl_xferAll]
  exact withControl_mapH en apms pmm _ _

theorem withControl_burst (n : Nat) : burst n (withControl en apms pmm s) = withControl en apms pmm (burst n s) := by
  rw [burst_eq, burst_eq, withControl_cfg, withControl_xferAll, withControl_replies]
  exact withControl_mapH en apms pmm _ _

theorem withControl_pollExchange :
    pollExchange (withControl en apms pmm s) = ((pollExchange s).1, withControl en apms pmm (pollExchange s).2) := by
  simp only [pollExchange, withControl_cfg, withControl_replies, withControl_xferAll]

theorem withControl_pollHit : pollHit (withControl en apms pmm s) = pollHit s := by
  simp only [pollHit, withControl_pollExchange, withControl_h]

theorem withControl_pollResent : pollResent (withControl en apms pmm s) = withControl en apms pmm (pollResent s) := by
  simp only [pollResent, withControl_pollExchange, withControl_xfer, withControl_cfg, withControl_h]

theorem withControl_pollLoop (n : Nat) : pollLoop n (withControl en apms pmm s) = withControl en apms pmm (pollLoop n s) := by
  induction n generalizing s with
  | zero =>
    rw [pollLoop_zero, pollLoop_zero, withControl_pollHit, withControl_pollExchange]
    split <;> rfl
  | succ n ih =>
    rw [pollLoop_succ, pollLoop_succ, withControl_pollHit, withControl_pollExchange, withControl_pollResent, ih]
    split <;> rfl

theorem withControl_endWithoutData :
    endWithoutData (withControl en apms pmm s) = withControl en apms pmm (endWithoutData s) := by
  rw [endWithoutData, withControl_setCS]
  exact withControl_mapH en apms pmm _ complete

theorem withControl_readBurst : readBurst (withControl en apms pmm s) = withControl en apms pmm (readBurst s) := by
  simp only [readBurst, withControl_h, withControl_burst, withControl_setCS]

theorem withControl_autoPoll : autoPoll (withControl en apms pmm s) = withControl en apms pmm (autoPoll s) := by
  simp only [autoPoll, withControl_cfg, withControl_h, withControl_pollLoop, withControl_setCS]
  exact withControl_mapH en apms pmm _ _

theorem withControl_dataPhase : dataPhase (withControl en apms pmm s) = withControl en apms pmm (dataPhase s) := by
  unfold dataPhase
  simp only [withControl_cfg, withControl_h]
  split
  · exact withControl_endWithoutData en apms pmm s
  · exact withControl_endWithoutData en apms pmm s
  · exact withControl_mapH en apms pmm s _
  · exact withControl_readBurst en apms pmm s
  · exact withControl_autoPoll en apms pmm s
  · rfl

theorem withControl_execute :
    execute (withControl en apms pmm s) = ((execute s).1, withControl en apms pmm (execute s).2) := by
  unfold execute
  simp only [withControl_cfg, withControl_h, withControl_header, withControl_dataPhase]
  split <;> rfl

theorem withControl_sendDataByte (b : Byte) :
    sendDataByte b (withControl en apms pmm s) = withControl en apms pmm (sendDataByte b s) := by
  have counted : (xfer b (withControl en apms pmm s)).2.mapH (fun h => { h with txLeft := h.txLeft - 1 }) =
      withControl en apms pmm ((xfer b s).2.mapH fun h => { h with txLeft := h.txLeft - 1 }) := by
    rw [withControl_xfer]
    exact withControl_mapH en apms pmm _ _
  unfold sendDataByte
  dsimp only
  rw [counted, withControl_h]
  dsimp only
  split
  · rw [withControl_mapH en apms pmm _ complete, withControl_setCS]
  · rfl

/-! ### Register operations (41 R120 to R139) -/

theorem withControl_regWrite (r : Reg) (w : Nat) {body : State → State}
    (hb : body (withControl en apms pmm s) = withControl en apms pmm (body s)) :
    regWrite r w body (withControl en apms pmm s) = withControl en apms pmm (regWrite r w body s) := by
  unfold regWrite
  simp only [withControl_cfg, withControl_h, hb]
  split
  · rfl
  · split <;> rfl

theorem withControl_regRead (r : Reg) (w : Nat) {body : State → State}
    (hb : body (withControl en apms pmm s) = withControl en apms pmm (body s)) :
    regRead r w body (withControl en apms pmm s) = withControl en apms pmm (regRead r w body s) := by
  unfold regRead
  simp only [withControl_cfg, hb]
  split <;> rfl

theorem withControl_reservedAccess (a : Access) (off w : Nat) :
    reservedAccess a off w (withControl en apms pmm s) = withControl en apms pmm (reservedAccess a off w s) := by
  cases a <;> rfl

theorem withControl_afterCcrWrite : afterCcrWrite (withControl en apms pmm s) = withControl en apms pmm (afterCcrWrite s) := by
  unfold afterCcrWrite
  simp only [withControl_cfg, withControl_h, withControl_execute]
  split <;> rfl

theorem withControl_afterArWrite : afterArWrite (withControl en apms pmm s) = withControl en apms pmm (afterArWrite s) := by
  unfold afterArWrite
  simp only [withControl_cfg, withControl_h, withControl_execute]
  split <;> rfl

theorem withControl_dataWrite (b : Byte) :
    dataWrite b (withControl en apms pmm s) = withControl en apms pmm (dataWrite b s) := by
  unfold dataWrite
  simp only [withControl_cfg, withControl_h, withControl_execute, withControl_sendDataByte]
  split
  · rfl
  · split
    · split
      · rfl
      · split <;> rfl
    · rfl

theorem withControl_dataRead : dataRead (withControl en apms pmm s) = withControl en apms pmm (dataRead s) := by
  rcases hf : s.h.fifo with _ | ⟨b, bs⟩
  · rw [dataRead_underflow hf, dataRead_underflow (s := withControl en apms pmm s) hf]
    rfl
  · rw [dataRead_pop hf, dataRead_pop (s := withControl en apms pmm s) hf]
    split <;> rfl

theorem withControl_execW8Dr (w : Nat) (v : Word) :
    execW8Dr w v (withControl en apms pmm s) = onNext (withControl en apms pmm) (execW8Dr w v s) := by
  have same : sendsDeselected w (withControl en apms pmm s) = sendsDeselected w s := rfl
  cases hd : sendsDeselected w s
  · rw [execW8Dr_runs v hd, execW8Dr_runs v (same.trans hd),
      withControl_regWrite en apms pmm s .dr w (withControl_dataWrite en apms pmm s _)]
    rfl
  · rw [execW8Dr_refused v hd, execW8Dr_refused v (same.trans hd)]
    rfl

/-! ### Instructions -/

/-- Every instruction but a Control read or write does the same whatever the latches hold, and leaves them. -/
theorem withControl_exec (i : Instr) (hr : ∀ w, i ≠ .r32Cr w) (hw : ∀ w v, i ≠ .w32Cr w v) :
    exec i (withControl en apms pmm s) = onNext (withControl en apms pmm) (exec i s) := by
  have writes {body : State → State} (r : Reg) (w : Nat)
      (hb : body (withControl en apms pmm s) = withControl en apms pmm (body s)) :=
    congrArg (Host.Outcome.next (φ := Fault) (ρ := Refusal)) (withControl_regWrite en apms pmm s r w hb)
  have reads {body : State → State} (r : Reg) (w : Nat)
      (hb : body (withControl en apms pmm s) = withControl en apms pmm (body s)) :=
    congrArg (Host.Outcome.next (φ := Fault) (ρ := Refusal)) (withControl_regRead en apms pmm s r w hb)
  cases i
  case w32Cr w v => exact absurd rfl (hw w v)
  case r32Cr w => exact absurd rfl (hr w)
  case w32Sr w v => exact writes .sr w rfl
  case w32Fcr w v => exact writes .fcr w (withControl_mapH en apms pmm s _)
  case w32Dlr w v => exact writes .dlr w (withControl_mapH en apms pmm s _)
  case w32Ccr w v =>
    exact writes .ccr w (withControl_afterCcrWrite en apms pmm (s.mapH fun h => { h with ccr := ccrLatch s.cfg v }))
  case w32Ar w v => exact writes .ar w (withControl_afterArWrite en apms pmm (s.mapH fun h => { h with ar := v }))
  case w8Dr w v => exact withControl_execW8Dr en apms pmm s w v
  case r8Dr w => exact reads .dr w (withControl_dataRead en apms pmm s)
  case w32Psmkr w v => exact writes .psmkr w (withControl_mapH en apms pmm s _)
  case w32Psmar w v => exact writes .psmar w (withControl_mapH en apms pmm s _)
  case w32Pir w v => exact writes .pir w (withControl_mapH en apms pmm s _)
  case r32Sr w => exact reads .sr w rfl
  case r32Fcr w => exact reads .fcr w rfl
  case r32Dlr w => exact reads .dlr w rfl
  case r32Ccr w => exact reads .ccr w rfl
  case r32Ar w => exact reads .ar w rfl
  case r32Psmkr w => exact reads .psmkr w rfl
  case r32Psmar w => exact reads .psmar w rfl
  case r32Pir w => exact reads .pir w rfl
  case reserved04 a off w => exact congrArg Host.Outcome.next (withControl_reservedAccess en apms pmm s a off w)
  case reserved1C a off w => exact congrArg Host.Outcome.next (withControl_reservedAccess en apms pmm s a off w)
  case reserved30 a off w => exact congrArg Host.Outcome.next (withControl_reservedAccess en apms pmm s a off w)
  all_goals exact withControl_exchange en apms pmm s _

/-- Settles O19: instructions commute with the latches' values, and a Control write sets all three itself. -/
theorem controlLatchesGateNothing : Obligations.ControlLatchesGateNothing := by
  refine fun s en apms pmm => ⟨fun i hr hw => withControl_exec en apms pmm s i hr hw, fun v => ?_⟩
  have overwritten : crLatch s.cfg v (withControl en apms pmm s).h = crLatch s.cfg v s.h := rfl
  rw [exec_w32Cr, exec_w32Cr, withControl_cfg, overwritten]
  rfl

end Sys2Proof.Machine
end

section
/-! SUPPORT. The start-trigger table from the raw fields, O20, and the open indirect write, counted by its DR writes, O29 (42 R150,
R155, R161, R162). -/

namespace Sys2Proof.Machine

variable {s : State} {bs : List Byte}

/-! ### The start trigger from the raw fields (42 R150; 30_encoding R86, R87) -/

theorem addressPhase_eq (c : Cfg) (ccr : Word) : addressPhase c ccr = decide (ccr.toNat / 2 ^ c.bits.admode % 4 ≠ 0) :=
  decide_not.symm

theorem dataPhasePresent_eq (c : Cfg) (ccr : Word) : dataPhasePresent c ccr = decide (ccr.toNat / 2 ^ c.bits.dmode % 4 ≠ 0) :=
  decide_not.symm

/-- The functional mode a mode number stands for (30 R87). -/
def modeOf : Nat → FMode
  | 0 => .indirectWrite
  | 1 => .indirectRead
  | 2 => .autoPolling
  | _ => .memoryMapped

theorem functionalMode_eq (c : Cfg) (ccr : Word) : functionalMode c ccr = modeOf (ccr.toNat / 2 ^ c.bits.fmode % 4) := rfl

/-- Settles O20, row by row of the table. -/
theorem startTriggerTable : Obligations.StartTriggerTable := by
  rintro c ccr mode a d hmode rfl rfl
  rw [startTrigger, addressPhase_eq, dataPhasePresent_eq, functionalMode_eq, ← hmode]
  have hlt : mode < 4 := hmode ▸ Nat.mod_lt _ (by decide)
  generalize decide (ccr.toNat / 2 ^ c.bits.admode % 4 ≠ 0) = a
  generalize decide (ccr.toNat / 2 ^ c.bits.dmode % 4 ≠ 0) = d
  match mode, hlt with
  | 0, _ => cases a <;> cases d <;> rfl
  | 1, _ => cases a <;> cases d <;> rfl
  | 2, _ => cases a <;> rfl
  | 3, _ => rfl

/-! ### Runs of byte writes to DR (41 R134, 42 R161) -/

/-- An indirect write is open and the device selected: `n` more data bytes are due. -/
structure WriteOpen (n : Nat) (s : State) : Prop where
  mode : functionalMode s.cfg s.h.ccr = .indirectWrite
  selected : s.l.cs = true
  due : s.h.txLeft = n

theorem execAll_cons_next {i : Instr} {is : List Instr} {t : State} (h : exec i s = .next t) :
    execAll (i :: is) s = execAll is t := by
  rw [execAll, h]

theorem dataWrites_cons (b : Byte) (bs : List Byte) : dataWrites (b :: bs) = .w8Dr 1 (b.setWidth 32) :: dataWrites bs := rfl

/-- The byte a data write carries. -/
theorem dataWrite_byte (b : Byte) : (b.setWidth 32).extractLsb' 0 8 = b := by
  rw [← BitVec.setWidth_eq_extractLsb' (show 8 ≤ 32 by decide), BitVec.setWidth_setWidth_of_le b (by decide),
    BitVec.setWidth_eq]

/-- A data write into an open indirect write sends its byte. -/
theorem WriteOpen.exec_w8Dr {n : Nat} (h : WriteOpen (n + 1) s) (b : Byte) :
    exec (.w8Dr 1 (b.setWidth 32)) s = .next (sendDataByte b s) := by
  have hrun := exec_w8Dr_open (b.setWidth 32) h.mode (by rw [h.due]; exact Nat.succ_pos n) h.selected
  rwa [dataWrite_byte] at hrun

/-- A byte that is not the last one due leaves the write open. -/
theorem WriteOpen.after_byte {n : Nat} (h : WriteOpen (n + 1) s) (b : Byte) :
    WriteOpen n ((xfer b s).2.mapH fun h => { h with txLeft := h.txLeft - 1 }) where
  mode := by simpa using h.mode
  selected := by simpa using h.selected
  due := by simp [h.due]

/-- Fewer data writes than are due send their bytes and count them off. -/
theorem WriteOpen.execAll_short {n : Nat} (h : WriteOpen n s) (hlt : bs.length < n) :
    execAll (dataWrites bs) s = .next ((xferAll bs s).mapH fun h => { h with txLeft := h.txLeft - bs.length }) := by
  induction bs generalizing n s with
  | nil => rfl
  | cons b bs ih =>
    rw [List.length_cons] at hlt
    obtain ⟨n, rfl⟩ := Nat.exists_eq_add_of_lt (Nat.zero_lt_of_lt hlt)
    rw [Nat.zero_add] at h
    have hmore : 1 < s.h.txLeft := by rw [h.due]; omega
    rw [dataWrites_cons, execAll_cons_next (h.exec_w8Dr b), sendDataByte_more b s hmore, ih (h.after_byte b) (by omega),
      xferAll_mapH, mapH_mapH, xferAll_cons, List.length_cons]
    simp only [Nat.sub_sub, Nat.add_comm 1]

/-- As many data writes as are due send their bytes, release chip-select and complete the transaction. -/
theorem WriteOpen.execAll_whole {n : Nat} (h : WriteOpen (n + 1) s) (hlen : bs.length = n + 1) :
    execAll (dataWrites bs) s =
      .next ((setCS false (xferAll bs s)).mapH fun h => { h with txLeft := 0, tcf := true, busy := false }) := by
  induction bs generalizing n s with
  | nil => exact absurd hlen (by simp)
  | cons b bs ih =>
    rw [List.length_cons, Nat.add_left_inj] at hlen
    rw [dataWrites_cons, execAll_cons_next (h.exec_w8Dr b)]
    cases n with
    | zero =>
      obtain rfl : bs = [] := List.length_eq_zero_iff.mp hlen
      rw [sendDataByte_last b s h.due]
      rfl
    | succ n =>
      rw [sendDataByte_more b s (by rw [h.due]; omega), ih (h.after_byte b) hlen, xferAll_mapH, setCS_mapH, mapH_mapH, xferAll_cons]

/-! ### The transaction that the first data write starts (42 R155, R162) -/

/-- An idle host has no indirect write open (10_state R46 (b)). -/
theorem HostInv.txLeft_of_idle {c : Cfg} {h : HostCtl} (inv : HostInv c h) (hb : h.busy = false) : h.txLeft = 0 := by
  by_contra hne
  simp [(inv.write_open (Nat.pos_of_ne_zero hne)).1] at hb

/-- The header of an indirect write opens it for the configured data length. -/
theorem writeOpen_openWrite (hm : functionalMode s.cfg s.h.ccr = .indirectWrite) :
    WriteOpen (s.h.dlr.toNat + 1) (openWrite (header s)) := by
  rw [openWrite_header]
  exact ⟨by simpa using hm, by simp, rfl⟩

/-- The first data write starts the transaction: it does what it does once the header has opened the write. -/
theorem execAll_dataWrites_starts (hx : s.h.txLeft = 0) (ht : startTrigger s.cfg s.h.ccr = .onDR)
    (ha : alternateBytes s.cfg s.h.ccr = false) (h0 : bs ≠ []) :
    execAll (dataWrites bs) s = execAll (dataWrites bs) (openWrite (header s)) := by
  obtain ⟨b, bs, rfl⟩ := List.exists_cons_of_ne_nil h0
  have hopen := writeOpen_openWrite (trigger_onDR ht).2.1
  have hfirst : exec (.w8Dr 1 (b.setWidth 32)) s = .next (sendDataByte b (openWrite (header s))) := by
    rw [exec_w8Dr_closed _ hx, BitVec.setWidth_eq_extractLsb' (show 8 ≤ 32 by decide), dataWrite_byte,
      dataWrite_starts b s ht hx ha]
  rw [dataWrites_cons, execAll_cons_next hfirst, execAll_cons_next (hopen.exec_w8Dr b)]

/-- The last data byte due ends the frame that the header opened. -/
theorem release_openWrite (hx : s.h.txLeft = 0) (bs : List Byte) :
    (setCS false (xferAll bs (openWrite (header s)))).mapH (fun h => { h with txLeft := 0, tcf := true, busy := false }) =
      afterFrame (headerBytes s.cfg s.h.ccr s.h.ar ++ bs) { s.h with tcf := true, busy := false } s := by
  rw [openWrite_header, xferAll_mapH, setCS_mapH, mapH_mapH, afterFrame, xferAll_append, ← hx]

/-- Settles O29: the data writes run from the opened write, and the data length decides whether the last one is among them. -/
theorem hostDataLengthLaw : Obligations.HostDataLengthLaw := by
  intro s bs inv htcf hb ht ha
  have hx := inv.txLeft_of_idle hb
  have hopen := writeOpen_openWrite (trigger_onDR ht).2.1
  refine ⟨fun h1 hle => ?_, fun hlen => ?_⟩
  · refine ⟨_, (execAll_dataWrites_starts hx ht ha (List.ne_nil_of_length_pos h1)).trans
      (hopen.execAll_short (Nat.lt_succ_of_le hle)), ?_⟩
    rw [openWrite_header]
    simp [htcf, dataLength]
  · refine ⟨_, (execAll_dataWrites_starts hx ht ha (List.ne_nil_of_length_pos (by omega))).trans
      (hopen.execAll_whole hlen), ?_⟩
    rw [release_openWrite hx]
    exact ⟨rfl, afterFrame_oneFrame _ _ s, afterFrame_sameAsFrame _ _ s⟩

end Sys2Proof.Machine
end

section
/-! SUPPORT. Polling the status register for busy clear, O31 (42 R158, 44 R226, R227, 70 R292). -/

namespace Sys2Proof.Machine

variable {s : State} {n : Nat}

/-! ### The status register over the link (43 R186; 44 R226, R227) -/

/-- The next exchange is answered with the status register. -/
structure AnswersStatus (s : State) : Prop where
  shape : s.cfg.shapeOk = true
  reading : s.f.pstate = .readingRegister
  command : s.f.cmd = s.cfg.ops.rdsr

/-- In Idle the RDSR opcode makes the device answer with the status register, which stays as it is. -/
theorem xfer_rdsr_flash (hs : s.cfg.shapeOk = true) (hp : s.f.pstate = .idle) :
    (xfer s.cfg.ops.rdsr s).2.f =
      { s.f with resetArmed := false, cmd := s.cfg.ops.rdsr, pos := 0, acc := 0, pstate := .readingRegister } := by
  rw [xfer_idle _ s hp, decodeOpcode_of s s.cfg.ops.rdsr .rdsr (flashCmdOf_eq s .rdsr hs)]
  rfl

theorem answersStatus_xfer_rdsr (hs : s.cfg.shapeOk = true) (hp : s.f.pstate = .idle) :
    AnswersStatus (xfer s.cfg.ops.rdsr s).2 where
  shape := by rwa [xfer_cfg]
  reading := by rw [xfer_rdsr_flash hs hp]
  command := by rw [xfer_rdsr_flash hs hp, xfer_cfg]

/-- The exchange that answers with the status register clears what the one-shot clear mask holds, and that mask. -/
theorem AnswersStatus.xfer_status (h : AnswersStatus s) (b : Byte) :
    (xfer b s).1 = s.f.sr ∧ (xfer b s).2.f = { postReadClear s.f with pstate := .idle } := by
  have hcmd : flashCmdOf s.cfg s.f.cmd = some .rdsr := by
    rw [h.command]
    exact flashCmdOf_eq s .rdsr h.shape
  rw [xfer_register b s h.reading, registerByte_of s .rdsr hcmd]
  exact ⟨rfl, rfl⟩

/-- A filler met in Idle is an unknown opcode: the common part alone (43 R180, R199). -/
theorem xfer_filler_flash (hs : s.cfg.shapeOk = true) (hp : s.f.pstate = .idle) :
    (xfer s.cfg.fillerByte s).2.f = { s.f with resetArmed := false, cmd := s.cfg.fillerByte, pos := 0, acc := 0 } := by
  rw [xfer_idle _ s hp, decodeOpcode_unknown s _ (flashCmdOf_filler s.cfg hs)]
  rfl

/-- Fillers met in Idle leave the device there, with its status register and mask. -/
theorem xferAll_fillers_idle (n : Nat) (hs : s.cfg.shapeOk = true) (hp : s.f.pstate = .idle) :
    let t := xferAll (List.replicate n s.cfg.fillerByte) s
    t.f.pstate = .idle ∧ t.f.sr = s.f.sr ∧ t.f.srClear = s.f.srClear := by
  induction n generalizing s with
  | zero => exact ⟨hp, rfl, rfl⟩
  | succ n ih =>
    have hf := xfer_filler_flash hs hp
    have hrest := ih (s := (xfer s.cfg.fillerByte s).2) (by rwa [xfer_cfg]) (by rw [hf]; exact hp)
    rw [xfer_cfg, hf] at hrest
    exact hrest

/-! ### One iteration (42 R158, 30_encoding R95) -/

/-- A polling iteration begins that reads the status register and waits for its bit `n` to clear; RDSR starts the next one too. -/
structure AwaitsBit (n : Nat) (s : State) : Prop extends AnswersStatus s where
  bit : n < 8
  response : 1 ≤ s.cfg.pollResponseBytes
  instruction : ccrInstruction s.cfg s.h.ccr = s.cfg.ops.rdsr
  mask : s.h.psmkr = 1#32 <<< n
  value : s.h.psmar = 0#32

theorem pollFillers_cons {c : Cfg} (h : 1 ≤ c.pollResponseBytes) :
    pollFillers c = c.fillerByte :: List.replicate (c.pollResponseBytes - 1) c.fillerByte := by
  rw [pollFillers, ← List.replicate_succ, Nat.sub_add_cancel h]

/-- Masked to one bit of its first byte, a response is 0 exactly when that bit is clear. -/
theorem pollResponse_masked (b : Byte) (later : List Byte) (hn : n < 8) :
    pollResponse (b :: later) &&& 1#32 <<< n = 0#32 ↔ b.getLsbD n = false := by
  have hn32 : n < 32 := by omega
  have hbit : (pollResponse (b :: later)).getLsbD n = b.getLsbD n := by simp [pollResponse, hn, hn32]
  have hne : BitVec.twoPow 32 n ≠ 0#32 := fun h => by simpa [hn32] using congrArg (fun x => x.getLsbD n) h
  rw [← BitVec.twoPow_eq, BitVec.and_twoPow, hbit]
  cases b.getLsbD n
  · simp
  · simpa using hne

/-- The iteration matches exactly when the bit is clear: the status register is the response's first byte. -/
theorem AwaitsBit.pollHit_iff_clear (h : AwaitsBit n s) : pollHit s = true ↔ s.f.sr.getLsbD n = false := by
  rw [pollHit, pollMatches, beq_iff_eq, pollExchange, pollFillers_cons h.response, replies, (h.xfer_status _).1, h.mask, h.value,
    pollResponse_masked _ _ h.bit]

/-- The iteration clears in the status register what the one-shot clear mask holds, and that mask, and leaves the device in Idle. -/
theorem AwaitsBit.pollExchange_flash (h : AwaitsBit n s) :
    let t := (pollExchange s).2
    t.f.pstate = .idle ∧ t.f.sr = s.f.sr &&& ~~~s.f.srClear ∧ t.f.srClear = 0#8 := by
  have hf := (h.xfer_status s.cfg.fillerByte).2
  have hrest := xferAll_fillers_idle (s := (xfer s.cfg.fillerByte s).2) (s.cfg.pollResponseBytes - 1)
    (by rw [xfer_cfg]; exact h.shape) (by rw [hf])
  rw [xfer_cfg, hf] at hrest
  rw [pollExchange, pollFillers_cons h.response]
  exact hrest

/-- The next iteration waits for the same bit, in the register as this one left it. -/
theorem AwaitsBit.pollResent_awaits (h : AwaitsBit n s) :
    let t := pollResent s
    AwaitsBit n t ∧ t.f.sr = s.f.sr &&& ~~~s.f.srClear ∧ t.f.srClear = 0#8 := by
  obtain ⟨hidle, hsr, hclear⟩ := h.pollExchange_flash
  have hshape : (pollExchange s).2.cfg.shapeOk = true := by rw [pollExchange_cfg]; exact h.shape
  have hresent : pollResent s = (xfer (pollExchange s).2.cfg.ops.rdsr (pollExchange s).2).2 := by
    rw [pollResent, h.instruction, pollExchange_cfg]
  have hanswers : AnswersStatus (pollResent s) := hresent ▸ answersStatus_xfer_rdsr hshape hidle
  refine ⟨{ hanswers with bit := h.bit, response := ?_, instruction := ?_, mask := ?_, value := ?_ }, ?_, ?_⟩
  · rw [pollResent_cfg]; exact h.response
  · rw [pollResent_cfg, pollResent_h]; exact h.instruction
  · rw [pollResent_h]; exact h.mask
  · rw [pollResent_h]; exact h.value
  · rw [hresent, xfer_rdsr_flash hshape hidle, ← hsr]
  · rw [hresent, xfer_rdsr_flash hshape hidle, ← hclear]

/-! ### The loop (42 R158, R159) -/

theorem pollLoop_hit (n : Nat) (h : pollHit s = true) : pollLoop n s = pollMatched (pollExchange s).2 := by
  cases n with
  | zero => rw [pollLoop_zero, if_pos h]
  | succ n => rw [pollLoop_succ, if_pos h]

/-- A loop that misses once and then matches makes two iterations. -/
theorem pollLoop_second (hn : 1 ≤ n) (hmiss : ¬ pollHit s = true) (hhit : pollHit (pollResent s) = true) :
    pollLoop n s = pollMatched (pollExchange (pollResent s)).2 := by
  obtain ⟨n, rfl⟩ := Nat.exists_eq_add_of_le' hn
  rw [pollLoop_succ, if_neg hmiss, pollLoop_hit n hhit]

/-! ### Waiting for busy clear (70 R292) -/

/-- The latched transaction polls the status register by RDSR alone, at least twice, for bit `n` to clear; the bit is set and the
next read of the register clears it. -/
structure PollsBusy (n : Nat) (s : State) : Prop where
  shape : s.cfg.shapeOk = true
  idle : s.f.pstate = .idle
  set : s.f.sr.getLsbD n = true
  clears : s.f.srClear = 1#8 <<< n
  mask : s.h.psmkr = 1#32 <<< n
  value : s.h.psmar = 0#32
  budget : 2 ≤ pollBudget s.cfg s.h.pir
  response : 1 ≤ s.cfg.pollResponseBytes
  instruction : ccrInstruction s.cfg s.h.ccr = s.cfg.ops.rdsr
  bytes : headerBytes s.cfg s.h.ccr s.h.ar = [s.cfg.ops.rdsr]

/-- The header's one byte is RDSR: the first iteration waits for the bit, in the status register as it was. -/
theorem PollsBusy.header_awaits (h : PollsBusy n s) :
    let u := header s
    AwaitsBit n u ∧ u.f.sr = s.f.sr ∧ u.f.srClear = s.f.srClear := by
  have hheader : header s = (xfer s.cfg.ops.rdsr (setCS true s)).2.mapH fun h => { h with busy := true } := by
    rw [header_eq, h.bytes]
    rfl
  have hf : (xfer s.cfg.ops.rdsr (setCS true s)).2.f = _ := xfer_rdsr_flash (s := setCS true s) h.shape h.idle
  obtain ⟨hshape, hreading, hcommand⟩ := answersStatus_xfer_rdsr (s := setCS true s) h.shape h.idle
  have hanswers : AnswersStatus (header s) := hheader ▸ ⟨hshape, hreading, hcommand⟩
  refine ⟨{ hanswers with bit := BitVec.lt_of_getLsbD h.set, response := ?_, instruction := ?_, mask := ?_, value := ?_ }, ?_, ?_⟩
  · rw [header_cfg]; exact h.response
  · rw [header_cfg, header_h]; exact h.instruction
  · rw [header_h]; exact h.mask
  · rw [header_h]; exact h.value
  · rw [hheader, mapH_f, hf]; rfl
  · rw [hheader, mapH_f, hf]; rfl

/-- The first iteration sees the bit set, the second sees it cleared by the first. -/
theorem PollsBusy.pollLoop_seesOnce (h : PollsBusy n s) :
    pollLoop (pollBudget s.cfg s.h.pir - 1) (header s) = pollMatched (pollExchange (pollResent (header s))).2 ∧
      let t := (pollExchange (pollResent (header s))).2
      t.f.sr = s.f.sr &&& ~~~(1#8 <<< n) ∧ t.f.srClear = 0#8 := by
  obtain ⟨hfirst, hsr, hclear⟩ := h.header_awaits
  obtain ⟨hsecond, hsr2, hclear2⟩ := hfirst.pollResent_awaits
  obtain ⟨-, hsr3, hclear3⟩ := hsecond.pollExchange_flash
  rw [hsr, hclear, h.clears] at hsr2
  rw [hsr2, hclear2, BitVec.not_zero, BitVec.and_allOnes] at hsr3
  have hmiss : ¬ pollHit (header s) = true := by simp [hfirst.pollHit_iff_clear, hsr, h.set]
  have hhit : pollHit (pollResent (header s)) = true := by simp [hsecond.pollHit_iff_clear, hsr2, hfirst.bit]
  exact ⟨pollLoop_second (Nat.le_sub_one_of_lt h.budget) hmiss hhit, hsr3, hclear3⟩

/-- The frame of two iterations is RDSR, fillers, RDSR, fillers. -/
theorem PollsBusy.pollFrame_two (h : PollsBusy n s) :
    pollFrame s 2 = s.cfg.ops.rdsr :: pollBytes s.cfg.pollResponseBytes s.cfg.fillerByte s.cfg.ops.rdsr 2 := by
  rw [pollFrame, h.bytes, h.instruction]
  rfl

/-- The transaction is one frame of two iterations, after which status-match is raised and the bit clear. -/
theorem PollsBusy.autoPoll_seesOnce (h : PollsBusy n s) :
    let t := autoPoll (header s)
    t = afterFrame (pollFrame s 2) { s.h with smf := true, busy := false } s ∧
      t.f.sr = s.f.sr &&& ~~~(1#8 <<< n) ∧ t.f.srClear = 0#8 := by
  obtain ⟨hloop, hsr, hclear⟩ := h.pollLoop_seesOnce
  have hpoll : autoPoll (header s) =
      (setCS false (pollMatched (pollExchange (pollResent (header s))).2)).mapH fun h => { h with busy := false } := by
    rw [autoPoll, header_cfg, header_h, hloop]
  have hrun : (pollExchange (pollResent (header s))).2 = xferAll (pollRun (header s) 2) (header s) := by
    rw [xferAll_pollRun_succ (Nat.le_refl 1), xferAll_pollRun_one]
  dsimp only
  rw [hpoll]
  refine ⟨?_, ?_, ?_⟩
  · rw [hrun, pollMatched, release_pollRun]
    rfl
  · rw [mapH_f, setCS_false_flash]
    exact hsr
  · rw [mapH_f, setCS_false_flash]
    exact hclear

/-- A header without address phase and fillers is the instruction byte. -/
theorem headerBytes_instruction {c : Cfg} {ccr : Word} (ar : Word) (hA : addressPhase c ccr = false) (hd : dummyBytes c ccr = 0) :
    headerBytes c ccr ar = [ccrInstruction c ccr] := by
  rw [headerBytes, hA, hd]
  rfl

/-- A frame does not depend on what the host controller holds when it begins. -/
theorem oneFrame_mapH (g : HostCtl → HostCtl) {t : State} {outs : List Byte} (h : oneFrame (s.mapH g) t outs) :
    oneFrame s t outs := by
  rwa [oneFrame, frameReplies, setCS_mapH, replies_mapH] at h

/-- Settles O31: the CCR write polls for the busy bit from the latched state. -/
theorem pollingSeesBusyOnce : Obligations.PollingSeesBusyOnce := by
  rintro s v x n hs hb hp - hset hclears hmask hvalue hbudget hr rfl ht hm halt hop hd
  have hbytes : headerBytes s.cfg (ccrLatch s.cfg v) s.h.ar = [s.cfg.ops.rdsr] :=
    (headerBytes_instruction s.h.ar (trigger_onCCR ht).1 hd).trans (congrArg (fun b => [b]) hop)
  have hpolls : PollsBusy n (s.mapH fun h => { h with ccr := ccrLatch s.cfg v }) :=
    ⟨hs, hp, hset, hclears, hmask, hvalue, hbudget, hr, hop, hbytes⟩
  obtain ⟨hframe, hsr, hclear⟩ := hpolls.autoPoll_seesOnce
  refine ⟨_, w32Ccr_starts v hb ht, ?_⟩
  rw [execute_poll (s.mapH fun h => { h with ccr := ccrLatch s.cfg v }) halt hm]
  refine ⟨?_, oneFrame_mapH (fun h => { h with ccr := ccrLatch s.cfg v }) ?_, hsr, hclear⟩
  · rw [hframe, ← hb]
    rfl
  · rw [hframe, hpolls.pollFrame_two]
    exact afterFrame_oneFrame _ _ _

end Sys2Proof.Machine
end

section
/-! SUPPORT. The commands that are a byte or a register exchange, met in Idle: O33 to O39 (43 R180 to R190, R194 to R199; 44 R225 to
R227). -/

namespace Sys2Proof.Machine

variable {s : State} {k : FlashCmd}

/-- A command met in Idle: its arm after the common part, then the exchange of the bytes that belong to it. -/
theorem exec_flashInstr_in_idle (h : readyForOpcode s) (ops : List Byte) :
    exec (flashInstr ops k) s =
      .next (xferAll (if k ∈ oneByteCommands then [] else ops)
        (noted (s.cfg.opByte k) s.cfg.defaultMiso (armAs s.f.resetArmed (opcodeCommon (s.cfg.opByte k) s) k))) := by
  rw [exec_flashInstr, command_in_idle s k _ h]

/-! ### The commands of one byte (43 R181 to R184, R194 to R198) -/

/-- Settles O33: the arm of each command updates one field. -/
theorem latchCommandsSetOneBit : Obligations.LatchCommandsSetOneBit := fun _ h =>
  ⟨exec_flashInstr_in_idle (k := .wren) h [], exec_flashInstr_in_idle (k := .wrdi) h [],
    exec_flashInstr_in_idle (k := .esus) h [], exec_flashInstr_in_idle (k := .eres) h [],
    exec_flashInstr_in_idle (k := .rsten) h [], rfl, rfl⟩

/-- Settles O34: the arm of each command is empty, so the common part is left. -/
theorem recognisedNoOperations : Obligations.RecognisedNoOperations := fun _ h =>
  ⟨exec_flashInstr_in_idle (k := .dslp) h [], exec_flashInstr_in_idle (k := .wake) h [],
    exec_flashInstr_in_idle (k := .qen) h []⟩

/-- Settles O35, by the latch before the byte, which selects between the two branches of the arm. -/
theorem resetNeedsArming : Obligations.ResetNeedsArming := by
  intro s h
  have hrun := exec_flashInstr_in_idle (k := .rst) h []
  constructor
  all_goals
    intro harmed
    rw [harmed] at hrun
    exact hrun

/-! ### Bytes that are no opcode (43 R199, 30_encoding R97) -/

theorem flashCmdOf_of_ne {c : Cfg} {b : Byte} (hb : ∀ k, c.opByte k ≠ b) : flashCmdOf c b = none := by
  rw [flashCmdOf_eq_none, unknownOpcode, List.all_eq_true]
  exact fun k _ => bne_iff_ne.mpr (hb k)

/-- Settles O36: the byte is exchanged in Idle, where it decodes to no command. -/
theorem unknownOpcodeIsLogged : Obligations.UnknownOpcodeIsLogged := by
  intro s b h hb
  rw [exec_unknown, exchange_selected _ s h.2.1, xferAll_cons, xfer_idle b s h.2.2,
    decodeOpcode_unknown s b (flashCmdOf_of_ne hb)]
  rfl

/-! ### Write-Register (43 R185) -/

/-- The byte of a Write-Register is its operand whole, whatever the accumulator held (43 R200). -/
theorem collectAcc_wrreg (c : Cfg) (d : Byte) (f : Flash) (hk : flashCmdOf c f.cmd = some .wrreg) :
    collectAcc c d f = d.setWidth 24 := if_pos hk

/-- Settles O37: the one byte the command collects dispatches it, back to Idle. -/
theorem writeRegisterStoresByte : Obligations.WriteRegisterStoresByte := by
  intro s d h
  have hcmd : flashCmdOf s.cfg s.cfg.ops.wrreg = some .wrreg := flashCmdOf_eq s .wrreg h.1
  have hexec : exec (.wrreg [d]) s = .next (xferAll [d] (collectingFrom s.cfg.ops.wrreg s)) :=
    (exec_flashInstr .wrreg [d] s).trans (collecting_command_in_idle s .wrreg [d] h (.inl rfl))
  have hacc : collectAccs (collectingFrom s.cfg.ops.wrreg s).cfg [d] (collectingFrom s.cfg.ops.wrreg s).f = d.setWidth 24 :=
    collectAcc_wrreg s.cfg d _ hcmd
  rw [hexec, xferAll_collect_whole [d] (collectingFrom s.cfg.ops.wrreg s) .wrreg hcmd rfl (List.cons_ne_nil _ _) rfl, hacc]
  simp [dispatchAs, dispatchWrreg, toPState, State.mapF, collectingFrom, silentExchanges, h.2.2]

/-! ### Register reads (43 R186 to R188; 44 R226, R227) -/

/-- The byte after the opcode of a register command meets the register state. -/
theorem exec_register_read (h : readyForOpcode s) (hk : k = .rdsr ∨ k = .rdfsr ∨ k = .rdcfg) (x : Byte) :
    let r := registerAs (toPState .readingRegister (afterOpcode (s.cfg.opByte k) s)) k
    exec (flashInstr [x] k) s = .next (noted x r.1 r.2) := by
  have hrun : exec (flashInstr [x] k) s =
      .next (xfer x (toPState .readingRegister (afterOpcode (s.cfg.opByte k) s))).2 := by
    rw [exec_flashInstr_in_idle h]
    rcases hk with rfl | rfl | rfl <;> rfl
  have hreg : registerByte (toPState .readingRegister (afterOpcode (s.cfg.opByte k) s)) =
      registerAs (toPState .readingRegister (afterOpcode (s.cfg.opByte k) s)) k :=
    registerByte_of _ k (flashCmdOf_eq s k h.1)
  rw [hrun, xfer_register x _ rfl, hreg]

/-- Settles O38: each command reads its register and is back in Idle; the status read applies the post-read clear. -/
theorem registerReadsReturnRegister : Obligations.RegisterReadsReturnRegister := by
  intro s x h
  have hrdsr := exec_register_read (k := .rdsr) h (by simp) x
  have hrdfsr := exec_register_read (k := .rdfsr) h (by simp) x
  have hrdcfg := exec_register_read (k := .rdcfg) h (by simp) x
  refine ⟨hrdsr.trans ?_, hrdfsr.trans ?_, hrdcfg.trans ?_⟩
  all_goals
    simp [registerAs, noted, toPState, afterOpcode, State.mapF, State.mapL, postReadClear, Cfg.opByte, h.2.2]

/-! ### Read-Identification (43 R190, 44 R225) -/

/-- An identification byte short of the last. -/
theorem xfer_identification_more (b : Byte) (s : State) (hp : s.f.pstate = .readingIdentification) (hpos : s.f.pos < 2) :
    (xfer b s).2 = noted b (idOf s.cfg s.f.pos) (s.mapF fun f => { f with pos := f.pos + 1 }) := by
  rw [xfer_identification b s hp]
  simp only [State.mapF, if_neg (show ¬ s.f.pos + 1 = 3 by omega)]

/-- The last identification byte ends in Idle. -/
theorem xfer_identification_last (b : Byte) (s : State) (hp : s.f.pstate = .readingIdentification) (hpos : s.f.pos = 2) :
    (xfer b s).2 = noted b s.cfg.id2 (s.mapF fun f => { f with pos := 3, pstate := .idle }) := by
  rw [xfer_identification b s hp]
  simp only [State.mapF, hpos]
  rfl

/-- Settles O39: the three bytes after the opcode run through the identification, the last back to Idle. -/
theorem identificationLaw : Obligations.IdentificationLaw := by
  intro s x y z h
  have hrun : exec (.rdid [x, y, z]) s =
      .next (xferAll [x, y, z] (toPState .readingIdentification (afterOpcode s.cfg.ops.rdid s))) :=
    exec_flashInstr_in_idle (k := .rdid) h [x, y, z]
  rw [hrun, xferAll_cons, xfer_identification_more x _ rfl Nat.two_pos, xferAll_cons,
    xfer_identification_more y _ rfl Nat.one_lt_two, xferAll_cons, xfer_identification_last z _ rfl rfl]
  simp [xferAll_nil, noted, toPState, afterOpcode, idOf, State.mapF, State.mapL, h.2.2]

end Sys2Proof.Machine
end

section
/-! SUPPORT. A Page-Program with the write-enable latch set, O41 (43 R191; 44 R220, R221, R223, R229, R230, R234). Its data bytes fall
into those that storage has room for, which are programmed, and those past the capacity, which are dropped. -/

namespace Sys2Proof.Machine

variable {s t u : State} {addr data bs cs : List Byte}

/-! ### Bytes programmed into a memory (44 R220, R221) -/

/-- The memory after a run of bytes programmed from address `a` on. -/
def programMemory : Memory → Nat → List Byte → Memory
  | m, _, [] => m
  | m, a, b :: bs => programMemory (m.write a (b &&& m.read a)) (a + 1) bs

theorem programMemory_append (m : Memory) (a : Nat) (bs cs : List Byte) :
    programMemory m a (bs ++ cs) = programMemory (programMemory m a bs) (a + bs.length) cs := by
  induction bs generalizing m a with
  | nil => rfl
  | cons b bs ih =>
    rw [List.cons_append, programMemory, ih, programMemory, List.length_cons]
    congr 1
    omega

/-- Each byte of the run is stored ANDed with what stood there, and no other byte changes. -/
theorem memory_read_programMemory (m : Memory) (a : Nat) (bs : List Byte) (x : Nat) (h : Memory.wf m = true) :
    (programMemory m a bs).read x =
      if a ≤ x ∧ x < a + bs.length then bs.getD (x - a) 0#8 &&& m.read x else m.read x := by
  induction bs generalizing m a with
  | nil => exact (if_neg (by simp only [List.length_nil]; omega)).symm
  | cons b bs ih =>
    rw [programMemory, ih _ _ (memory_write_wf m a _ h), memory_read_write m a x _ h, List.length_cons]
    rcases Nat.lt_trichotomy x a with hx | rfl | hx
    · rw [if_neg (by omega), if_neg (by omega), if_neg (by omega)]
    · rw [if_neg (by omega), if_pos rfl, if_pos (by omega), Nat.sub_self]
      rfl
    · have hsub : x - a = (x - (a + 1)) + 1 := by omega
      rw [if_neg (by omega : ¬ x = a), hsub, List.getD_cons_succ]
      exact if_congr (by omega) rfl rfl

/-- Of a run cut off at the end `cap` of storage, each byte that falls inside storage is stored. -/
theorem memory_read_programMemory_take {m : Memory} (h : Memory.wf m = true) (a cap x : Nat) (bs : List Byte) :
    (programMemory m a (bs.take (cap - a))).read x =
      if a ≤ x ∧ x < a + bs.length ∧ x < cap then bs.getD (x - a) 0#8 &&& m.read x else m.read x := by
  rw [memory_read_programMemory m a _ x h, List.length_take]
  by_cases hx : a ≤ x ∧ x < a + bs.length ∧ x < cap
  · rw [if_pos hx, if_pos (by omega), List.getD_eq_getElem?_getD, List.getElem?_take_of_lt (by omega),
      ← List.getD_eq_getElem?_getD]
  · rw [if_neg hx, if_neg (by omega)]

theorem programWarnings_append (m : Memory) (a : Nat) (bs cs : List Byte) :
    programWarnings m a (bs ++ cs) = programWarnings m a bs ++ programWarnings m (a + bs.length) cs := by
  induction bs generalizing a with
  | nil => rfl
  | cons b bs ih =>
    rw [List.cons_append, programWarnings, programWarnings, ih, List.append_assoc, List.length_cons, Nat.add_right_comm,
      Nat.add_assoc a]

/-- The warning of one byte depends on the byte that stood at its address alone. -/
theorem programWarnings_singleton_congr {m n : Memory} {a : Nat} (b : Byte) (h : m.read a = n.read a) :
    programWarnings m a [b] = programWarnings n a [b] := by
  rw [programWarnings, programWarnings, h]
  rfl

/-! ### Copies of whole pages (44 R230) -/

/-- Offset and bytes of `n` pages from page `first` on. -/
def pageCopies (m : Memory) (size first n : Nat) : List (Nat × List Byte) :=
  (List.range n).map fun j => ((first + j) * size, m.bytes ((first + j) * size) size)

theorem pageCopies_succ (m : Memory) (size first n : Nat) :
    pageCopies m size first (n + 1) = pageCopies m size first n ++ [((first + n) * size, m.bytes ((first + n) * size) size)] := by
  rw [pageCopies, List.range_succ, List.map_append]
  rfl

theorem memory_bytes_write {m : Memory} {off len a : Nat} (b : Byte) (h : off + len ≤ a) :
    (m.write a b).bytes off len = m.bytes off len := by
  refine List.map_congr_left fun i hi => memory_read_write_other m a _ b ?_
  have := List.mem_range.mp hi
  omega

/-- A write past the pages leaves their copies as they are. -/
theorem pageCopies_write {m : Memory} {size first n a : Nat} (b : Byte) (h : (first + n) * size ≤ a) :
    pageCopies (m.write a b) size first n = pageCopies m size first n := by
  refine List.map_congr_left fun j hj => congrArg (Prod.mk _) (memory_bytes_write b ?_)
  have hj : first + j + 1 ≤ first + n := by have := List.mem_range.mp hj; omega
  calc (first + j) * size + size = (first + j + 1) * size := (Nat.succ_mul _ _).symm
    _ ≤ (first + n) * size := Nat.mul_le_mul_right size hj
    _ ≤ a := h

/-- The next address lies in the same page or in the next one. -/
theorem succ_div_eq_or (x size : Nat) : (x + 1) / size = x / size ∨ (x + 1) / size = x / size + 1 := by
  rw [Nat.succ_div]
  split
  · exact .inr rfl
  · exact .inl rfl

/-! ### One program byte (44 R220) -/

theorem programByte_inside_f (b : Byte) (hw : s.f.sr.getLsbD s.cfg.srWelBit = true) (hc : s.f.cur < s.cfg.capacity) :
    (programByte b s).f = { s.f with
      cur := s.f.cur + 1
      storage := programMemory s.f.storage s.f.cur [b]
      dirty := some (s.f.cur / s.cfg.pageSize) } := by
  rw [programByte_inside b s hw hc, mapF_f, markDirty_f, program_f]
  rfl

theorem programByte_inside_diag (b : Byte) (hw : s.f.sr.getLsbD s.cfg.srWelBit = true) (hc : s.f.cur < s.cfg.capacity) :
    (programByte b s).diag = s.diag ++ programWarnings s.f.storage s.f.cur [b] := by
  rw [programByte_inside b s hw hc, mapF_diag, markDirty_diag, program_diag, programWarnings, programWarnings, List.append_nil]

/-- A byte for a page that is dirty already, or met with no page dirty, queues nothing. -/
theorem programByte_inside_b_same (b : Byte) (hw : s.f.sr.getLsbD s.cfg.srWelBit = true) (hc : s.f.cur < s.cfg.capacity)
    (hd : s.f.dirty = none ∨ s.f.dirty = some (s.f.cur / s.cfg.pageSize)) : (programByte b s).b = s.b := by
  rw [programByte_inside b s hw hc, mapF_b, markDirty_same _ (program s.f.cur b s) (by rwa [program_f]), mapF_b, program_b]

/-- With a backing, a byte for another page than the dirty one `q` queues `q` whole, as it stands after the byte (44 R229, R230). -/
theorem programByte_inside_queue_other (b : Byte) {q : Nat} (hw : s.f.sr.getLsbD s.cfg.srWelBit = true)
    (hc : s.f.cur < s.cfg.capacity) (hB : s.cfg.hasBacking = true) (hd : s.f.dirty = some q)
    (hq : q ≠ s.f.cur / s.cfg.pageSize) :
    (programByte b s).b.queue = s.b.queue ++ [{
      off := q * s.cfg.pageSize, len := s.cfg.pageSize,
      data := (programMemory s.f.storage s.f.cur [b]).slice (q * s.cfg.pageSize) s.cfg.pageSize }] := by
  have hcfg : (program s.f.cur b s).cfg = s.cfg := (deviceOnly_program s.f.cur b (.refl s)).cfg
  have hdirty : (program s.f.cur b s).f.dirty = some q := by rw [program_f]; exact hd
  rw [programByte_inside b s hw hc, mapF_b, markDirty_other _ q _ hdirty hq, mapF_b, flushDirty_dirty _ q hdirty, mapF_b,
    writeAsync_backing _ _ _ (by rw [hcfg]; exact hB), mapB_b, hcfg, program_b, program_f]
  rfl

/-- Without a backing a program byte queues nothing (44 R230). -/
theorem programByte_volatile (b : Byte) (hB : s.cfg.hasBacking = false) : (programByte b s).b = s.b := by
  rcases programByte_cases b s with ⟨-, e⟩ | ⟨-, -, e⟩ | ⟨-, -, e⟩ <;> rw [e, mapF_b]
  · rfl
  · rcases markDirty_cases (s.f.cur / s.cfg.pageSize) (program s.f.cur b s) with ⟨-, e⟩ | ⟨q, hq, -, e⟩ <;> rw [e, mapF_b]
    · exact program_b _ _ _
    · have hcfg : (program s.f.cur b s).cfg = s.cfg := (deviceOnly_program s.f.cur b (.refl s)).cfg
      rw [flushDirty_dirty _ q hq, mapF_b, writeAsync_volatile _ _ _ (by rw [hcfg]; exact hB), program_b]

theorem programByte_image (b : Byte) (s : State) : (programByte b s).b.image = s.b.image := by
  rcases programByte_cases b s with ⟨-, e⟩ | ⟨-, -, e⟩ | ⟨-, -, e⟩ <;> rw [e, mapF_b]
  · rfl
  · rw [markDirty_image, program_b]

theorem programByte_pstate (b : Byte) (s : State) : (programByte b s).f.pstate = s.f.pstate := by
  rcases programByte_cases b s with ⟨-, e⟩ | ⟨-, -, e⟩ | ⟨-, -, e⟩ <;> rw [e, mapF_f]
  · rfl
  · rw [markDirty_f, program_f]

/-! ### Any run of bytes in Writing -/

/-- What every run of bytes `bs` in Writing has in common, from `s` to `t`, whatever the latch and the address. -/
structure StaysWriting (bs : List Byte) (s t : State) : Prop where
  cfg : t.cfg = s.cfg
  pstate : t.f.pstate = .writing
  trace : t.l.trace = s.l.trace ++ silentExchanges s bs
  image : t.b.image = s.b.image
  volatile : s.cfg.hasBacking = false → t.b.queue = s.b.queue

theorem silentExchanges_append (s : State) (bs cs : List Byte) :
    silentExchanges s (bs ++ cs) = silentExchanges s bs ++ silentExchanges s cs := List.map_append

theorem StaysWriting.trans (h : StaysWriting bs s t) (k : StaysWriting cs t u) : StaysWriting (bs ++ cs) s u where
  cfg := k.cfg.trans h.cfg
  pstate := k.pstate
  trace := by
    have hsilent : silentExchanges t cs = silentExchanges s cs := by rw [silentExchanges, h.cfg]; rfl
    rw [k.trace, h.trace, hsilent, silentExchanges_append, List.append_assoc]
  image := k.image.trans h.image
  volatile hB := (k.volatile (by rw [h.cfg]; exact hB)).trans (h.volatile hB)

theorem staysWriting_xfer (b : Byte) (hp : s.f.pstate = .writing) : StaysWriting [b] s (xfer b s).2 := by
  have hx := xfer_writing b s hp
  refine ⟨xfer_cfg b s, ?_, ?_, ?_, fun hB => ?_⟩
  · rw [hx]
    exact (programByte_pstate b s).trans hp
  · rw [xfer_trace, hx]
    rfl
  · rw [hx]
    exact programByte_image b s
  · rw [hx]
    exact congrArg Backing.queue (programByte_volatile b hB)

theorem staysWriting_xferAll (bs : List Byte) (s : State) (hp : s.f.pstate = .writing) : StaysWriting bs s (xferAll bs s) := by
  induction bs generalizing s with
  | nil => exact ⟨rfl, hp, (List.append_nil _).symm, rfl, fun _ => rfl⟩
  | cons b bs ih =>
    have hfirst := staysWriting_xfer b hp
    exact hfirst.trans (ih _ hfirst.pstate)

/-- In Writing, the last byte of a run is programmed in the state the others leave. -/
theorem xferAll_writing_last (bs : List Byte) (b : Byte) (hp : s.f.pstate = .writing) :
    (xferAll (bs ++ [b]) s).f = (programByte b (xferAll bs s)).f ∧
    (xferAll (bs ++ [b]) s).b = (programByte b (xferAll bs s)).b ∧
    (xferAll (bs ++ [b]) s).diag = (programByte b (xferAll bs s)).diag := by
  rw [xferAll_append, xferAll_cons, xferAll_nil, xfer_writing b _ (staysWriting_xferAll bs s hp).pstate]
  exact ⟨rfl, rfl, rfl⟩

/-! ### A run inside storage, with the latch set (44 R220, R229) -/

/-- The device after a run of bytes programmed inside storage. -/
def programmed (c : Cfg) (bs : List Byte) (f : Flash) : Flash :=
  { f with
    cur := f.cur + bs.length
    storage := programMemory f.storage f.cur bs
    dirty := if bs = [] then f.dirty else some ((f.cur + bs.length - 1) / c.pageSize) }

section Inside

variable (hp : s.f.pstate = .writing) (hw : s.f.sr.getLsbD s.cfg.srWelBit = true)

include hp hw

theorem xferAll_inside_f (bs : List Byte) (hc : bs.length ≤ s.cfg.capacity - s.f.cur) :
    (xferAll bs s).f = programmed s.cfg bs s.f := by
  induction bs using List.reverseRecOn with
  | nil => rfl
  | append_singleton bs b ih =>
    rw [List.length_append, List.length_singleton] at hc
    have hf := ih (by omega)
    have hlast := programByte_inside_f (s := xferAll bs s) b (by rw [hf, xferAll_cfg]; exact hw)
      (by rw [hf, xferAll_cfg]; show s.f.cur + bs.length < s.cfg.capacity; omega)
    rw [(xferAll_writing_last bs b hp).1, hlast, hf, xferAll_cfg]
    simp [programmed, programMemory_append, Nat.add_assoc]

theorem xferAll_inside_diag (bs : List Byte) (hwf : Memory.wf s.f.storage = true)
    (hc : bs.length ≤ s.cfg.capacity - s.f.cur) :
    (xferAll bs s).diag = s.diag ++ programWarnings s.f.storage s.f.cur bs := by
  induction bs using List.reverseRecOn with
  | nil => exact (List.append_nil _).symm
  | append_singleton bs b ih =>
    rw [List.length_append, List.length_singleton] at hc
    have hf := xferAll_inside_f hp hw bs (by omega)
    have hread : (programMemory s.f.storage s.f.cur bs).read (s.f.cur + bs.length) = s.f.storage.read (s.f.cur + bs.length) := by
      rw [memory_read_programMemory _ _ _ _ hwf, if_neg (by omega)]
    have hlast := programByte_inside_diag (s := xferAll bs s) b (by rw [hf, xferAll_cfg]; exact hw)
      (by rw [hf, xferAll_cfg]; show s.f.cur + bs.length < s.cfg.capacity; omega)
    rw [(xferAll_writing_last bs b hp).2.2, hlast, ih (by omega), hf, programWarnings_append, ← List.append_assoc]
    exact congrArg _ (programWarnings_singleton_congr b hread)

/-- The page of the last byte is dirty. -/
theorem xferAll_inside_dirty (bs : List Byte) (b : Byte) (hc : bs.length < s.cfg.capacity - s.f.cur) :
    (xferAll (bs ++ [b]) s).f.dirty = some ((s.f.cur + bs.length) / s.cfg.pageSize) := by
  have hlen : (bs ++ [b]).length = bs.length + 1 := List.length_append
  have hf := xferAll_inside_f hp hw (bs ++ [b]) (by omega)
  simp [hf, programmed]

/-- The last byte of a run queues nothing when no page or its own page is dirty. -/
theorem xferAll_inside_b_same (bs : List Byte) (b : Byte) (hc : bs.length < s.cfg.capacity - s.f.cur)
    (hd : (xferAll bs s).f.dirty = none ∨ (xferAll bs s).f.dirty = some ((s.f.cur + bs.length) / s.cfg.pageSize)) :
    (xferAll (bs ++ [b]) s).b = (xferAll bs s).b := by
  have hf := xferAll_inside_f hp hw bs hc.le
  have hcur : (xferAll bs s).f.cur = s.f.cur + bs.length := by rw [hf, programmed]
  rw [(xferAll_writing_last bs b hp).2.1]
  exact programByte_inside_b_same b (by rw [hf, xferAll_cfg]; exact hw) (by rw [hcur, xferAll_cfg]; omega)
    (by rw [hcur, xferAll_cfg]; exact hd)

/-- The last byte of a run queues the dirty page when it falls into another one. -/
theorem xferAll_inside_queue_other (bs : List Byte) (b : Byte) {q : Nat} (hc : bs.length < s.cfg.capacity - s.f.cur)
    (hB : s.cfg.hasBacking = true) (hd : (xferAll bs s).f.dirty = some q) (hq : q ≠ (s.f.cur + bs.length) / s.cfg.pageSize) :
    (xferAll (bs ++ [b]) s).b.queue = (xferAll bs s).b.queue ++ [{
      off := q * s.cfg.pageSize, len := s.cfg.pageSize,
      data := (programMemory s.f.storage s.f.cur (bs ++ [b])).slice (q * s.cfg.pageSize) s.cfg.pageSize }] := by
  have hf := xferAll_inside_f hp hw bs hc.le
  have hcur : (xferAll bs s).f.cur = s.f.cur + bs.length := by rw [hf, programmed]
  have hqueue := programByte_inside_queue_other b (by rw [hf, xferAll_cfg]; exact hw) (by rw [hcur, xferAll_cfg]; omega)
    (by rw [xferAll_cfg]; exact hB) hd (by rw [hcur, xferAll_cfg]; exact hq)
  rw [(xferAll_writing_last bs b hp).2.1, hqueue, hf, xferAll_cfg, programMemory_append]
  rfl

/-- With a backing and no page dirty before, the pages that a run of at least one byte leaves are queued whole, in order (44 R230). -/
theorem xferAll_inside_queue_last (bs : List Byte) (b : Byte) (hc : bs.length < s.cfg.capacity - s.f.cur)
    (hB : s.cfg.hasBacking = true) (hd : s.f.dirty = none) :
    ∃ es, (xferAll (bs ++ [b]) s).b.queue = s.b.queue ++ es ∧
      es.map (fun p => (p.off, p.bytes)) =
        pageCopies (programMemory s.f.storage s.f.cur (bs ++ [b])) s.cfg.pageSize (s.f.cur / s.cfg.pageSize)
          ((s.f.cur + bs.length) / s.cfg.pageSize - s.f.cur / s.cfg.pageSize) := by
  induction bs using List.reverseRecOn generalizing b with
  | nil =>
    refine ⟨[], ?_, by simp [pageCopies]⟩
    rw [xferAll_inside_b_same hp hw [] b hc (.inl hd)]
    exact (List.append_nil _).symm
  | append_singleton bs c ih =>
    have hlen : (bs ++ [c]).length = bs.length + 1 := List.length_append
    obtain ⟨es, hqueue, hcopies⟩ := ih c (by omega)
    have hdirty := xferAll_inside_dirty hp hw bs c (by omega)
    have hfirst : s.f.cur / s.cfg.pageSize ≤ (s.f.cur + bs.length) / s.cfg.pageSize :=
      Nat.div_le_div_right (Nat.le_add_right _ _)
    have hkept : pageCopies (programMemory s.f.storage s.f.cur (bs ++ [c] ++ [b])) s.cfg.pageSize (s.f.cur / s.cfg.pageSize)
        ((s.f.cur + bs.length) / s.cfg.pageSize - s.f.cur / s.cfg.pageSize) = es.map (fun p => (p.off, p.bytes)) := by
      rw [hcopies, programMemory_append _ _ (bs ++ [c])]
      refine pageCopies_write _ ?_
      rw [Nat.add_sub_cancel' hfirst, hlen]
      exact (Nat.div_mul_le_self _ _).trans (by omega)
    have hpage := succ_div_eq_or (s.f.cur + bs.length) s.cfg.pageSize
    rw [Nat.add_assoc, ← hlen] at hpage
    rcases hpage with hsame | hnext
    · refine ⟨es, ?_, by rw [hsame, hkept]⟩
      rw [xferAll_inside_b_same hp hw (bs ++ [c]) b hc (.inr (by rw [hdirty, hsame])), hqueue]
    · have hleft := xferAll_inside_queue_other hp hw (bs ++ [c]) b hc hB hdirty (by omega)
      refine ⟨es ++ [_], by rw [hleft, hqueue, List.append_assoc], ?_⟩
      rw [hnext, Nat.sub_add_comm hfirst, pageCopies_succ, hkept, Nat.add_sub_cancel' hfirst, List.map_append,
        List.map_singleton, pendingWrite_slice_bytes]

/-- The same for any run; an empty one leaves no page. -/
theorem xferAll_inside_queue (bs : List Byte) (hc : bs.length ≤ s.cfg.capacity - s.f.cur) (hB : s.cfg.hasBacking = true)
    (hd : s.f.dirty = none) :
    ∃ es, (xferAll bs s).b.queue = s.b.queue ++ es ∧
      es.map (fun p => (p.off, p.bytes)) =
        pageCopies (programMemory s.f.storage s.f.cur bs) s.cfg.pageSize (s.f.cur / s.cfg.pageSize)
          ((s.f.cur + bs.length - 1) / s.cfg.pageSize - s.f.cur / s.cfg.pageSize) := by
  rcases List.eq_nil_or_concat' bs with rfl | ⟨init, last, rfl⟩
  · have hnone : (s.f.cur - 1) / s.cfg.pageSize - s.f.cur / s.cfg.pageSize = 0 :=
      Nat.sub_eq_zero_of_le (Nat.div_le_div_right (Nat.sub_le _ _))
    refine ⟨[], (List.append_nil _).symm, ?_⟩
    rw [List.length_nil, Nat.add_zero, hnone]
    rfl
  · have hlen : (init ++ [last]).length = init.length + 1 := List.length_append
    rw [hlen, ← Nat.add_assoc, Nat.add_sub_cancel]
    exact xferAll_inside_queue_last hp hw init last (by omega) hB hd

end Inside

/-! ### Bytes past the capacity (44 R223) -/

/-- The state after a run of bytes past the capacity: each is dropped and recorded, and only the streaming address moves. -/
def afterOutside (bs : List Byte) (s : State) : State :=
  { s with
    l := { s.l with trace := s.l.trace ++ silentExchanges s bs }
    f := { s.f with cur := s.f.cur + bs.length }
    diag := s.diag ++ outOfBoundsRecords s.f.cur bs }

theorem xferAll_outside (bs : List Byte) (s : State) (hp : s.f.pstate = .writing) (hw : s.f.sr.getLsbD s.cfg.srWelBit = true)
    (hc : s.cfg.capacity ≤ s.f.cur) : xferAll bs s = afterOutside bs s := by
  induction bs generalizing s with
  | nil => simp [afterOutside, silentExchanges, outOfBoundsRecords]
  | cons b bs ih =>
    have hx : (xfer b s).2 = afterOutside [b] s := by
      rw [xfer_writing b s hp, programByte_outside b s hw hc]
      rfl
    rw [xferAll_cons, hx, ih (afterOutside [b] s) hp hw (Nat.le_succ_of_le hc)]
    simp [afterOutside, silentExchanges, outOfBoundsRecords, Nat.add_assoc, Nat.add_comm 1]

/-! ### A whole run: the bytes there is room for, then the bytes past the capacity -/

/-- A run is its bytes inside storage, after which only the streaming address and the diagnostics move on (44 R223). -/
theorem xferAll_room (hp : s.f.pstate = .writing) (hw : s.f.sr.getLsbD s.cfg.srWelBit = true) {room : Nat}
    (hroom : room = s.cfg.capacity - s.f.cur) (data : List Byte) :
    let u := xferAll (data.take room) s
    (xferAll data s).f = { u.f with cur := s.f.cur + data.length } ∧ (xferAll data s).b = u.b ∧
    (xferAll data s).diag = u.diag ++ outOfBoundsRecords (s.f.cur + room) (data.drop room) := by
  dsimp only
  have hinside := xferAll_inside_f hp hw (data.take room) (by rw [List.length_take]; omega)
  rcases Nat.le_total data.length room with hfit | hover
  · rw [List.take_of_length_le hfit] at hinside ⊢
    rw [List.drop_eq_nil_of_le hfit, hinside]
    exact ⟨rfl, rfl, (List.append_nil _).symm⟩
  · have hlen : (data.take room).length = room := List.length_take_of_le hover
    have hcur : (xferAll (data.take room) s).f.cur = s.f.cur + room := by rw [hinside, programmed, hlen]
    have hout := xferAll_outside (data.drop room) (xferAll (data.take room) s) (staysWriting_xferAll _ s hp).pstate
      (by rw [hinside, xferAll_cfg]; exact hw) (by rw [hcur, xferAll_cfg]; omega)
    have hsplit : xferAll data s = xferAll (data.drop room) (xferAll (data.take room) s) := by
      rw [← xferAll_append, List.take_append_drop]
    rw [hsplit, hout, afterOutside, hcur, List.length_drop, Nat.add_assoc, Nat.add_sub_cancel' hover]
    exact ⟨rfl, rfl, rfl⟩

/-! ### The command (43 R191) -/

/-- The state in which a Page-Program of the address bytes `addr` waits for its data, the latch being set. -/
def awaitsData (addr : List Byte) (s : State) : State :=
  { s with
    l := { s.l with trace := s.l.trace ++ silentExchanges s (s.cfg.ops.pp :: addr) }
    f := { s.f with resetArmed := false, cmd := s.cfg.ops.pp, pos := s.cfg.addrBytes, acc := BitVec.ofNat 24 (addressOf addr),
                    pstate := .writing, cur := addressOf addr, sr := s.f.sr ||| bitMask s.cfg.srBusyBit,
                    srClear := s.f.srClear ||| bitMask s.cfg.srBusyBit } }

/-- Setting busy leaves the latch set. -/
theorem awaitsData_enabled (addr : List Byte) (hw : s.f.sr.getLsbD s.cfg.srWelBit = true) :
    (awaitsData addr s).f.sr.getLsbD s.cfg.srWelBit = true := by
  show (s.f.sr ||| _).getLsbD _ = true
  rw [BitVec.getLsbD_or, hw, Bool.true_or]

/-- With the latch set, the dispatch sets busy and starts writing at the collected address. -/
theorem dispatchPp_enabled (hw : s.f.sr.getLsbD s.cfg.srWelBit = true) :
    dispatchPp s = toPState .writing ((s.mapF fun f => { f with cur := f.acc.toNat }).mapF (setBusy s.cfg)) := by
  unfold dispatchPp
  exact congrArg (toPState .writing) (if_pos hw)

theorem exec_pageProgram (h : readyForOpcode s) (hw : s.f.sr.getLsbD s.cfg.srWelBit = true) (h0 : addr ≠ [])
    (ha : addr.length = s.cfg.addrBytes) (data : List Byte) :
    exec (.pp (addr ++ data)) s = .next (xferAll data (awaitsData addr s)) := by
  have hheader : xferAll (s.cfg.ops.pp :: (addr ++ [])) s = awaitsData addr s := by
    refine (xferAll_addressed_command (ds := []) .pp h (.inl rfl) h0 ha ha).trans ?_
    rw [dispatchAs, dispatchPp_enabled (s := addressed _ addr [] s) hw]
    simp only [toPState, State.mapF, setBusy, addressed, awaitsData, Cfg.opByte, List.append_nil, List.length_nil, Nat.add_zero,
      addressOf_toNat, ha]
  rw [List.append_nil] at hheader
  have hexec : exec (.pp (addr ++ data)) s = .next (xferAll ((s.cfg.ops.pp :: addr) ++ data) s) :=
    exchange_selected _ s h.2.1
  rw [hexec, xferAll_append, hheader]

/-- Settles O41: the header, then the run of data bytes, read field by field. -/
theorem pageProgramStoresMaskedBytes : Obligations.PageProgramStoresMaskedBytes := by
  rintro s addr data _ room _ h hwf hw h0 ha rfl hroom rfl
  have hp : (awaitsData addr s).f.pstate = .writing := rfl
  have hlatch := awaitsData_enabled addr hw
  have hfits : (data.take room).length ≤ s.cfg.capacity - addressOf addr := by rw [List.length_take]; omega
  have hinside := xferAll_inside_f (s := awaitsData addr s) hp hlatch (data.take room) hfits
  have hwarn := xferAll_inside_diag (s := awaitsData addr s) hp hlatch (data.take room) hwf hfits
  have hqueue := xferAll_inside_queue (s := awaitsData addr s) hp hlatch (data.take room) hfits
  obtain ⟨hf, hb, hdiag⟩ := xferAll_room (s := awaitsData addr s) hp hlatch hroom data
  have hwriting := staysWriting_xferAll data (awaitsData addr s) hp
  rw [hinside] at hf
  have hlen : (data.take room).length = min data.length room := by rw [List.length_take, Nat.min_comm]
  have hnone : data.take room = [] ↔ data = [] ∨ room = 0 := by rw [List.take_eq_nil_iff, or_comm]
  have hstorage : (xferAll data (awaitsData addr s)).f.storage = programMemory s.f.storage (addressOf addr) (data.take room) := by
    rw [hf]; rfl
  refine ⟨_, exec_pageProgram h hw h0 ha data, ?_, fun x => ?_, ?_, ?_, ?_, ?_, fun hB => ?_, fun hB hd => ?_⟩
  · exact ⟨xferAll_cfg _ _, xferAll_h _ _, xferAll_cs _ _, xferAll_inbox _ _, xferAll_rdata _ _, xferAll_draws _ _⟩
  · rw [hstorage, hroom, memory_read_programMemory_take hwf]
  · rw [hstorage, hf]
    simp only [programmed, hlen, hnone]
    rfl
  · rw [hwriting.trace]
    exact (List.append_assoc _ _ _).trans (congrArg _ (silentExchanges_append s (s.cfg.ops.pp :: addr) data).symm)
  · rw [hdiag, hwarn]
    rfl
  · exact hwriting.image
  · exact hwriting.volatile hB
  · obtain ⟨es, hes, hcopies⟩ := hqueue hB hd
    rw [hlen] at hcopies
    exact ⟨es, by rw [hb]; exact hes, by rw [hstorage]; exact hcopies⟩

end Sys2Proof.Machine
end

section
/-! SUPPORT. Without the write-enable latch nothing is programmed or erased, O43 (43 R191 to R193, 44 R222). -/

namespace Sys2Proof.Machine

variable {s : State} {addr : List Byte}

/-- A run of bytes in Writing without the latch: each is dropped, and only the streaming address moves. -/
theorem xferAll_writing_protected (bs : List Byte) (s : State) (hp : s.f.pstate = .writing)
    (hw : s.f.sr.getLsbD s.cfg.srWelBit = false) :
    xferAll bs s = { s with
      l := { s.l with trace := s.l.trace ++ silentExchanges s bs }
      f := { s.f with cur := s.f.cur + bs.length } } := by
  induction bs generalizing s with
  | nil => simp [silentExchanges]
  | cons b bs ih =>
    rw [xferAll_cons, xfer_writing b s hp, programByte_protected b s hw, ih]
    · simp [noted, State.mapF, State.mapL, silentExchanges, Nat.add_assoc, Nat.add_comm 1]
    · exact hp
    · exact hw

/-- Without the latch, the dispatch only starts writing at the collected address. -/
theorem dispatchPp_protected (hw : s.f.sr.getLsbD s.cfg.srWelBit = false) :
    dispatchPp s = toPState .writing (s.mapF fun f => { f with cur := f.acc.toNat }) := by
  have hwel : ¬ (s.mapF fun f => { f with cur := f.acc.toNat }).f.wel s.cfg = true := by
    show ¬ s.f.sr.getLsbD s.cfg.srWelBit = true
    simp [hw]
  unfold dispatchPp
  exact congrArg (toPState .writing) (if_neg hwel)

/-- A Page-Program or an erase met in Idle is dispatched with the last byte of its address. -/
theorem xferAll_address_command (k : FlashCmd) (h : readyForOpcode s) (hk : k = .pp ∨ k = .sse ∨ k = .be) (h0 : addr ≠ [])
    (ha : addr.length = s.cfg.addrBytes) :
    xferAll (s.cfg.opByte k :: addr) s = dispatchAs (addressed (s.cfg.opByte k) addr [] s) k := by
  have hneed : collectNeed s.cfg (some k) = s.cfg.addrBytes := by rcases hk with rfl | rfl | rfl <;> rfl
  have e := xferAll_addressed_command (ds := []) k h (by tauto) h0 ha (ha.trans hneed.symm)
  rwa [List.append_nil] at e

/-- An erase command without the latch leaves its address in the accumulator and is back in Idle. -/
theorem xferAll_erase_protected (k : FlashCmd) (h : readyForOpcode s) (hk : k = .sse ∨ k = .be)
    (hw : s.f.sr.getLsbD s.cfg.srWelBit = false) (h0 : addr ≠ []) (ha : addr.length = s.cfg.addrBytes) :
    xferAll (s.cfg.opByte k :: addr) s = { s with
      l := { s.l with trace := s.l.trace ++ silentExchanges s (s.cfg.opByte k :: addr) }
      f := { s.f with resetArmed := false, cmd := s.cfg.opByte k, pos := s.cfg.addrBytes,
                      acc := BitVec.ofNat 24 (addressOf addr) } } := by
  have hdispatch : dispatchAs (addressed (s.cfg.opByte k) addr [] s) k =
      toPState .idle (addressed (s.cfg.opByte k) addr [] s) := by
    rcases hk with rfl | rfl <;> exact congrArg (toPState .idle) (erase_protected _ (addressed _ addr [] s) hw)
  rw [xferAll_address_command k h (.inr hk) h0 ha, hdispatch]
  simp [toPState, State.mapF, addressed, ha, h.2.2]

/-- What a Page-Program of the address bytes `addr` and the data bytes `data` leaves when the latch is clear. -/
def afterProtectedProgram (addr data : List Byte) (s : State) : State :=
  { s with
    l := { s.l with trace := s.l.trace ++ silentExchanges s (s.cfg.ops.pp :: (addr ++ data)) }
    f := { s.f with resetArmed := false, cmd := s.cfg.ops.pp, pos := s.cfg.addrBytes,
                    acc := BitVec.ofNat 24 (addressOf addr), pstate := .writing, cur := addressOf addr + data.length } }

/-- Its header goes to Writing at the address, without setting busy. -/
theorem xferAll_programHeader_protected (h : readyForOpcode s) (hw : s.f.sr.getLsbD s.cfg.srWelBit = false) (h0 : addr ≠ [])
    (ha : addr.length = s.cfg.addrBytes) : xferAll (s.cfg.ops.pp :: addr) s = afterProtectedProgram addr [] s := by
  refine (xferAll_address_command .pp h (.inl rfl) h0 ha).trans ?_
  rw [dispatchAs, dispatchPp_protected (s := addressed _ addr [] s) hw]
  simp only [toPState, State.mapF, addressed, afterProtectedProgram, Cfg.opByte, addressOf_toNat, ha, List.length_nil, Nat.add_zero]

/-- Its data bytes are dropped. -/
theorem xferAll_programData_protected (hw : s.f.sr.getLsbD s.cfg.srWelBit = false) (addr data : List Byte) :
    xferAll data (afterProtectedProgram addr [] s) = afterProtectedProgram addr data s := by
  rw [xferAll_writing_protected data (afterProtectedProgram addr [] s) rfl hw]
  simp [afterProtectedProgram, silentExchanges]

/-- Settles O43: a Page-Program is its header, then dropped bytes; each erase is dispatched without effect. -/
theorem writeProtectLaw : Obligations.WriteProtectLaw := by
  intro s addr data h hw h0 ha
  have hprogram : xferAll ((s.cfg.ops.pp :: addr) ++ data) s = afterProtectedProgram addr data s := by
    rw [xferAll_append, xferAll_programHeader_protected h hw h0 ha, xferAll_programData_protected hw]
  have hexec {bs : List Byte} {t : State} (e : xferAll bs s = t) : exchange bs s = .next t :=
    (exchange_selected bs s h.2.1).trans (congrArg _ e)
  exact ⟨hexec hprogram, hexec (xferAll_erase_protected .sse h (.inl rfl) hw h0 ha),
    hexec (xferAll_erase_protected .be h (.inr rfl) hw h0 ha)⟩

end Sys2Proof.Machine
end

section
/-! SUPPORT. The dirty page is queued whole by a flush, and by a byte programmed in another page, O50 (44 R229, R230, R232). -/

namespace Sys2Proof.Machine

variable {s : State} {q : Nat}

/-- The pending write that a flush of page `q` queues: a copy of the page as it stands in `m`. -/
def pageWrite (c : Cfg) (m : Memory) (q : Nat) : PendingWrite :=
  { off := q * c.pageSize, len := c.pageSize, data := m.slice (q * c.pageSize) c.pageSize }

theorem pageWrite_bytes (c : Cfg) (m : Memory) (q : Nat) :
    (pageWrite c m q).bytes = (List.range c.pageSize).map fun i => m.read (q * c.pageSize + i) :=
  pendingWrite_slice_bytes m _ _

/-- A byte stored in another page leaves the page's bytes as they are. -/
theorem memory_bytes_write_other_page (m : Memory) {a size : Nat} (b : Byte) (hq : q ≠ a / size) :
    (m.write a b).bytes (q * size) size = m.bytes (q * size) size := by
  refine List.map_congr_left fun i hi => memory_read_write_other m a _ b ?_
  rintro rfl
  have hi : i < size := List.mem_range.mp hi
  rw [Nat.mul_comm, Nat.mul_add_div (Nat.zero_lt_of_lt hi), Nat.div_eq_of_lt hi] at hq
  exact hq rfl

theorem flushDirty_volatile (hd : s.f.dirty = some q) (hB : s.cfg.hasBacking = false) :
    flushDirty s = { s with f := { s.f with dirty := none } } := by
  rw [flushDirty_dirty s q hd, writeAsync_volatile _ _ s hB]
  rfl

theorem flushDirty_backing (hd : s.f.dirty = some q) (hB : s.cfg.hasBacking = true) :
    flushDirty s = { s with
      f := { s.f with dirty := none }
      b := { s.b with queue := s.b.queue ++ [pageWrite s.cfg s.f.storage q] } } := by
  rw [flushDirty_dirty s q hd, writeAsync_backing _ _ s hB]
  rfl

/-- In Writing an exchange does to device and backing what its program byte does. -/
theorem xfer_writing_f_b (b : Byte) (hp : s.f.pstate = .writing) :
    (xfer b s).2.f = (programByte b s).f ∧ (xfer b s).2.b = (programByte b s).b := by
  rw [xfer_writing b s hp]
  exact ⟨rfl, rfl⟩

/-- Settles O50: the hook is a flush, and a programmed byte in another page flushes before it marks; the byte just stored is not in
the page that is queued. -/
theorem dirtyPageIsFlushed : Obligations.DirtyPageIsFlushed := by
  intro s
  refine ⟨flushDirty_clean s, fun q hd => ⟨flushDirty_volatile hd, fun hB => ?_⟩, fun b hp hw hc => ?_⟩
  · exact ⟨_, flushDirty_backing hd hB, rfl, pageWrite_bytes _ _ _⟩
  obtain ⟨hf, hb⟩ := xfer_writing_f_b b hp
  rw [hf, hb]
  refine ⟨?_, programByte_image b s, fun hsame => ?_, fun q hd hq hB => ?_⟩
  · rw [programByte_inside_f b hw hc]
  · rcases hsame with hd | hd | hB
    · rw [programByte_inside_b_same b hw hc (.inl hd)]
    · rw [programByte_inside_b_same b hw hc (.inr hd)]
    · rw [programByte_volatile b hB]
  · refine ⟨_, programByte_inside_queue_other b hw hc hB hd hq, rfl, ?_⟩
    exact (pageWrite_bytes s.cfg _ q).trans (memory_bytes_write_other_page s.f.storage _ hq)

end Sys2Proof.Machine
end

section
/-! SUPPORT. What only raises a diagnostic: program bytes and erases past the capacity, O42 and O45 (60_exceptions R264, R265; 44 R223),
configuration writes while busy, O17 (60_exceptions R257; 41 R120, R140), and data writes that no transaction takes, O27 (60_exceptions
R258; 41 R134). -/

namespace Sys2Proof.Machine

variable {s : State} {addr : List Byte}

/-! ### Past the capacity (43 R202; 44 R223) -/

/-- Settles O42: each byte is dropped and moves the streaming address further past the capacity. -/
theorem programOutOfBoundsIsReported : Obligations.ProgramOutOfBoundsIsReported :=
  fun s bs hp hw hc => xferAll_outside bs s hp hw hc

/-- What an erase command of opcode `op` and address bytes `addr` leaves when its region starts past the capacity. -/
def afterEraseOutside (op : Byte) (addr : List Byte) (s : State) : State :=
  { s with
    l := { s.l with trace := s.l.trace ++ silentExchanges s (op :: addr) }
    f := { s.f with resetArmed := false, cmd := op, pos := s.cfg.addrBytes, acc := BitVec.ofNat 24 (addressOf addr) }
    diag := s.diag ++ [.eraseOutOfBounds (addressOf addr)] }

/-- The erase at the collected address only raises, then Idle again. -/
theorem erase_addressed_outside (op : Byte) (size : Nat) (hi : s.f.pstate = .idle) (hw : s.f.sr.getLsbD s.cfg.srWelBit = true)
    (ha : addr.length = s.cfg.addrBytes) (hc : s.cfg.capacity ≤ alignedBase (addressOf addr) size) :
    toPState .idle (erase size (addressed op addr [] s)) = afterEraseOutside op addr s := by
  have hacc : (addressed op addr [] s).f.acc.toNat = addressOf addr := addressOf_toNat addr
  rw [erase_outside size (addressed op addr [] s) hw (by rw [hacc]; exact hc), hacc]
  simp only [addressed, afterEraseOutside, toPState, State.mapF, raise, List.append_nil, List.length_nil, Nat.add_zero, ha, hi]

/-- Both erase commands, with the latch set and the region starting past the capacity. -/
theorem exchange_erase_outside {k : FlashCmd} {size : Nat} (h : readyForOpcode s)
    (hk : k = .sse ∧ size = s.cfg.subsectorSize ∨ k = .be ∧ size = s.cfg.blockSize)
    (hw : s.f.sr.getLsbD s.cfg.srWelBit = true) (h0 : addr ≠ []) (ha : addr.length = s.cfg.addrBytes)
    (hc : s.cfg.capacity ≤ alignedBase (addressOf addr) size) :
    exchange (s.cfg.opByte k :: addr) s = .next (afterEraseOutside (s.cfg.opByte k) addr s) := by
  rw [exchange_selected _ s h.2.1, xferAll_address_command k h (by tauto) h0 ha,
    ← erase_addressed_outside (s.cfg.opByte k) size h.2.2 hw ha hc]
  rcases hk with ⟨rfl, rfl⟩ | ⟨rfl, rfl⟩ <;> rfl

/-- Settles O45: either command, with its own region size. -/
theorem eraseOutOfBoundsIsReported : Obligations.EraseOutOfBoundsIsReported := by
  rintro s addr _ h hw h0 ha rfl
  exact ⟨exchange_erase_outside (k := .sse) h (.inl ⟨rfl, rfl⟩) hw h0 ha,
    exchange_erase_outside (k := .be) h (.inr ⟨rfl, rfl⟩) hw h0 ha⟩

/-! ### Configuration writes while busy (41 R120, R140) -/

/-- A write to any register but DR is its checks and then the register's own rule; a write to DR can also be refused (log 10). -/
theorem exec_regWriteInstr {r : Reg} (w : Nat) (v : Word) (s : State) (hr : r ≠ .dr) :
    ∃ body, exec (regWriteInstr w v r) s = .next (regWrite r w body s) := by
  cases r
  case dr => exact absurd rfl hr
  all_goals exact ⟨_, rfl⟩

/-- The registers whose writes wait for the transaction to end take 32-bit accesses; DR is none of them. -/
theorem locked_register : ∀ r ∈ [Reg.dlr, .ccr, .ar, .psmkr, .psmar, .pir],
    lockedByBusy r = true ∧ 4 = regWidth r ∧ r ≠ .dr := by
  decide

/-- Settles O17: the write passes the width check and is stopped by the busy check, before the register's own rule. -/
theorem busyConfigurationWritesIgnored : Obligations.BusyConfigurationWritesIgnored := by
  intro s v r hb hr
  obtain ⟨hlocked, hwidth, hdr⟩ := locked_register r hr
  obtain ⟨body, hexec⟩ := exec_regWriteInstr 4 v s hdr
  rw [hexec, regWrite_busy r 4 body s hwidth hlocked hb]
  rfl

/-! ### Data writes that no transaction takes (41 R134) -/

/-- Outside indirect-write, or with nothing in flight and no Data trigger, a data byte is not sent. -/
theorem dataWrite_ignored (b : Byte)
    (h : functionalMode s.cfg s.h.ccr ≠ .indirectWrite ∨ (s.h.txLeft = 0 ∧ startTrigger s.cfg s.h.ccr ≠ .onDR)) :
    dataWrite b s = raise (.dataWriteNoTransaction b) s := by
  unfold dataWrite
  by_cases hm : functionalMode s.cfg s.h.ccr = .indirectWrite
  · obtain ⟨hx, ht⟩ := h.resolve_left (not_not_intro hm)
    rw [if_neg (not_not_intro hm), if_pos hx, if_pos ht]
  · rw [if_pos hm]

/-- Settles O27: with no indirect write open the write is not refused, DR is not locked by busy, and its own rule only raises. -/
theorem dataWriteWithoutTransaction : Obligations.DataWriteWithoutTransaction := by
  intro s v h
  have hruns := execW8Dr_runs (w := 1) v (sendsDeselected_false (.inr (h.imp id fun hidle => .inl hidle.1)))
  rw [regWrite_passes .dr 1 _ s rfl (.inl rfl), dataWrite_ignored _ h, BitVec.setWidth_eq_extractLsb' (by decide)] at hruns
  exact hruns

end Sys2Proof.Machine
end
